-- ==== Sys2Proof/Word.lean ====
section
/-! DEFINITION. The word types of the block: bytes (00_scope.md R8, SYMBOL_WIDTH), 32-bit register words
(R8, REG_WIDTH) and bit strings (R12). -/

namespace Sys2Proof

/-- One byte: a symbol, or a byte of host memory (00_scope.md R8). Symbols are ordered as unsigned numbers (D4). -/
abbrev Byte := BitVec 8

/-- A 32-bit register word, address or length (00_scope.md R8). -/
abbrev Word := BitVec 32

/-- A bit string `c_0 c_1 …`, `c_0` first (00_scope.md R12); `true` is the bit 1. -/
abbrev Bits := List Bool

end Sys2Proof
end

