-- ==== Sys2Proof/Syntax.lean ====
section
/-! DEFINITION. The nine commands of the block (30_encoding.md R81, spec/opcode_table.json). No command has an operand
field: every operand is a register or a table (R85). -/

namespace Sys2Proof

/-- A command, one constructor per row of spec/opcode_table.json (30_encoding.md R81). -/
inductive Instr where
  /-- completes at once (40_table_build.md R100) -/
  | nop
  /-- clears every table (R101) -/
  | clear
  /-- counts the source bytes into FREQ (R102) -/
  | countFreq
  /-- builds the tree from FREQ (R110) -/
  | buildTree
  /-- turns the tree into the code table (R120) -/
  | assignCodes
  /-- packs symbols into bits (41_bit_pack.md R140) -/
  | pack
  /-- unpacks bits into symbols (R150) -/
  | unpack
  /-- writes the container (42_container.md R170) -/
  | serialize
  /-- parses the container (R180) -/
  | deserialize
  deriving DecidableEq, Repr

end Sys2Proof
end

