-- ==== Sys2Proof/WellFormed.lean ====
section
/-! DEFINITION. Well-formed command words and instructions. A command word is well formed when its reserved bits are
zero (30_encoding.md R82) and its opcode is one of the nine (R83). An instruction has no field that could be out of range
(R80: no immediate, register or mode field), so its own check has nothing to refuse. -/

namespace Sys2Proof

/-- 30_encoding.md R82: bits [31:8] must be 0. -/
def wordReservedClear (w : Word) : Bool := w.extractLsb' 8 24 == 0

/-- 30_encoding.md R83: opcodes 0x09 to 0xFF are reserved. -/
def wordOpcodeKnown (w : Word) : Bool := decide ((w.extractLsb' 0 8).toNat ≤ 8)

/-- A legal command word: both checks (R82, R83). -/
def wordWellFormed (w : Word) : Bool := wordReservedClear w && wordOpcodeKnown w

/-- Whether an instruction is well formed. Every constructor is, for no command carries an operand (R80, R88). -/
def Instr.wellFormed : Instr → Bool
  | .nop => true
  | .clear => true
  | .countFreq => true
  | .buildTree => true
  | .assignCodes => true
  | .pack => true
  | .unpack => true
  | .serialize => true
  | .deserialize => true

end Sys2Proof
end

