-- ==== Sys2Proof/Decode.lean ====
section
/-! DEFINITION. Decoding and encoding command words (30_encoding.md R80 to R84). A command is exactly one 32-bit word
written to `CMD`; which bus byte lane carries which byte is the platform's (20_memory.md R65), so the decoder takes the
word. It is total: a word that selects no command is rejected by name. -/

namespace Sys2Proof

/-- Why a word selects no command; either way the block completes it with ILLEGAL_COMMAND. -/
inductive DecodeError where
  /-- one of bits [31:8] is set (30_encoding.md R82) -/
  | reservedBits
  /-- the opcode is 0x09 to 0xFF (R83) -/
  | reservedOpcode
  deriving DecidableEq, Repr

/-- The field OPCODE, bits [7:0] (30_encoding.md R80). -/
def opcodeOf (w : Word) : BitVec 8 := w.extractLsb' 0 8

/-- The opcode map of 30_encoding.md R81; `none` for the reserved opcodes. -/
def ofOpcode (op : Nat) : Option Instr :=
  match op with
  | 0x00 => some .nop
  | 0x01 => some .clear
  | 0x02 => some .countFreq
  | 0x03 => some .buildTree
  | 0x04 => some .assignCodes
  | 0x05 => some .pack
  | 0x06 => some .unpack
  | 0x07 => some .serialize
  | 0x08 => some .deserialize
  | _ => none

/-- 30_encoding.md R81 to R83: the command a word selects, or why it selects none. The reserved bits are looked at
first, whatever the opcode (R82). -/
def decode (w : Word) : Except DecodeError Instr :=
  if wordReservedClear w then
    match ofOpcode (opcodeOf w).toNat with
    | some i => .ok i
    | none => .error .reservedOpcode
  else .error .reservedBits

/-- The opcode column of 30_encoding.md R81. -/
def opcode : Instr → BitVec 8
  | .nop => 0x00
  | .clear => 0x01
  | .countFreq => 0x02
  | .buildTree => 0x03
  | .assignCodes => 0x04
  | .pack => 0x05
  | .unpack => 0x06
  | .serialize => 0x07
  | .deserialize => 0x08

/-- The word of a command: its opcode in bits [7:0], bits [31:8] zero (30_encoding.md R80). -/
def encode (i : Instr) : Word := (opcode i).setWidth 32

/-- One row of the opcode table: a word `w` is the row's when `w &&& mask = pattern` (30_encoding.md R81). -/
structure OpcodeRow where
  pattern : Word
  mask : Word
  instr : Instr
  deriving DecidableEq, Repr

/-- spec/opcode_table.json, in its order: match = OPCODE, mask = 0xFFFFFFFF (30_encoding.md R81). -/
def opcodeTable : List OpcodeRow :=
  [⟨0x00000000, 0xFFFFFFFF, .nop⟩, ⟨0x00000001, 0xFFFFFFFF, .clear⟩, ⟨0x00000002, 0xFFFFFFFF, .countFreq⟩,
   ⟨0x00000003, 0xFFFFFFFF, .buildTree⟩, ⟨0x00000004, 0xFFFFFFFF, .assignCodes⟩, ⟨0x00000005, 0xFFFFFFFF, .pack⟩,
   ⟨0x00000006, 0xFFFFFFFF, .unpack⟩, ⟨0x00000007, 0xFFFFFFFF, .serialize⟩, ⟨0x00000008, 0xFFFFFFFF, .deserialize⟩]

/-- The command word made of `nbits` bits of `w`, the bits above them zero. -/
def tableWord (nbits w : Nat) : Word := BitVec.ofNat 32 (w % 2 ^ nbits)

/-- What the decoder reads from an instruction whose bits are `w`, numbered as spec/opcode_table.json numbers them. Every
command is one 32-bit word (30_encoding.md R84), so more than 32 bits are no command. -/
def decodeTableWord (nbits w : Nat) : Option Instr :=
  if nbits ≤ 32 then
    match decode (tableWord nbits w) with
    | .ok i => some i
    | .error _ => none
  else none

end Sys2Proof
end

