-- ==== Sys2Proof/Config.lean ====
section
/-! DEFINITION. What the implementation fixes (00_scope.md R8) and the free values the spec leaves open
(93_implementation_defined.md section 2). A free value has no body: no proof can learn it. -/

namespace Sys2Proof

/-- 00_scope.md R8: the alphabet has 256 symbols. -/
abbrev Config.alphabet : Nat := 256

/-- 00_scope.md R8, 10_state.md R40: the arena has 511 entries. -/
abbrev Config.maxNodes : Nat := 511

/-- 00_scope.md R8: MAX_CODE_LEN. -/
abbrev Config.maxCodeLen : Nat := 63

/-- 20_memory.md R60, R61: host memory has 2^32 bytes. -/
abbrev Config.memSize : Nat := 2 ^ 32

/-- 10_state.md R22: the constant the register `ID` reads. -/
def Config.idValue : Word := 0x48554631

/-- 20_memory.md R60: the register window spans 16 KiB. -/
abbrev Config.windowSize : Nat := 0x4000

/-- The n-th free byte (93_implementation_defined.md U2, U3: one draw per byte). DESIGN CHOICE, log 6. -/
opaque Config.freeByte : Nat → Byte

/-- The n-th free word (93_implementation_defined.md U1: one 32-bit draw per read). DESIGN CHOICE, log 6. -/
opaque Config.freeWord : Nat → Word

/-- The value PAYLOAD_ADDR gets where the payload's address is 2^32, of the SRC_ADDR it was computed from
(42_container.md R180, 00_scope.md R17). DESIGN CHOICE, log 17. -/
opaque Config.payloadAddrAtTop : Word → Word

end Sys2Proof
end

