-- ==== Sys2Proof/Machine/State.lean ====
section
/-! DEFINITION. The state of the block and of what surrounds it, as plain data (10_state.md R20 to R53, 20_memory.md R60,
R61); the error names (60_exceptions.md R201); the host's bus operations (30_encoding.md R86); the reasons a step can stop;
the state after reset (10_state.md R51). -/

namespace Sys2Proof.Machine

/-- The kinds of a host-memory access (20_memory.md R61). -/
inductive AccessKind where
  | read
  | write
  deriving DecidableEq, Repr

/-- A range of host memory with a kind of access: a range the platform refuses (20_memory.md R61), or one a command reads or
writes (R70). -/
structure Region where
  base : Nat
  size : Nat
  kind : AccessKind
  deriving DecidableEq, Repr

/-- One entry of the arena (10_state.md R40). -/
inductive Node where
  /-- a symbol and its own count -/
  | leaf (sym : Byte) (freq : BitVec 40)
  /-- the sum of the children's frequencies, and the two arena indices -/
  | internal (freq : BitVec 40) (left right : BitVec 9)
  deriving DecidableEq, Repr

/-- The error kinds of 60_exceptions.md R201. -/
inductive ErrorName where
  | emptyInput
  | unassignableCode
  | corruptData
  | malformedContainer
  | illegalCommand
  | sequence
  | range
  | capacity
  | uncodedSymbol
  | busError
  deriving DecidableEq, Repr

/-- A raised error: its name, its ERRINFO, and how many bytes the command had written before the raise
(60_exceptions.md R204). -/
structure Raise where
  name : ErrorName
  info : Word
  written : Nat
  deriving DecidableEq, Repr

/-- A command's destination while it is being filled: host memory, and the number of bytes written from `DST_ADDR` on
(the variable `out` of 41_bit_pack.md R140, R150 and `o` of 42_container.md R170). -/
structure Sink where
  mem : List Host.Cell
  out : Nat
  deriving DecidableEq, Repr

/-- The places of the register window (10_state.md R52). -/
inductive WindowReg where
  | id
  | ctrl
  | cmd
  | status
  | errCode
  | errInfo
  | srcAddr
  | srcLen
  | dstAddr
  | dstCap
  | outLen
  | pad
  | symCount
  | maxLen
  | root
  | nodeCount
  | payloadAddr
  | payloadLen
  | freq (s : Byte)
  | codeLen (s : Byte)
  | codeLo (s : Byte)
  | codeHi (s : Byte)
  /-- words +0, +4, +8, +12 of arena node `i` (10_state.md R43) -/
  | nfreqLo (i : Nat)
  | nfreqHi (i : Nat)
  | ninfo (i : Nat)
  | nchild (i : Nat)
  /-- an offset no rule names (10_state.md R45) -/
  | unmapped
  deriving DecidableEq, Repr

/-- One bus operation of the host (10_state.md R20, 30_encoding.md R86, R87). -/
inductive HostOp where
  /-- read `bytes` bytes of the register window at an offset (`rd`; R46 asks for 4 bytes, aligned) -/
  | readReg (off bytes : Nat)
  /-- write a word to the register window at an offset (`wr`) -/
  | writeReg (off bytes : Nat) (v : Word)
  /-- read STATUS until BUSY reads 0 (`wait`, R87) -/
  | waitIdle
  /-- read one byte of host memory -/
  | readMem (addr : Nat)
  /-- write one byte of host memory (`mem`) -/
  | writeMem (addr : Nat) (v : Byte)
  /-- the reset event (70_reset_and_hazards.md R230) -/
  | resetBlock
  deriving DecidableEq, Repr

/-- What stops the machine. No instruction raises one: every error of the block is a completion (60_exceptions.md R200). -/
inductive Fault where
  /-- Raised by the host's step on a host-memory access at or above 2^32, an address that does not exist
  (20_memory.md R61). SAFE: the model stops where the spec has no such access. -/
  | noSuchAddress (addr : Nat)
  deriving DecidableEq, Repr

/-- What the model gives no meaning to. No instruction is refused. -/
inductive Refusal where
  /-- The arm of an instruction that has no meaning yet raises it; no arm does. SAFE. -/
  | notModelled (mnemonic : String)
  /-- Raised by the host's step on a register access that is not a whole aligned 32-bit word; "a model refuses them"
  (10_state.md R46, 20_memory.md R67). SAFE. -/
  | registerAccessForm
  /-- Raised by the host's step on an offset outside the 16 KiB window (20_memory.md R60). SAFE. -/
  | outsideWindow
  /-- Raised by the host's step on a write to a command's source or destination range, from its acceptance until the host
  reads BUSY = 0; "A model gives the host no move that breaks this duty" (70_reset_and_hazards.md R233). SAFE. -/
  | hostDutyBroken
  deriving DecidableEq, Repr

/-- The block's registers and tables, host memory, and the model's own fields for the host and the open values
(INVENTORY.md, State). -/
structure State where
  /-- `CTRL` bit 0, IE (10_state.md R23) -/
  ie : Bool
  /-- `CMD` (R24) -/
  cmd : Word
  /-- `STATUS` bits 0, 1, 3, 4, 5 (R25); bit 2 is derived from `errCode` -/
  busy : Bool
  done : Bool
  dropped : Bool
  treeValid : Bool
  codesValid : Bool
  /-- `ERRCODE` bits [7:0] (R26) -/
  errCode : BitVec 8
  /-- `ERRINFO` (R27) -/
  errInfo : Word
  /-- the operand registers (R28 to R31) -/
  srcAddr : Word
  srcLen : Word
  dstAddr : Word
  dstCap : Word
  /-- `OUT_LEN` (R32) -/
  outLen : Word
  /-- `PAD` bits [2:0] (R33) -/
  pad : BitVec 3
  /-- `SYM_COUNT` bits [8:0] (R34) -/
  symCount : BitVec 9
  /-- `MAX_LEN` bits [5:0] (R35) -/
  maxLen : BitVec 6
  /-- `ROOT` bits [8:0] (R36) -/
  root : BitVec 9
  /-- `NODE_COUNT` bits [9:0] (R37) -/
  nodeCount : BitVec 10
  /-- `PAYLOAD_ADDR`, `PAYLOAD_LEN` (R38, R39) -/
  payloadAddr : Word
  payloadLen : Word
  /-- the arena `NODE[0..510]` (R40) -/
  node : Vector Node 511
  /-- the frequency table `FREQ[0..255]` (R41) -/
  freq : Vector Word 256
  /-- the forward code table (R42) -/
  codeLen : Vector (BitVec 6) 256
  codeBits : Vector (BitVec 63) 256
  /-- host memory (20_memory.md R61): addresses strictly rising, no byte 0 listed (DESIGN CHOICE, log 4) -/
  mem : List Host.Cell
  /-- the open predicate `mem_admits` (20_memory.md R61) as the list of refused ranges (DESIGN CHOICE, log 3) -/
  denied : List Region
  /-- a command has been accepted since the host last read BUSY = 0: its results are not defined for the host yet
  (20_memory.md R72 (b), 70_reset_and_hazards.md R236; DEDUCED, log 22) -/
  unread : Bool
  /-- the source ranges (kind read) and destination ranges (kind write) of the commands accepted since then
  (70_reset_and_hazards.md R233; DEDUCED, log 22) -/
  guarded : List Region
  /-- the host's pending bus operations, oldest first (DESIGN CHOICE, log 2) -/
  hostOps : List HostOp
  /-- for each command still to be accepted, how many host operations come before its completion (DESIGN CHOICE, log 1) -/
  schedule : List Nat
  /-- the same for the running command, counted down (DESIGN CHOICE, log 1) -/
  holds : Nat
  /-- what the host's last read returned -/
  hostRead : Word
  /-- how many free values have been drawn (DESIGN CHOICE, log 6) -/
  draws : Nat
  deriving DecidableEq, Repr

/-- The machine right after reset (10_state.md R51, 70_reset_and_hazards.md R230). The arena's and the code tables'
contents, which R51 leaves unspecified, are zeros (DESIGN CHOICE, log 5); nothing waits in the host's queue
(DESIGN CHOICE, log 2). -/
def State.reset : State where
  ie := false
  cmd := 0
  busy := false
  done := false
  dropped := false
  treeValid := false
  codesValid := false
  errCode := 0
  errInfo := 0
  srcAddr := 0
  srcLen := 0
  dstAddr := 0
  dstCap := 0
  outLen := 0
  pad := 0
  symCount := 0
  maxLen := 0
  root := 0
  nodeCount := 0
  payloadAddr := 0
  payloadLen := 0
  node := Vector.replicate 511 (.leaf 0 0)
  freq := Vector.replicate 256 0
  codeLen := Vector.replicate 256 0
  codeBits := Vector.replicate 256 0
  mem := []
  denied := []
  unread := false
  guarded := []
  hostOps := []
  schedule := []
  holds := 0
  hostRead := 0
  draws := 0

end Sys2Proof.Machine
end

