-- ==== Sys2Proof/Machine/Ops.lean ====
section
/-! DEFINITION. The named operations: one byte of host memory (20_memory.md R61, R62), the 256-entry tables and the arena
(10_state.md R40 to R42), the destination of a command, and the end of a command: completion (60_exceptions.md R206) and
`raise` (R204), which stands where another machine takes an exception. The block has no trap and no return (R209). -/

namespace Sys2Proof.Machine

/-! ### Host memory as a list of cells -/

/-- The byte at an address; an address that is not listed reads 0 (DESIGN CHOICE, log 4). -/
def Mem.read : List Host.Cell → Nat → Byte
  | [], _ => 0
  | (x, b) :: r, a => if x = a then b else Mem.read r a

/-- The memory with one byte changed, in the canonical form: a byte 0 is not listed (DESIGN CHOICE, log 4). -/
def Mem.write : List Host.Cell → Nat → Byte → List Host.Cell
  | [], a, v => if v = 0 then [] else [(a, v)]
  | (x, b) :: r, a, v =>
    if a < x then (if v = 0 then (x, b) :: r else (a, v) :: (x, b) :: r)
    else if a = x then (if v = 0 then r else (a, v) :: r)
    else (x, b) :: Mem.write r a v

/-- The canonical form from address `lo` on: addresses rise strictly, lie below 2^32, and list no byte 0. -/
def Mem.wfFrom : Nat → List Host.Cell → Bool
  | _, [] => true
  | lo, (a, b) :: r => decide (lo ≤ a) && decide (a < Config.memSize) && decide (b ≠ 0) && Mem.wfFrom (a + 1) r

/-- The canonical form of host memory. -/
def Mem.wf (m : List Host.Cell) : Bool := Mem.wfFrom 0 m

/-- The address is in the range, whose kind is `k`. -/
def Region.covers (g : Region) (a : Nat) (k : AccessKind) : Bool :=
  decide (g.kind = k) && decide (g.base ≤ a) && decide (a < g.base + g.size)

/-- `mem_admits(addr, kind)` (20_memory.md R61): no refused range of that kind holds the address (DESIGN CHOICE, log 3). -/
def State.admits (s : State) (a : Nat) (k : AccessKind) : Bool := !(s.denied.any fun g => g.covers a k)

/-- The address is in a source range (kind read) or a destination range (kind write) of a command accepted since the host
last read BUSY = 0 (70_reset_and_hazards.md R233). -/
def State.guards (s : State) (a : Nat) (k : AccessKind) : Bool := s.guarded.any fun g => g.covers a k

/-- Free bytes written over `n` addresses from `a` on, the draws numbered from `k` on (60_exceptions.md R204, one draw
per byte). -/
def Mem.scramble : List Host.Cell → Nat → Nat → Nat → List Host.Cell
  | m, _, _, 0 => m
  | m, k, a, n + 1 => Mem.scramble (Mem.write m a (Config.freeByte k)) (k + 1) (a + 1) n

/-! ### Tables and arena -/

/-- `T[s]` for a table with one entry per symbol (00_scope.md R14). -/
def tabGet {α : Type} (t : Vector α 256) (s : Byte) : α := t[s.toNat]'(s.isLt)

/-- `T[s] <- v`. -/
def tabSet {α : Type} (t : Vector α 256) (s : Byte) (v : α) : Vector α 256 := t.set s.toNat v s.isLt

/-- The 256 symbols in ascending order (00_scope.md R8, D4). -/
def allSymbols : List Byte := (List.range 256).map (BitVec.ofNat 8)

/-- The table whose entry for each symbol is `f` of it. -/
def tabulate {α : Type} (f : Byte → α) : Vector α 256 := ⟨(allSymbols.map f).toArray, by simp [allSymbols]⟩

/-- `NODE[i]`; an index past the arena, which no rule reads, gives a leaf of frequency 0. -/
def nodeAt (t : Vector Node 511) (i : Nat) : Node := t[i]?.getD (.leaf 0 0)

/-- `NODE[i] <- x`. -/
def nodeSet (t : Vector Node 511) (i : Nat) (x : Node) : Vector Node 511 := t.setIfInBounds i x

/-- The frequency of a node (10_state.md R40). -/
def Node.freq : Node → BitVec 40
  | .leaf _ f => f
  | .internal f _ _ => f

/-- `rank` of 40_table_build.md R111: a leaf before an internal node. -/
def Node.rank : Node → Nat
  | .leaf _ _ => 0
  | .internal _ _ _ => 1

/-! ### The end of a command -/

/-- The numbers of 60_exceptions.md R201. -/
def ErrorName.code : ErrorName → BitVec 8
  | .emptyInput => 0x01
  | .unassignableCode => 0x02
  | .corruptData => 0x03
  | .malformedContainer => 0x04
  | .illegalCommand => 0x10
  | .sequence => 0x11
  | .range => 0x12
  | .capacity => 0x13
  | .uncodedSymbol => 0x14
  | .busError => 0x15

/-- Completion of every command (60_exceptions.md R206). -/
def State.complete (s : State) : State := { s with busy := false, done := true }

/-- How many bytes of `[DST_ADDR, DST_ADDR + DST_CAP)` exist, that is lie below 2^32. -/
def State.dstSpan (s : State) : Nat := min s.dstCap.toNat (Config.memSize - s.dstAddr.toNat)

/-- The destination range becomes a draw per byte (60_exceptions.md R204 (3), 70_reset_and_hazards.md R231). -/
def State.scrambleDst (s : State) : State :=
  { s with mem := Mem.scramble s.mem s.draws s.dstAddr.toNat s.dstSpan, draws := s.draws + s.dstSpan }

/-- The record of an error (60_exceptions.md R204 (1)). -/
def State.recordError (s : State) (r : Raise) : State :=
  { s with errCode := r.name.code, errInfo := r.info, outLen := 0 }

/-- `raise NAME(info)` inside a command (60_exceptions.md R204): ERRCODE, ERRINFO, OUT_LEN 0, then completion; the
destination range is a draw per byte when a byte had been written, and memory is unchanged otherwise. -/
def State.fail (s : State) (r : Raise) : State :=
  (if r.written = 0 then s.recordError r else (s.recordError r).scrambleDst).complete

/-! ### The block's byte accesses -/

/-- `MemRead(SRC_ADDR + j, 1)` (20_memory.md R62) by a command that has written `w` bytes. The byte is that of the memory
the command started with: a command's own writes never feed its own reads (R70 (c), R75; DEDUCED, log 7). -/
def readSrc (s : State) (j w : Nat) : Except Raise Byte :=
  if s.admits (s.srcAddr.toNat + j) .read then .ok (Mem.read s.mem (s.srcAddr.toNat + j))
  else .error ⟨.busError, BitVec.ofNat 32 (s.srcAddr.toNat + j), w⟩

/-- `MemWrite(DST_ADDR + out, 1, v); out <- out + 1` (20_memory.md R62; `put` of 42_container.md R170). -/
def put (s : State) (k : Sink) (v : Byte) : Except Raise Sink :=
  if s.admits (s.dstAddr.toNat + k.out) .write then .ok ⟨Mem.write k.mem (s.dstAddr.toNat + k.out) v, k.out + 1⟩
  else .error ⟨.busError, BitVec.ofNat 32 (s.dstAddr.toNat + k.out), k.out⟩

/-- `emit` of 41_bit_pack.md R140: no room raises CAPACITY(DST_CAP). -/
def emit (s : State) (k : Sink) (v : Byte) : Except Raise Sink :=
  if k.out = s.dstCap.toNat then .error ⟨.capacity, s.dstCap, k.out⟩ else put s k v

/-- The destination before the first write. -/
def State.sink (s : State) : Sink := ⟨s.mem, 0⟩

end Sys2Proof.Machine
end

