-- ==== Sys2Proof/Machine/Operands.lean ====
section
/-! DEFINITION. The operand forms: bit strings as numbers (00_scope.md R12), big-endian byte strings (R13), the sentinel
form (20_memory.md R66), the codes a table holds (10_state.md R42, R44), the source and destination ranges and their checks
(20_memory.md R70). -/

namespace Sys2Proof.Machine

/-! ### Bit strings and byte strings -/

/-- `bits_L(v)` (00_scope.md R12): the L low bits of `v`, the most significant first. -/
def bitsOf : Nat → Nat → Bits
  | 0, _ => []
  | n + 1, v => v.testBit n :: bitsOf n v

/-- `val(c)` (00_scope.md R12): `c_0` is the most significant bit. -/
def valOf (c : Bits) : Nat := c.foldl (fun a b => 2 * a + b.toNat) 0

/-- `bytes_BE32`, `bytes_BE64` (00_scope.md R13): the `n` low bytes of `v`, the most significant first. -/
def bytesBE : Nat → Nat → List Byte
  | 0, _ => []
  | n + 1, v => BitVec.ofNat 8 (v / 256 ^ n) :: bytesBE n v

/-- `BE32`, `BE64` (00_scope.md R13): the first byte is the most significant. -/
def valBE (l : List Byte) : Nat := l.foldl (fun a b => 256 * a + b.toNat) 0

/-- The sentinel form `2^L + val(c)` (20_memory.md R66). -/
def sentinel (len bits : Nat) : Nat := 2 ^ len + bits

/-- The code a stored value holds: `L = floor(log2 v)`, `bits_L(v - 2^L)` (20_memory.md R66). -/
def sentinelCode (v : Nat) : Bits := bitsOf (Nat.log2 v) (v - 2 ^ Nat.log2 v)

/-- `c` is a prefix of `d` or `d` of `c`, equal strings included (00_scope.md R12). -/
def clashes (c d : Bits) : Bool := c.isPrefixOf d || d.isPrefixOf c

/-! ### The code table -/

/-- The code of a symbol, empty when it has none (10_state.md R42). -/
def State.codeOf (s : State) (b : Byte) : Bits := bitsOf (tabGet s.codeLen b).toNat (tabGet s.codeBits b).toNat

/-- The symbols that have a code, ascending (42_container.md R170, R171). -/
def State.codedSymbols (s : State) : List Byte := allSymbols.filter fun b => tabGet s.codeLen b != 0

/-- `INV(c)` (10_state.md R44): the symbol whose code is `c`; the least one where a table that breaks R49 has several
(DEDUCED, log 12). -/
def State.inverse (s : State) (c : Bits) : Option Byte :=
  allSymbols.find? fun b => (tabGet s.codeLen b).toNat == c.length && (tabGet s.codeBits b).toNat == valOf c

/-- The largest of `f` over all symbols, 0 where all are 0 (10_state.md R35). -/
def largest (f : Byte → Nat) : Nat := (allSymbols.map f).foldl max 0

/-- The stored value of a symbol's code (42_container.md R170). -/
def State.storedCode (s : State) (b : Byte) : Nat := sentinel (tabGet s.codeLen b).toNat (tabGet s.codeBits b).toNat

/-! ### The ranges -/

/-- 20_memory.md R70 (a), computed without wrap-around. -/
def State.srcFits (s : State) : Bool := decide (s.srcAddr.toNat + s.srcLen.toNat ≤ Config.memSize)

/-- 20_memory.md R70 (b). -/
def State.dstFits (s : State) : Bool := decide (s.dstAddr.toNat + s.dstCap.toNat ≤ Config.memSize)

/-- An address is in `[SRC_ADDR, SRC_ADDR + SRC_LEN)`. -/
def State.inSrc (s : State) (a : Nat) : Bool :=
  decide (s.srcAddr.toNat ≤ a) && decide (a < s.srcAddr.toNat + s.srcLen.toNat)

/-- An address is in `[DST_ADDR, DST_ADDR + DST_CAP)`. -/
def State.inDst (s : State) (a : Nat) : Bool :=
  decide (s.dstAddr.toNat ≤ a) && decide (a < s.dstAddr.toNat + s.dstCap.toNat)

/-- 20_memory.md R70 (c): the two ranges share a byte; a range of length 0 shares none. -/
def State.rangesOverlap (s : State) : Bool :=
  decide (s.srcLen.toNat ≠ 0) && decide (s.dstCap.toNat ≠ 0) &&
    decide (s.srcAddr.toNat < s.dstAddr.toNat + s.dstCap.toNat) &&
    decide (s.dstAddr.toNat < s.srcAddr.toNat + s.srcLen.toNat)

/-- Whether a command reads the source range (30_encoding.md R85). -/
def Instr.usesSrc : Instr → Bool
  | .nop | .clear | .buildTree | .assignCodes => false
  | .countFreq | .pack | .unpack | .serialize | .deserialize => true

/-- Whether a command writes the destination range (30_encoding.md R85). -/
def Instr.usesDst : Instr → Bool
  | .nop | .clear | .countFreq | .buildTree | .assignCodes | .deserialize => false
  | .pack | .unpack | .serialize => true

/-- The ranges of a command with the operands the registers hold. -/
def State.rangesOf (s : State) (i : Instr) : List Region :=
  (if Instr.usesSrc i then [⟨s.srcAddr.toNat, s.srcLen.toNat, .read⟩] else []) ++
    (if Instr.usesDst i then [⟨s.dstAddr.toNat, s.dstCap.toNat, .write⟩] else [])

/-- The ranges of the command a word selects; a word that selects none has none. -/
def State.rangesOfWord (s : State) (w : Word) : List Region :=
  match decode w with
  | .ok i => s.rangesOf i
  | .error _ => []

/-- The range checks of a command with a destination, (a), (b), (c) in that order (20_memory.md R70); each raises
RANGE(0). -/
def State.rangesOk (s : State) : Bool := s.srcFits && s.dstFits && !s.rangesOverlap

end Sys2Proof.Machine
end

