-- ==== Sys2Proof/Machine/Flags.lean ====
section
/-! DEFINITION. The status flags: the word STATUS reads (10_state.md R25), its write-1-to-clear bits, the interrupt output
(60_exceptions.md R207), and what the acceptance of a command does to them (30_encoding.md R80). There are no other flags
(10_state.md R53). -/

namespace Sys2Proof.Machine

/-- `STATUS.ERR` reads 1 exactly when ERRCODE is not 0 (10_state.md R25). -/
def State.err (s : State) : Bool := s.errCode != 0

/-- A flag at a bit position of a register word. -/
def flagBit (b : Bool) (i : Nat) : Word := if b then BitVec.ofNat 32 (2 ^ i) else 0

/-- The word STATUS reads (10_state.md R25): bits [31:6] are 0. -/
def State.statusWord (s : State) : Word :=
  flagBit s.busy 0 ||| flagBit s.done 1 ||| flagBit s.err 2 ||| flagBit s.dropped 3 ||| flagBit s.treeValid 4 |||
    flagBit s.codesValid 5

/-- A write to STATUS clears DONE and DROPPED where the word has a 1, and nothing else (10_state.md R25). -/
def State.clearStatus (s : State) (v : Word) : State :=
  { s with done := s.done && !v.getLsbD 1, dropped := s.dropped && !v.getLsbD 3 }

/-- The level interrupt output (60_exceptions.md R207). -/
def State.irq (s : State) : Bool := s.ie && s.done

/-- Acceptance of a command word, in one step (30_encoding.md R80). From here until the host reads BUSY = 0 the command's
ranges are guarded and its results unread (70_reset_and_hazards.md R233, R236; DEDUCED, log 22). The number of host
operations that will come before its completion is the next entry of the schedule, 0 when none is left (DESIGN CHOICE,
log 1). -/
def State.accept (s : State) (w : Word) : State :=
  { s with
    cmd := w
    done := false
    dropped := false
    errCode := 0
    errInfo := 0
    busy := true
    unread := true
    guarded := s.rangesOfWord w ++ s.guarded
    holds := s.schedule.headD 0
    schedule := s.schedule.tail }

/-- A register write dropped because a command runs (10_state.md R47). -/
def State.dropWrite (s : State) : State := { s with dropped := true }

end Sys2Proof.Machine
end

