-- ==== Sys2Proof/Machine/BitPack.lean ====
section
/-! DEFINITION. The bit-packing commands PACK and UNPACK (41_bit_pack.md). -/

namespace Sys2Proof.Machine

/-! ### PACK -/

/-- The inner loop of 41_bit_pack.md R140: the first `8 n` pending bits go out as `n` bytes, the first bit of a byte at
bit 7 (20_memory.md R63). -/
def flushLoop (s : State) : Nat → Bits → Sink → Except Raise (Bits × Sink)
  | 0, q, k => .ok (q, k)
  | n + 1, q, k =>
    match emit s k (BitVec.ofNat 8 (valOf (q.take 8))) with
    | .error r => .error r
    | .ok k' => flushLoop s n (q.drop 8) k'

/-- The loop of 41_bit_pack.md R140 over `n` more source bytes from offset `j` on, with the pending bits `q`. While 8 bits
or more are pending a byte goes out, that is one byte for each whole 8 of them. -/
def packLoop (s : State) : Nat → Nat → Bits → Sink → Except Raise (Bits × Sink)
  | 0, _, q, k => .ok (q, k)
  | n + 1, j, q, k =>
    match readSrc s j k.out with
    | .error r => .error r
    | .ok b =>
      if tabGet s.codeLen b = 0 then .error ⟨.uncodedSymbol, BitVec.ofNat 32 j, k.out⟩
      else
        match flushLoop s ((q ++ s.codeOf b).length / 8) (q ++ s.codeOf b) k with
        | .error r => .error r
        | .ok (q', k') => packLoop s n (j + 1) q' k'

/-- The final partial byte, its low bits zero, and the pad length (41_bit_pack.md R140, R142). -/
def packTail (s : State) (q : Bits) (k : Sink) : Except Raise (Sink × Nat) :=
  if q = [] then .ok (k, 0)
  else
    match emit s k (BitVec.ofNat 8 (valOf (q ++ List.replicate (8 - q.length) false))) with
    | .error r => .error r
    | .ok k' => .ok (k', 8 - q.length)

/-- All of PACK after its checks: the filled destination and the pad length, or the error (41_bit_pack.md R140). -/
def packRun (s : State) : Except Raise (Sink × Nat) :=
  match packLoop s s.srcLen.toNat 0 [] s.sink with
  | .error r => .error r
  | .ok (q, k) => packTail s q k

/-- What a successful PACK writes (41_bit_pack.md R140). -/
def setPacked (s : State) (k : Sink) (p : Nat) : State :=
  { s with mem := k.mem, pad := BitVec.ofNat 3 p, outLen := BitVec.ofNat 32 k.out }

/-- PACK (41_bit_pack.md R140 to R142; the order of the checks is 60_exceptions.md R205). -/
def execPack (s : State) : Host.Outcome State Fault Refusal :=
  if s.codesValid then
    if s.rangesOk then
      match packRun s with
      | .error r => .next (s.fail r)
      | .ok (k, p) => .next (setPacked s k p).complete
    else .next (s.fail ⟨.range, 0, 0⟩)
  else .next (s.fail ⟨.sequence, 0, 0⟩)

/-! ### UNPACK -/

/-- The byte that holds data bit `i`: read when its first bit is reached, kept for the other seven (41_bit_pack.md R150). -/
def dataByte (s : State) (i : Nat) (x : Byte) (w : Nat) : Except Raise Byte :=
  if i % 8 = 0 then readSrc s (i / 8) w else .ok x

/-- The loop of 41_bit_pack.md R150 over `n` more data bits from bit `i` on, with the byte at hand `x` and the candidate
`c`; an exact match emits its symbol (R151), and a candidate of MAX_LEN bits without a match is CORRUPT_DATA (R152 (a)). -/
def unpackLoop (s : State) : Nat → Nat → Byte → Bits → Sink → Except Raise (Bits × Sink)
  | 0, _, _, c, k => .ok (c, k)
  | n + 1, i, x, c, k =>
    match dataByte s i x k.out with
    | .error r => .error r
    | .ok y =>
      match s.inverse (c ++ [y.getLsbD (7 - i % 8)]) with
      | some b =>
        match emit s k b with
        | .error r => .error r
        | .ok k' => unpackLoop s n (i + 1) y [] k'
      | none =>
        if s.maxLen.toNat ≤ c.length + 1 then .error ⟨.corruptData, BitVec.ofNat 32 i, k.out⟩
        else unpackLoop s n (i + 1) y (c ++ [y.getLsbD (7 - i % 8)]) k

/-- `N`, the number of data bits (41_bit_pack.md R153). -/
def State.dataBits (s : State) : Nat := 8 * s.srcLen.toNat - s.pad.toNat

/-- All of UNPACK after its state and range checks: the filled destination, or the error (41_bit_pack.md R150; R152 (b)
and (c)). -/
def unpackRun (s : State) : Except Raise Sink :=
  if 8 * s.srcLen.toNat < s.pad.toNat then .error ⟨.corruptData, s.pad.setWidth 32, 0⟩
  else
    match unpackLoop s s.dataBits 0 0 [] s.sink with
    | .error r => .error r
    | .ok (c, k) => if c = [] then .ok k else .error ⟨.corruptData, BitVec.ofNat 32 s.dataBits, k.out⟩

/-- What a successful UNPACK writes (41_bit_pack.md R150). -/
def setUnpacked (s : State) (k : Sink) : State := { s with mem := k.mem, outLen := BitVec.ofNat 32 k.out }

/-- UNPACK (41_bit_pack.md R150 to R153). -/
def execUnpack (s : State) : Host.Outcome State Fault Refusal :=
  if s.codesValid then
    if s.rangesOk then
      match unpackRun s with
      | .error r => .next (s.fail r)
      | .ok k => .next (setUnpacked s k).complete
    else .next (s.fail ⟨.range, 0, 0⟩)
  else .next (s.fail ⟨.sequence, 0, 0⟩)

end Sys2Proof.Machine
end

