-- ==== Sys2Proof/Machine/Container.lean ====
section
/-! DEFINITION. The container commands SERIALIZE and DESERIALIZE (42_container.md); the layout is 20_memory.md R66. -/

namespace Sys2Proof.Machine

/-! ### SERIALIZE -/

/-- `size` of 42_container.md R170, computed without wrap-around. -/
def State.containerSize (s : State) : Nat := 5 + 9 * s.symCount.toNat + s.srcLen.toNat

/-- The entries of the container: the symbols with a code, ascending (42_container.md R171); `SYM_COUNT` of them
(R170: k runs over 0..n-1; DEDUCED, log 13). -/
def State.entries (s : State) : List Byte := s.codedSymbols.take s.symCount.toNat

/-- The container up to and including the pad byte (20_memory.md R66). -/
def State.header (s : State) : List Byte :=
  bytesBE 4 s.symCount.toNat ++ s.entries ++ s.entries.flatMap (fun b => bytesBE 8 (s.storedCode b)) ++
    [s.pad.setWidth 8]

/-- `put` of each byte of a list (42_container.md R170). -/
def putAll (s : State) : List Byte → Sink → Except Raise Sink
  | [], k => .ok k
  | v :: vs, k =>
    match put s k v with
    | .error r => .error r
    | .ok k' => putAll s vs k'

/-- The payload copied, `n` more bytes from source offset `j` on, each read just before it is written
(42_container.md R170). -/
def copyLoop (s : State) : Nat → Nat → Sink → Except Raise Sink
  | 0, _, k => .ok k
  | n + 1, j, k =>
    match readSrc s j k.out with
    | .error r => .error r
    | .ok v =>
      match put s k v with
      | .error r => .error r
      | .ok k' => copyLoop s n (j + 1) k'

/-- All of SERIALIZE after its state and range checks: CAPACITY comes before any memory access (42_container.md R170). -/
def serializeRun (s : State) : Except Raise Sink :=
  if s.dstCap.toNat < s.containerSize then .error ⟨.capacity, s.dstCap, 0⟩
  else
    match putAll s s.header s.sink with
    | .error r => .error r
    | .ok k => copyLoop s s.srcLen.toNat 0 k

/-- What a successful SERIALIZE writes (42_container.md R170). -/
def setSerialized (s : State) (k : Sink) : State :=
  { s with mem := k.mem, outLen := BitVec.ofNat 32 s.containerSize }

/-- SERIALIZE (42_container.md R170, R171). -/
def execSerialize (s : State) : Host.Outcome State Fault Refusal :=
  if s.codesValid then
    if s.rangesOk then
      match serializeRun s with
      | .error r => .next (s.fail r)
      | .ok k => .next (setSerialized s k).complete
    else .next (s.fail ⟨.range, 0, 0⟩)
  else .next (s.fail ⟨.sequence, 0, 0⟩)

/-! ### DESERIALIZE -/

/-- `n` source bytes from offset `o` on, read in ascending order (42_container.md R180, 20_memory.md R71). -/
def readSpan (s : State) : Nat → Nat → Except Raise (List Byte)
  | 0, _ => .ok []
  | n + 1, o =>
    match readSrc s o 0 with
    | .error r => .error r
    | .ok b =>
      match readSpan s n (o + 1) with
      | .error r => .error r
      | .ok bs => .ok (b :: bs)

/-- The `n` stored code values of a byte list, 8 bytes each (42_container.md R180). -/
def storedValues : Nat → List Byte → List Nat
  | 0, _ => []
  | n + 1, l => valBE (l.take 8) :: storedValues n (l.drop 8)

/-- Check 5 of 42_container.md R181: the least index, counted from `k`, of a symbol that an earlier one equals. -/
def firstRepeat : List Byte → Nat → List Byte → Option Nat
  | _, _, [] => none
  | seen, k, b :: bs => if seen.contains b then some k else firstRepeat (b :: seen) (k + 1) bs

/-- Check 6: the least index of a stored value below 2. -/
def firstShort : Nat → List Nat → Option Nat
  | _, [] => none
  | k, v :: vs => if v < 2 then some k else firstShort (k + 1) vs

/-- Check 7: the least index of a code that an earlier one clashes with. -/
def firstClash : List Bits → Nat → List Bits → Option Nat
  | _, _, [] => none
  | seen, k, c :: cs => if seen.any (clashes c) then some k else firstClash (c :: seen) (k + 1) cs

/-- The entries of a container read from memory (42_container.md R180): symbols, stored values, pad byte. -/
def containerSymbols (n : Nat) (t : List Byte) : List Byte := t.take n

def containerValues (n : Nat) (t : List Byte) : List Nat := storedValues n (t.drop n)

def containerPad (n : Nat) (t : List Byte) : Byte := t.getD (9 * n) 0

/-- Checks 5 to 9 of 42_container.md R181, in that order, on the bytes `t` from offset 4 on of a container of `len` bytes
and `n` entries: the ERRINFO of the first that fails. -/
def tableFault (len n : Nat) (t : List Byte) : Option Nat :=
  match firstRepeat [] 0 (containerSymbols n t) with
  | some k => some (4 + k)
  | none =>
    match firstShort 0 (containerValues n t) with
    | some k => some (4 + n + 8 * k)
    | none =>
      match firstClash [] 0 ((containerValues n t).map sentinelCode) with
      | some k => some (4 + n + 8 * k)
      | none =>
        if 7 < (containerPad n t).toNat then some (4 + 9 * n)
        else if len = 5 + 9 * n ∧ containerPad n t ≠ 0 then some (4 + 9 * n)
        else none

/-- A malformed container: nothing has been written (42_container.md R181). -/
def malformed (info : Nat) : Raise := ⟨.malformedContainer, BitVec.ofNat 32 info, 0⟩

/-- Checks 2 to 9 with the reads between them (42_container.md R180, R181) of a container of at least 4 bytes: the entry
count and the bytes from offset 4 to the pad byte. -/
def parseTable (s : State) (n : Nat) : Except Raise (Nat × List Byte) :=
  if n = 0 then .error (malformed 0)
  else if Config.alphabet < n then .error (malformed 0)
  else if s.srcLen.toNat < 5 + 9 * n then .error (malformed s.srcLen.toNat)
  else
    match readSpan s (1 + 9 * n) 4 with
    | .error r => .error r
    | .ok t =>
      match tableFault s.srcLen.toNat n t with
      | some e => .error (malformed e)
      | none => .ok (n, t)

/-- All of DESERIALIZE's reading and checking (42_container.md R180, R181). -/
def parseContainer (s : State) : Except Raise (Nat × List Byte) :=
  if s.srcFits then
    if s.srcLen.toNat < 4 then .error (malformed 0)
    else
      match readSpan s 4 0 with
      | .error r => .error r
      | .ok h => parseTable s (valBE h)
  else .error ⟨.range, 0, 0⟩

/-- The length and the bits of the code a stored value holds (42_container.md R180). -/
def loadLens (t : Vector (BitVec 6) 256) : List (Byte × Nat) → Vector (BitVec 6) 256
  | [] => t
  | (b, v) :: r => loadLens (tabSet t b (BitVec.ofNat 6 (Nat.log2 v))) r

def loadBits (t : Vector (BitVec 63) 256) : List (Byte × Nat) → Vector (BitVec 63) 256
  | [] => t
  | (b, v) :: r => loadBits (tabSet t b (BitVec.ofNat 63 (v - 2 ^ Nat.log2 v))) r

/-- `SRC_ADDR + 5 + 9n` (42_container.md R180), the address of the payload. -/
def State.payloadStart (s : State) (n : Nat) : Nat := s.srcAddr.toNat + 5 + 9 * n

/-- PAYLOAD_ADDR. An empty payload of a container that ends exactly at 2^32 starts at 2^32, which 32 bits cannot hold; the
spec states no value there, so it is a free one, of SRC_ADDR alone, for a result is a function of what the command reads
(00_scope.md R17; DESIGN CHOICE, log 17). -/
def State.payloadAddrFor (s : State) (n : Nat) : Word :=
  if s.payloadStart n < Config.memSize then BitVec.ofNat 32 (s.payloadStart n) else Config.payloadAddrAtTop s.srcAddr

/-- What a successful DESERIALIZE writes (42_container.md R180). -/
def setContainer (s : State) (n : Nat) (t : List Byte) : State :=
  { s with
    codeLen := loadLens (Vector.replicate 256 0) ((containerSymbols n t).zip (containerValues n t))
    codeBits := loadBits (Vector.replicate 256 0) ((containerSymbols n t).zip (containerValues n t))
    symCount := BitVec.ofNat 9 n
    maxLen := BitVec.ofNat 6 (((containerValues n t).map Nat.log2).foldl max 0)
    codesValid := true
    pad := (containerPad n t).setWidth 3
    payloadAddr := s.payloadAddrFor n
    payloadLen := BitVec.ofNat 32 (s.srcLen.toNat - 5 - 9 * n) }

/-- What any error of DESERIALIZE clears (42_container.md R182, D38). The stored codes, unreadable then, stay (DESIGN CHOICE,
log 5). -/
def dropCodes (s : State) : State :=
  { s with codesValid := false, symCount := 0, maxLen := 0, payloadAddr := 0, payloadLen := 0 }

/-- DESERIALIZE (42_container.md R180 to R182). -/
def execDeserialize (s : State) : Host.Outcome State Fault Refusal :=
  match parseContainer s with
  | .error r => .next ((dropCodes s).fail r)
  | .ok (n, t) => .next (setContainer s n t).complete

end Sys2Proof.Machine
end

