-- ==== Sys2Proof/Machine/TableBuild.lean ====
section
/-! DEFINITION. The table-building commands NOP, CLEAR, COUNT_FREQ, BUILD_TREE and ASSIGN_CODES (40_table_build.md). -/

namespace Sys2Proof.Machine

/-! ### NOP and CLEAR -/

/-- NOP (40_table_build.md R100): the command completes. -/
def execNop (s : State) : Host.Outcome State Fault Refusal := .next s.complete

/-- The tables and registers CLEAR writes (40_table_build.md R101). The stored contents of the arena and of the code tables,
left open (93_implementation_defined.md U4) and unreadable then, stay (DESIGN CHOICE, log 5). -/
def clearTables (s : State) : State :=
  { s with
    freq := Vector.replicate 256 0
    treeValid := false
    root := 0
    nodeCount := 0
    codesValid := false
    symCount := 0
    maxLen := 0
    pad := 0
    outLen := 0
    payloadAddr := 0
    payloadLen := 0 }

/-- CLEAR (40_table_build.md R101). -/
def execClear (s : State) : Host.Outcome State Fault Refusal := .next (clearTables s).complete

/-! ### COUNT_FREQ -/

/-- The loop of 40_table_build.md R102 over `n` more bytes from offset `j` on: the table it leaves, and the error that
ended it, if one did. The increments made before an error stay. -/
def countLoop (s : State) : Nat → Nat → Vector Word 256 → Vector Word 256 × Option Raise
  | 0, _, f => (f, none)
  | n + 1, j, f =>
    match readSrc s j 0 with
    | .error r => (f, some r)
    | .ok b =>
      if tabGet f b = BitVec.allOnes 32 then (f, some ⟨.capacity, BitVec.ofNat 32 j, 0⟩)
      else countLoop s n (j + 1) (tabSet f b (tabGet f b + 1))

/-- COUNT_FREQ (40_table_build.md R102). -/
def execCountFreq (s : State) : Host.Outcome State Fault Refusal :=
  if s.srcFits then
    match countLoop s s.srcLen.toNat 0 s.freq with
    | (f, none) => .next { s with freq := f }.complete
    | (f, some r) => .next ({ s with freq := f }.fail r)
  else .next (s.fail ⟨.range, 0, 0⟩)

/-! ### BUILD_TREE -/

/-- `S` of 40_table_build.md R110: the symbols with a count, ascending. -/
def State.presentSymbols (s : State) : List Byte := allSymbols.filter fun b => tabGet s.freq b != 0

/-- The leaves of the symbols present, their counts widened to 40 bits (R110). -/
def State.leaves (s : State) : List Node :=
  s.presentSymbols.map fun b => .leaf b ((tabGet s.freq b).setWidth 40)

/-- Nodes written to consecutive arena entries from `k` on. -/
def writeNodes : Vector Node 511 → Nat → List Node → Vector Node 511
  | t, _, [] => t
  | t, k, x :: xs => writeNodes (nodeSet t k x) (k + 1) xs

/-- The key of node `i` is less than that of node `j`: `(freq, rank, index)`, lexicographic (40_table_build.md R111). -/
def keyLess (t : Vector Node 511) (i j : Nat) : Bool :=
  decide ((nodeAt t i).freq.toNat < (nodeAt t j).freq.toNat) ||
    (decide ((nodeAt t i).freq = (nodeAt t j).freq) &&
      (decide ((nodeAt t i).rank < (nodeAt t j).rank) ||
        (decide ((nodeAt t i).rank = (nodeAt t j).rank) && decide (i < j))))

/-- The node of least key among `m` and a list. -/
def leastOf (t : Vector Node 511) : Nat → List Nat → Nat
  | m, [] => m
  | m, x :: xs => leastOf t (if keyLess t x m then x else m) xs

/-- The active node of least key, and the active nodes without it; `none` where none is active. -/
def takeLeast (t : Vector Node 511) : List Nat → Option (Nat × List Nat)
  | [] => none
  | x :: xs => some (leastOf t x xs, (x :: xs).erase (leastOf t x xs))

/-- The internal node over two selected nodes: the first selected is the left child (40_table_build.md R112). -/
def mergedNode (t : Vector Node 511) (a b : Nat) : Node :=
  .internal ((nodeAt t a).freq + (nodeAt t b).freq) (BitVec.ofNat 9 a) (BitVec.ofNat 9 b)

/-- The loop `while |A| > 1` of 40_table_build.md R110, at most `n` merges: arena, active nodes, next free index. -/
def mergeLoop : Nat → Vector Node 511 → List Nat → Nat → Vector Node 511 × List Nat × Nat
  | 0, t, act, nx => (t, act, nx)
  | n + 1, t, act, nx =>
    match takeLeast t act with
    | none => (t, act, nx)
    | some (a, act1) =>
      match takeLeast t act1 with
      | none => (t, act, nx)
      | some (b, act2) => mergeLoop n (nodeSet t nx (mergedNode t a b)) (act2 ++ [nx]) (nx + 1)

/-- What the loop of 40_table_build.md R110 leaves: arena, active nodes, next free index. Each merge takes one node away,
so as many rounds as there are leaves are enough. Entries at or above NODE_COUNT, left open (10_state.md R40,
93_implementation_defined.md U4), keep what stood there before (DESIGN CHOICE, log 5). -/
def State.merged (s : State) : Vector Node 511 × List Nat × Nat :=
  mergeLoop s.leaves.length (writeNodes s.node 0 s.leaves) (List.range s.leaves.length) s.leaves.length

/-- The state with no tree: EMPTY_INPUT clears it (40_table_build.md R110, D24). The arena's stored contents stay, unreadable
(DESIGN CHOICE, log 5). -/
def dropTree (s : State) : State := { s with treeValid := false, root := 0, nodeCount := 0 }

/-- The state with the tree that the loop left (R110). -/
def setTree (s : State) (t : Vector Node 511) (act : List Nat) (nx : Nat) : State :=
  { s with node := t, root := BitVec.ofNat 9 (act.headD 0), nodeCount := BitVec.ofNat 10 nx, treeValid := true }

/-- BUILD_TREE (40_table_build.md R110 to R113). -/
def execBuildTree (s : State) : Host.Outcome State Fault Refusal :=
  if s.leaves.length = 0 then .next ((dropTree s).fail ⟨.emptyInput, 0, 0⟩)
  else
    match s.merged with
    | (t, act, nx) => .next (setTree s t act nx).complete

/-! ### ASSIGN_CODES -/

/-- The map `P` of 40_table_build.md R120 with no symbol in it. -/
def noCodes : Vector (Option Bits) 256 := Vector.replicate 256 none

/-- `walk(i, c)` of 40_table_build.md R120, to a depth of at most the first argument: a child's index is below its
parent's (R114), so the arena's size is enough (DEDUCED, log 11). -/
def walk (t : Vector Node 511) : Nat → Nat → Bits → Vector (Option Bits) 256 → Vector (Option Bits) 256
  | 0, _, _, p => p
  | n + 1, i, c, p =>
    match nodeAt t i with
    | .leaf b _ => tabSet p b (some c)
    | .internal _ l r => walk t n r.toNat (c ++ [true]) (walk t n l.toNat (c ++ [false]) p)

/-- `P` of 40_table_build.md R120: a leaf as root gets the code `0` (R121). -/
def State.assigned (s : State) : Vector (Option Bits) 256 :=
  match nodeAt s.node s.root.toNat with
  | .leaf b _ => tabSet noCodes b (some [false])
  | .internal _ _ _ => walk s.node Config.maxNodes s.root.toNat [] noCodes

/-- The code `P` gives a symbol, empty where it gives none. -/
def codeIn (p : Vector (Option Bits) 256) (b : Byte) : Bits := (tabGet p b).getD []

/-- The symbols `P` gives a code longer than 63 bits, ascending (40_table_build.md R123). -/
def tooLong (p : Vector (Option Bits) 256) : List Byte :=
  allSymbols.filter fun b => decide (Config.maxCodeLen < (codeIn p b).length)

/-- The state with the code table `P`, the tree consumed (40_table_build.md R120, 10_state.md R50). The arena's stored contents,
left open then (R40) and unreadable, stay (DESIGN CHOICE, log 5). -/
def setCodes (s : State) (p : Vector (Option Bits) 256) : State :=
  { s with
    codeLen := tabulate fun b => BitVec.ofNat 6 (codeIn p b).length
    codeBits := tabulate fun b => BitVec.ofNat 63 (valOf (codeIn p b))
    symCount := BitVec.ofNat 9 (allSymbols.countP fun b => (tabGet p b).isSome)
    maxLen := BitVec.ofNat 6 (largest fun b => (codeIn p b).length)
    codesValid := true
    treeValid := false
    root := 0
    nodeCount := 0 }

/-- ASSIGN_CODES (40_table_build.md R120, R121, R123). -/
def execAssignCodes (s : State) : Host.Outcome State Fault Refusal :=
  if s.treeValid then
    match tooLong s.assigned with
    | b :: _ => .next (s.fail ⟨.unassignableCode, b.setWidth 32, 0⟩)
    | [] => .next (setCodes s s.assigned).complete
  else .next (s.fail ⟨.sequence, 0, 0⟩)

end Sys2Proof.Machine
end

