-- ==== Sys2Proof/Machine/Window.lean ====
section
/-! DEFINITION. The register window (10_state.md section 2 to 6): which register stands at an offset (R52), what a host read
returns (R22 to R45, R48) and what a host write does (R23 to R47). -/

namespace Sys2Proof.Machine

/-- The symbol of the 4-byte table entry at `off` in the window that starts at `base`. -/
def entryOf (base off : Nat) : Byte := BitVec.ofNat 8 ((off - base) / 4)

/-- The word of an arena node at `off` (10_state.md R43). -/
def nodeWordOf (off : Nat) : WindowReg :=
  if off % 16 = 0 then .nfreqLo ((off - 0x2000) / 16)
  else if off % 16 = 4 then .nfreqHi ((off - 0x2000) / 16)
  else if off % 16 = 8 then .ninfo ((off - 0x2000) / 16)
  else .nchild ((off - 0x2000) / 16)

/-- What stands at a word offset of the window (10_state.md R52). -/
def windowReg (off : Nat) : WindowReg :=
  match off with
  | 0x000 => .id
  | 0x004 => .ctrl
  | 0x008 => .cmd
  | 0x00C => .status
  | 0x010 => .errCode
  | 0x014 => .errInfo
  | 0x018 => .srcAddr
  | 0x01C => .srcLen
  | 0x020 => .dstAddr
  | 0x024 => .dstCap
  | 0x028 => .outLen
  | 0x02C => .pad
  | 0x030 => .symCount
  | 0x034 => .maxLen
  | 0x038 => .root
  | 0x03C => .nodeCount
  | 0x040 => .payloadAddr
  | 0x044 => .payloadLen
  | off =>
    if off < 0x400 then .unmapped
    else if off < 0x800 then .freq (entryOf 0x400 off)
    else if off < 0xC00 then .codeLen (entryOf 0x800 off)
    else if off < 0x1000 then .codeLo (entryOf 0xC00 off)
    else if off < 0x1400 then .codeHi (entryOf 0x1000 off)
    else if off < 0x2000 then .unmapped
    else if off < 0x3FF0 then nodeWordOf off
    else .unmapped

/-- The offset of a register (10_state.md R52); an unmapped place has the first unnamed offset. -/
def offsetOf : WindowReg → Nat
  | .id => 0x000
  | .ctrl => 0x004
  | .cmd => 0x008
  | .status => 0x00C
  | .errCode => 0x010
  | .errInfo => 0x014
  | .srcAddr => 0x018
  | .srcLen => 0x01C
  | .dstAddr => 0x020
  | .dstCap => 0x024
  | .outLen => 0x028
  | .pad => 0x02C
  | .symCount => 0x030
  | .maxLen => 0x034
  | .root => 0x038
  | .nodeCount => 0x03C
  | .payloadAddr => 0x040
  | .payloadLen => 0x044
  | .freq s => 0x400 + 4 * s.toNat
  | .codeLen s => 0x800 + 4 * s.toNat
  | .codeLo s => 0xC00 + 4 * s.toNat
  | .codeHi s => 0x1000 + 4 * s.toNat
  | .nfreqLo i => 0x2000 + 16 * i
  | .nfreqHi i => 0x2000 + 16 * i + 4
  | .ninfo i => 0x2000 + 16 * i + 8
  | .nchild i => 0x2000 + 16 * i + 12
  | .unmapped => 0x048

/-- The arena window shows node `i` only while there is a tree and the entry is in use (10_state.md R43). -/
def State.nodeShown (s : State) (i : Nat) : Bool := s.treeValid && decide (i < s.nodeCount.toNat)

/-- The word NINFO of a node (10_state.md R43): bit 31 the kind, bits [7:0] the symbol of a leaf. -/
def ninfoWord : Node → Word
  | .leaf b _ => b.setWidth 32
  | .internal _ _ _ => 0x80000000

/-- The word NCHILD of a node (10_state.md R43): bits [8:0] left, bits [24:16] right, 0 for a leaf. -/
def nchildWord : Node → Word
  | .leaf _ _ => 0
  | .internal _ l r => l.setWidth 32 ||| r.setWidth 32 <<< 16

/-- What a register reads while no command runs (10_state.md R22 to R45). -/
def State.regValue (s : State) : WindowReg → Word
  | .id => Config.idValue
  | .ctrl => flagBit s.ie 0
  | .cmd => s.cmd
  | .status => s.statusWord
  | .errCode => s.errCode.setWidth 32
  | .errInfo => s.errInfo
  | .srcAddr => s.srcAddr
  | .srcLen => s.srcLen
  | .dstAddr => s.dstAddr
  | .dstCap => s.dstCap
  | .outLen => s.outLen
  | .pad => s.pad.setWidth 32
  | .symCount => s.symCount.setWidth 32
  | .maxLen => s.maxLen.setWidth 32
  | .root => s.root.setWidth 32
  | .nodeCount => s.nodeCount.setWidth 32
  | .payloadAddr => s.payloadAddr
  | .payloadLen => s.payloadLen
  | .freq b => tabGet s.freq b
  | .codeLen b => if s.codesValid then (tabGet s.codeLen b).setWidth 32 else 0
  | .codeLo b => if s.codesValid then (tabGet s.codeBits b).extractLsb' 0 32 else 0
  | .codeHi b => if s.codesValid then ((tabGet s.codeBits b).extractLsb' 32 31).setWidth 32 else 0
  | .nfreqLo i => if s.nodeShown i then (nodeAt s.node i).freq.extractLsb' 0 32 else 0
  | .nfreqHi i => if s.nodeShown i then ((nodeAt s.node i).freq.extractLsb' 32 8).setWidth 32 else 0
  | .ninfo i => if s.nodeShown i then ninfoWord (nodeAt s.node i) else 0
  | .nchild i => if s.nodeShown i then nchildWord (nodeAt s.node i) else 0
  | .unmapped => 0

/-- The registers whose reads are exact while a command runs (10_state.md R48). -/
def WindowReg.exactWhileBusy : WindowReg → Bool
  | .id | .ctrl | .cmd | .status => true
  | _ => false

/-- The registers and tables a command's rule may write, beside STATUS (30_encoding.md R80, R85): what the host may read only
after it has read BUSY = 0 (20_memory.md R72 (b), 70_reset_and_hazards.md R236; DEDUCED, log 22). -/
def WindowReg.holdsResult : WindowReg → Bool
  | .id | .ctrl | .cmd | .status | .srcAddr | .srcLen | .dstAddr | .dstCap | .unmapped => false
  | _ => true

/-- A host read returns the register's value: always for four registers (10_state.md R48), otherwise while no command runs,
and for a result only when the host has read BUSY = 0 since the last acceptance (R48, "After `BUSY` reads 0"; 20_memory.md
R72 (b); 70_reset_and_hazards.md R236; DEDUCED, log 22). -/
def State.readsExactly (s : State) (r : WindowReg) : Bool :=
  r.exactWhileBusy || (!s.busy && !(s.unread && r.holdsResult))

/-- A value the host's read of the window or of memory returns, put where the host finds it. -/
def State.hostGets (s : State) (v : Word) : State := { s with hostRead := v }

/-- What a read of STATUS settles: if it shows BUSY = 0, results are defined from here on, and the host's duty ends
(20_memory.md R72 (b), 70_reset_and_hazards.md R233, R236). -/
def State.seeStatus (s : State) : State := if s.busy then s else { s with unread := false, guarded := [] }

/-- A host read that returns the register's value; a read of STATUS may show BUSY = 0. -/
def readExact (s : State) (r : WindowReg) : State :=
  match r with
  | .status => s.seeStatus.hostGets s.statusWord
  | r => s.hostGets (s.regValue r)

/-- A host read: the register's value, or a free value, one draw per read, where the value is open
(DESIGN CHOICE, log 6, log 8). -/
def readWindow (s : State) (r : WindowReg) : State :=
  if s.readsExactly r then readExact s r
  else { s with hostRead := Config.freeWord s.draws, draws := s.draws + 1 }

/-- A host write to a register while no command runs (10_state.md R23 to R45): read-only registers and unmapped offsets
ignore it; a write to CMD is the acceptance of a command (R24). -/
def writeIdle (s : State) (r : WindowReg) (v : Word) : State :=
  match r with
  | .ctrl => { s with ie := v.getLsbD 0 }
  | .cmd => s.accept v
  | .status => s.clearStatus v
  | .srcAddr => { s with srcAddr := v }
  | .srcLen => { s with srcLen := v }
  | .dstAddr => { s with dstAddr := v }
  | .dstCap => { s with dstCap := v }
  | .pad => { s with pad := v.setWidth 3 }
  | .freq b => { s with freq := tabSet s.freq b v }
  | _ => s

/-- A host write while a command runs (10_state.md R47): CTRL and STATUS are written, read-only registers and unmapped
offsets ignore it, every other write is dropped. -/
def writeBusy (s : State) (r : WindowReg) (v : Word) : State :=
  match r with
  | .ctrl => { s with ie := v.getLsbD 0 }
  | .status => s.clearStatus v
  | .cmd | .srcAddr | .srcLen | .dstAddr | .dstCap | .pad | .freq _ => s.dropWrite
  | _ => s

/-- A host write to the register window. -/
def writeWindow (s : State) (r : WindowReg) (v : Word) : State := if s.busy then writeBusy s r v else writeIdle s r v

end Sys2Proof.Machine
end

