-- ==== Sys2Proof/Machine/HostPort.lean ====
section
/-! DEFINITION. The host's side of a step: register accesses and their form (10_state.md R46), host memory bytes
(20_memory.md R61), the duties until the host has read BUSY = 0 (70_reset_and_hazards.md R233), and the reset event (R230, R231). -/

namespace Sys2Proof.Machine

/-! ### The form of a register access -/

/-- A whole, aligned 32-bit word (10_state.md R46). -/
def accessFormOk (off bytes : Nat) : Bool := decide (bytes = 4) && decide (off % 4 = 0)

/-- An access of the right form inside the window goes on; any other is refused by name (10_state.md R46, R60). -/
def guardAccess (off bytes : Nat) (t : State) : Host.Outcome State Fault Refusal :=
  if accessFormOk off bytes then
    if off < Config.windowSize then .next t else .refused .outsideWindow
  else .refused .registerAccessForm

/-! ### The ranges of commands whose end the host has not seen -/

/-- The host may write a byte of host memory: none of a guarded range (70_reset_and_hazards.md R233; DESIGN CHOICE, log 9). -/
def State.hostMayWrite (s : State) (a : Nat) : Bool := !s.guards a .read && !s.guards a .write

/-- A host read of one byte of memory: in a guarded destination range it is a free value, for the host "must not rely on
what it reads" there (70_reset_and_hazards.md R233; DESIGN CHOICE, log 9). -/
def readHostMem (s : State) (a : Nat) : State :=
  if s.guards a .write then
    { s with hostRead := (Config.freeByte s.draws).setWidth 32, draws := s.draws + 1 }
  else s.hostGets ((Mem.read s.mem a).setWidth 32)

/-- A host write of one byte of memory. -/
def writeHostMem (s : State) (a : Nat) (v : Byte) : State := { s with mem := Mem.write s.mem a v }

/-! ### Reset -/

/-- A command runs that writes the destination range. -/
def State.dstInUse (s : State) : Bool :=
  s.busy && (match decode s.cmd with
    | .ok i => Instr.usesDst i
    | .error _ => false)

/-- The memory after the reset event: untouched (70_reset_and_hazards.md R230), but for the destination range of a command
it abandons, which becomes a draw per byte (R231; DEDUCED, log 10). -/
def afterAbandon (s : State) : State := if s.dstInUse then s.scrambleDst else s

/-- The reset event (70_reset_and_hazards.md R230, R231): every register and table takes its value of 10_state.md R51; host
memory, the platform and the host's own fields stay; nothing is unread or guarded then (DEDUCED, log 22). -/
def resetEvent (s : State) : State :=
  { State.reset with
    mem := (afterAbandon s).mem
    draws := (afterAbandon s).draws
    denied := s.denied
    hostOps := s.hostOps
    schedule := s.schedule
    hostRead := s.hostRead }

/-! ### One host operation -/

/-- The host's oldest operation is taken from its queue; while a command runs, one of the steps the host has before the
completion is used up (70_reset_and_hazards.md R242; DESIGN CHOICE, log 1). -/
def State.popHost (s : State) (rest : List HostOp) : State := { s with hostOps := rest, holds := s.holds - 1 }

/-- `wait` (30_encoding.md R87): one read of STATUS, repeated until BUSY reads 0 (DESIGN CHOICE, log 21). -/
def waitStep (s : State) (rest : List HostOp) : State :=
  if s.busy then { s with hostRead := s.statusWord, holds := s.holds - 1 }
  else (s.popHost rest).seeStatus.hostGets s.statusWord

/-- One bus operation of the host, the rest of its queue being `rest`. -/
def hostStep (s : State) (op : HostOp) (rest : List HostOp) : Host.Outcome State Fault Refusal :=
  match op with
  | .readReg off bytes => guardAccess off bytes (readWindow (s.popHost rest) (windowReg off))
  | .writeReg off bytes v => guardAccess off bytes (writeWindow (s.popHost rest) (windowReg off) v)
  | .waitIdle => .next (waitStep s rest)
  | .readMem a => if a < Config.memSize then .next (readHostMem (s.popHost rest) a) else .fault (.noSuchAddress a)
  | .writeMem a v =>
    if a < Config.memSize then
      if s.hostMayWrite a then .next (writeHostMem (s.popHost rest) a v) else .refused .hostDutyBroken
    else .fault (.noSuchAddress a)
  | .resetBlock => .next (resetEvent (s.popHost rest))

/-! ### The block's turn -/

/-- The block completes the accepted command now: a command runs, and the host has no step left before the completion
(20_memory.md R72, 70_reset_and_hazards.md R241, R242; DESIGN CHOICE, log 1). -/
def State.blockTurn (s : State) : Bool := s.busy && (decide (s.holds = 0) || s.hostOps.isEmpty)

/-- A word that selects no command completes with ILLEGAL_COMMAND(w) (30_encoding.md R82, R83). -/
def illegalCommand (s : State) : State := s.fail ⟨.illegalCommand, s.cmd, 0⟩

/-- The host's step: its oldest operation, or nothing where it has none; the idle block holds its state
(60_exceptions.md R215). -/
def hostTurn (s : State) : Host.Outcome State Fault Refusal :=
  match s.hostOps with
  | [] => .next s
  | op :: rest => hostStep s op rest

/-- The state in which the command word `w` has just been accepted and the block moves next. -/
def acceptedNow (s : State) (w : Word) : State := { s.accept w with holds := 0, schedule := s.schedule }

end Sys2Proof.Machine
end

