-- ==== Sys2Proof/Machine/Step.lean ====
section
/-! DEFINITION. One step of the machine: the block's completion of the accepted command, or one bus operation of the host
(10_state.md R20, 20_memory.md R72). -/

namespace Sys2Proof.Machine

/-- One step. On its turn the block decodes the accepted word and runs the command it selects (30_encoding.md R80 to R83);
otherwise the host moves. -/
def step (s : State) : Host.Outcome State Fault Refusal :=
  if s.blockTurn then
    match decode s.cmd with
    | .ok i => exec i s
    | .error _ => .next (illegalCommand s)
  else hostTurn s

/-- `s` with the command word of `nbits` bits `w` just accepted: this block fetches nothing, a command arrives as the
host's write to `CMD` (20_memory.md R75), whose acceptance (30_encoding.md R80) this stands for (DESIGN CHOICE, log 2). -/
def State.withFetchWord (s : State) (nbits w : Nat) : State := acceptedNow s (tableWord nbits w)

end Sys2Proof.Machine
end

