-- ==== Sys2Proof/Machine/HostNotation.lean ====
section
/-! DEFINITION. The host's assembly notation (30_encoding.md R86, R87): each line as the list of bus operations it stands
for. A host program is the joined lists of its lines, put into the queue `hostOps` (DESIGN CHOICE, log 2). -/

namespace Sys2Proof.Machine

/-- `wr NAME, v` (30_encoding.md R86). -/
def wr (r : WindowReg) (v : Word) : List HostOp := [.writeReg (offsetOf r) 4 v]

/-- `rd NAME` (30_encoding.md R86). -/
def rd (r : WindowReg) : List HostOp := [.readReg (offsetOf r) 4]

/-- `mem ADDR: b0 b1 …` (30_encoding.md R86). -/
def memLine : Nat → List Byte → List HostOp
  | _, [] => []
  | a, b :: bs => .writeMem a b :: memLine (a + 1) bs

/-- `cmd OP` (30_encoding.md R87). -/
def cmdLine (i : Instr) : List HostOp := wr .cmd (encode i)

/-- `wait` (30_encoding.md R87). -/
def waitLine : List HostOp := [.waitIdle]

/-- `run OP` (30_encoding.md R87). -/
def runLine (i : Instr) : List HostOp := cmdLine i ++ waitLine

/-- `src a, n` (30_encoding.md R87). -/
def srcLine (a n : Word) : List HostOp := wr .srcAddr a ++ wr .srcLen n

/-- `dst a, n` (30_encoding.md R87). -/
def dstLine (a n : Word) : List HostOp := wr .dstAddr a ++ wr .dstCap n

/-- `ack` (30_encoding.md R87). -/
def ackLine : List HostOp := wr .status 0x0000000A

/-- A host program loaded: the operations wait after those already queued (DESIGN CHOICE, log 2). -/
def State.withProgram (s : State) (ops : List HostOp) : State := { s with hostOps := s.hostOps ++ ops }

end Sys2Proof.Machine
end

