-- ==== Sys2Proof/Safety.lean ====
section
/-! DEFINITION. The terms claims are stated in: the bytes and bits a command works on, when its accesses are admitted, the
invariants of the block (10_state.md R40, R42, R49, R25, R34 to R37, R201), and what a safe state is. -/

namespace Sys2Proof.Machine

/-! ### What a command works on -/

/-- Byte `j` of the source (20_memory.md R70). -/
def State.sourceByte (s : State) (j : Nat) : Byte := Mem.read s.mem (s.srcAddr.toNat + j)

/-- The first `n` source bytes. -/
def State.sourcePart (s : State) (n : Nat) : List Byte := (List.range n).map s.sourceByte

/-- All source bytes. -/
def State.sourceBytes (s : State) : List Byte := s.sourcePart s.srcLen.toNat

/-- The code bits of a symbol string, one code after the other (41_bit_pack.md R141). -/
def State.codeStream (s : State) (l : List Byte) : Bits := l.flatMap s.codeOf

/-- The data bits of the source: its bits, most significant first in each byte, less the padding (41_bit_pack.md R153). -/
def State.dataStream (s : State) : Bits := (s.sourceBytes.flatMap fun b => bitsOf 8 b.toNat).take s.dataBits

/-- The platform admits reading the first `n` source bytes (20_memory.md R62). -/
def State.readsAdmitted (s : State) (n : Nat) : Prop := ∀ j < n, s.admits (s.srcAddr.toNat + j) .read = true

/-- The platform admits writing the first `n` destination bytes. -/
def State.writesAdmitted (s : State) (n : Nat) : Prop := ∀ j < n, s.admits (s.dstAddr.toNat + j) .write = true

/-- How many symbols are in the frequency table (40_table_build.md R110). -/
def State.symbolsPresent (s : State) : Nat := allSymbols.countP fun b => tabGet s.freq b != 0

/-- The conditions under which PACK succeeds (41_bit_pack.md R140): a code table, legal ranges, every source byte admitted and
coded, room for and leave to write the `ceil(T / 8)` bytes. -/
def PackReady (s : State) : Prop :=
  s.codesValid = true ∧ s.rangesOk = true ∧ s.readsAdmitted s.srcLen.toNat ∧
    (∀ j < s.srcLen.toNat, tabGet s.codeLen (s.sourceByte j) ≠ 0) ∧
    ((s.codeStream s.sourceBytes).length + 7) / 8 ≤ s.dstCap.toNat ∧
    s.writesAdmitted (((s.codeStream s.sourceBytes).length + 7) / 8)

/-! ### Containers -/

/-- The bytes of a container with these entries, pad byte and payload (20_memory.md R66). -/
def containerOf (syms : List Byte) (vals : List Nat) (pad : Byte) (payload : List Byte) : List Byte :=
  bytesBE 4 syms.length ++ (syms ++ vals.flatMap (bytesBE 8) ++ [pad]) ++ payload

/-- A container that fails none of the checks 2, 3 and 5 to 9 of 42_container.md R181 (checks 1 and 4 are about a byte
string too short to be one). -/
def ContainerLegal (syms : List Byte) (vals : List Nat) (pad : Byte) (payload : List Byte) : Prop :=
  vals.length = syms.length ∧ 1 ≤ syms.length ∧ syms.length ≤ 256 ∧ syms.Nodup ∧ (∀ v ∈ vals, 2 ≤ v ∧ v < 2 ^ 64) ∧
    (vals.map sentinelCode).Pairwise (fun c d => clashes c d = false) ∧ pad.toNat ≤ 7 ∧ (payload = [] → pad = 0)

/-! ### Paths in the arena -/

/-- The node reached from node `i` by a bit string: left on 0, right on 1 (40_table_build.md R120). -/
def follow (t : Vector Node 511) : Nat → Bits → Option Node
  | i, [] => some (nodeAt t i)
  | i, d :: ds =>
    match nodeAt t i with
    | .leaf _ _ => none
    | .internal _ l r => follow t (if d then r.toNat else l.toNat) ds

/-- `j` is a child of node `k` (10_state.md R40). -/
def isChild (t : Vector Node 511) (k j : Nat) : Bool :=
  match nodeAt t k with
  | .leaf _ _ => false
  | .internal _ l r => l.toNat == j || r.toNat == j

/-- The nodes active before node `k` is made of a tree on `n` leaves: those below `k` that no node made earlier has as a
child (40_table_build.md R110). -/
def activeBefore (t : Vector Node 511) (n k : Nat) : List Nat :=
  (List.range k).filter fun i => !((List.range k).any fun m => decide (n ≤ m) && isChild t m i)

/-- Node `k` of a tree on `n` leaves is the merge of 40_table_build.md R110 to R112: of the nodes then active its left child
has the least key and its right child the least key of the rest, and its frequency is the sum of theirs. -/
def mergeLegal (t : Vector Node 511) (n k : Nat) : Prop :=
  ∃ a ∈ activeBefore t n k, ∃ b ∈ activeBefore t n k, a ≠ b ∧
    nodeAt t k = .internal ((nodeAt t a).freq + (nodeAt t b).freq) (BitVec.ofNat 9 a) (BitVec.ofNat 9 b) ∧
    (∀ i ∈ activeBefore t n k, i ≠ a → keyLess t a i = true) ∧
    (∀ i ∈ activeBefore t n k, i ≠ a → i ≠ b → keyLess t b i = true)

/-! ### Invariants -/

/-- Host memory is in its canonical form (log 4). -/
def MemoryCanonical (s : State) : Prop := Mem.wf s.mem = true

/-- The codes ERRCODE can hold (60_exceptions.md R201). -/
def legalErrCodes : List (BitVec 8) := [0x00, 0x01, 0x02, 0x03, 0x04, 0x10, 0x11, 0x12, 0x13, 0x14, 0x15]

/-- What the status registers keep: while a command runs DONE and ERRCODE are 0 (30_encoding.md R80), ERRCODE holds a code
of 60_exceptions.md R201, ERRINFO is 0 when ERRCODE is (10_state.md R27), OUT_LEN is 0 after an error (R32). -/
def StatusLegal (s : State) : Prop :=
  (s.busy = true → s.done = false ∧ s.errCode = 0) ∧ s.errCode ∈ legalErrCodes ∧ (s.errCode = 0 → s.errInfo = 0) ∧
    (s.errCode ≠ 0 → s.outLen = 0)

/-- While a command runs its results are unread and its ranges guarded, and once the host has read BUSY = 0 nothing is guarded
(20_memory.md R72, 70_reset_and_hazards.md R233, R236; log 22). -/
def DutyLegal (s : State) : Prop :=
  (s.busy = true → s.unread = true ∧ ∀ g ∈ s.rangesOfWord s.cmd, g ∈ s.guarded) ∧ (s.unread = false → s.guarded = [])

/-- ROOT and NODE_COUNT are 0 without a tree, SYM_COUNT and MAX_LEN without a code table (10_state.md R34 to R37). -/
def TableRegsLegal (s : State) : Prop :=
  (s.treeValid = false → s.root = 0 ∧ s.nodeCount = 0) ∧ (s.codesValid = false → s.symCount = 0 ∧ s.maxLen = 0)

/-- Node `i` of an arena is a leaf, or an internal node whose two children are different earlier nodes and whose frequency
is the sum of theirs (10_state.md R40, 40_table_build.md R114). -/
def nodeLegal (t : Vector Node 511) (i : Nat) : Prop :=
  match nodeAt t i with
  | .leaf _ _ => True
  | .internal f l r =>
    l.toNat < i ∧ r.toNat < i ∧ l ≠ r ∧ f.toNat = (nodeAt t l.toNat).freq.toNat + (nodeAt t r.toNat).freq.toNat

/-- The first `m` entries of an arena form one strict binary tree with root `m - 1`: every other node is the child of
exactly one node, and no symbol has two leaves (10_state.md R40). -/
def TreeShape (t : Vector Node 511) (m : Nat) : Prop :=
  1 ≤ m ∧ m ≤ 511 ∧ (∀ i < m, nodeLegal t i) ∧
    (∀ j < m - 1, ∃ k < m, isChild t k j = true ∧ ∀ k' < m, isChild t k' j = true → k' = k) ∧
    (∀ i < m, ∀ j < m, ∀ b f g, nodeAt t i = .leaf b f → nodeAt t j = .leaf b g → i = j)

/-- The arena holds a tree when TREE_VALID says so (10_state.md R25, R40). -/
def TreeLegal (s : State) : Prop :=
  s.treeValid = true → s.root.toNat = s.nodeCount.toNat - 1 ∧ TreeShape s.node s.nodeCount.toNat

/-- No code is a prefix of the code of a different symbol (10_state.md R49 (b)). -/
def PrefixFree (s : State) : Prop :=
  ∀ b c : Byte, b ≠ c → tabGet s.codeLen b ≠ 0 → tabGet s.codeLen c ≠ 0 → ¬s.codeOf b <+: s.codeOf c

/-- The code table: `CODE_BITS[s] < 2^CODE_LEN[s]` always (10_state.md R42), and rule R49 while CODES_VALID is 1. -/
def CodesLegal (s : State) : Prop :=
  (∀ b, (tabGet s.codeBits b).toNat < 2 ^ (tabGet s.codeLen b).toNat) ∧
    (s.codesValid = true →
      PrefixFree s ∧ s.symCount.toNat = s.codedSymbols.length ∧ 1 ≤ s.symCount.toNat ∧
        s.maxLen.toNat = largest fun b => (tabGet s.codeLen b).toNat)

/-- A state every rule of the spec takes for granted: all invariants together. -/
def Safe (s : State) : Prop :=
  MemoryCanonical s ∧ StatusLegal s ∧ DutyLegal s ∧ TableRegsLegal s ∧ TreeLegal s ∧ CodesLegal s

/-! ### Commands that stop -/

/-- `t` is what `raise` leaves of `s` (60_exceptions.md R204, R206) inside a command that had written `w` bytes: the error record
and the completion, and no other register or table changed; no byte of memory outside the destination range, and none at
all when nothing had been written. -/
def RaisedFrom (s : State) (code : BitVec 8) (info : Word) (w : Nat) (t : State) : Prop :=
  t = { s with
        mem := t.mem, draws := t.draws, errCode := code, errInfo := info, outLen := 0, busy := false, done := true } ∧
    (Mem.wf s.mem = true → ∀ a, s.inDst a = false → Mem.read t.mem a = Mem.read s.mem a) ∧
    (w = 0 → t.mem = s.mem ∧ t.draws = s.draws)

/-- PACK, its checks passed, comes to writing byte `o` of its output (41_bit_pack.md R140): the codes of the first `j` source
bytes, all admitted and coded, fill byte `o`, or `j` is the last source byte and byte `o` is filled with padding. -/
def PackReaches (s : State) (o : Nat) : Prop :=
  s.codesValid = true ∧ s.rangesOk = true ∧ ∃ j ≤ s.srcLen.toNat, s.readsAdmitted j ∧
    (∀ i < j, tabGet s.codeLen (s.sourceByte i) ≠ 0) ∧
    (o < (s.codeStream (s.sourcePart j)).length / 8 ∨
      (j = s.srcLen.toNat ∧ o < ((s.codeStream (s.sourcePart j)).length + 7) / 8))

/-- UNPACK, its checks passed, comes to writing byte `o` of its output (41_bit_pack.md R150): the data bits begin with the codes
of `o + 1` symbols or more, in source bytes that are all admitted. -/
def UnpackReaches (s : State) (o : Nat) : Prop :=
  CodesLegal s ∧ s.codesValid = true ∧ s.rangesOk = true ∧ s.pad.toNat ≤ 8 * s.srcLen.toNat ∧ ∃ m : List Byte,
    (∀ b ∈ m, tabGet s.codeLen b ≠ 0) ∧ o < m.length ∧ s.codeStream m <+: s.dataStream ∧
    s.readsAdmitted (((s.codeStream m).length + 7) / 8)

/-- SERIALIZE, its checks passed, comes to writing byte `o` of its output (42_container.md R170): the container fits and has such
a byte, and the payload bytes up to it are admitted. -/
def SerializeReaches (s : State) (o : Nat) : Prop :=
  CodesLegal s ∧ s.codesValid = true ∧ s.rangesOk = true ∧
    5 + 9 * s.symCount.toNat + s.srcLen.toNat ≤ s.dstCap.toNat ∧ o < 5 + 9 * s.symCount.toNat + s.srcLen.toNat ∧
    s.readsAdmitted (o + 1 - (5 + 9 * s.symCount.toNat))

/-! ### Several steps -/

/-- `k` steps, stopping at the first fault or refusal. -/
def runSteps : Nat → State → Host.Outcome State Fault Refusal
  | 0, s => .next s
  | k + 1, s =>
    match step s with
    | .next t => runSteps k t
    | .fault f => .fault f
    | .refused r => .refused r

end Sys2Proof.Machine
end

