-- ==== Sys2Proof/Certificates/Slice0/Obligations.lean ====
section
/-! DEFINITION. The statements about the machine, from the numbered rules of spec/. Free values (`Config.freeByte`,
`Config.freeWord`, `Config.payloadAddrAtTop`) are nowhere given a value. `Mem.wf s.mem` is the canonical form of memory, an
invariant stated below (`StepKeepsMemoryCanonical`). -/

open Sys2Proof Sys2Proof.Machine

/-! ### Decoding -/

/-- 30_encoding.md R81 to R83: the nine command words, and words that are none (95_test_vectors.md V-B16 to V-B18, P5). -/
def Obligations.CommandWordsDecode : Prop :=
  decode 0x00000000 = .ok .nop ∧ decode 0x00000001 = .ok .clear ∧ decode 0x00000002 = .ok .countFreq ∧
    decode 0x00000003 = .ok .buildTree ∧ decode 0x00000004 = .ok .assignCodes ∧ decode 0x00000005 = .ok .pack ∧
    decode 0x00000006 = .ok .unpack ∧ decode 0x00000007 = .ok .serialize ∧ decode 0x00000008 = .ok .deserialize ∧
    decode 0x00000009 = .error .reservedOpcode ∧ decode 0x000000FF = .error .reservedOpcode ∧
    decode 0x00000103 = .error .reservedBits ∧ decode 0x00000109 = .error .reservedBits

/-- 30_encoding.md R81, R84: decoding and encoding agree both ways, and with the match and mask of the opcode table. -/
def Obligations.DecodeEncodeAgree : Prop :=
  ∀ i : Instr, i.wellFormed = true →
    decode (encode i) = .ok i ∧ (∀ w, decode w = .ok i → w = encode i) ∧
      ∀ w, decode w = .ok i ↔ ∃ r ∈ opcodeTable, r.instr = i ∧ w &&& r.mask = r.pattern

/-- 30_encoding.md R82, R83: which words select no command, and by which name each is rejected. -/
def Obligations.IllegalWordsRejected : Prop :=
  ∀ w : Word,
    (decode w = .error .reservedBits ↔ w.extractLsb' 8 24 ≠ 0) ∧
      (decode w = .error .reservedOpcode ↔ w.extractLsb' 8 24 = 0 ∧ 0x09 ≤ (w.extractLsb' 0 8).toNat)

/-! ### Reset -/

/-- 10_state.md R51: the values the spec gives for the state after reset, in `State.reset` and after the reset event alike,
`ID`, `STATUS`, `IRQ` and the unreadable windows among them; a reset while no command runs leaves host memory alone. What the
spec leaves unspecified (log 5) is not mentioned. -/
def Obligations.ResetValues : Prop :=
  (∀ t : State, (t = State.reset ∨ ∃ (s : State) (rest : List HostOp), hostStep s .resetBlock rest = .next t) →
    t.regValue .id = 0x48554631 ∧ t.regValue .ctrl = 0 ∧ t.cmd = 0 ∧ t.statusWord = 0 ∧ t.busy = false ∧ t.done = false ∧
      t.dropped = false ∧ t.treeValid = false ∧ t.codesValid = false ∧ t.errCode = 0 ∧ t.errInfo = 0 ∧ t.srcAddr = 0 ∧
      t.srcLen = 0 ∧ t.dstAddr = 0 ∧ t.dstCap = 0 ∧ t.outLen = 0 ∧ t.pad = 0 ∧ t.symCount = 0 ∧ t.maxLen = 0 ∧
      t.root = 0 ∧ t.nodeCount = 0 ∧ t.payloadAddr = 0 ∧ t.payloadLen = 0 ∧ (∀ b, tabGet t.freq b = 0) ∧ t.irq = false ∧
      (∀ i, t.regValue (.nfreqLo i) = 0 ∧ t.regValue (.nfreqHi i) = 0 ∧ t.regValue (.ninfo i) = 0 ∧
        t.regValue (.nchild i) = 0) ∧
      ∀ b, t.regValue (.codeLen b) = 0 ∧ t.regValue (.codeLo b) = 0 ∧ t.regValue (.codeHi b) = 0) ∧
    ∀ (s t : State) (rest : List HostOp), s.busy = false → hostStep s .resetBlock rest = .next t → t.mem = s.mem

/-- The state after reset meets every invariant of Safety.lean (log 4, log 5 and log 22 name the contents the spec leaves
open). -/
def Obligations.ResetIsSafe : Prop := Safe State.reset

/-- 70_reset_and_hazards.md R230, R231: the reset event gives every register and table its value after reset, whatever the
block was doing. Host memory is untouched, but for the destination range of a running command that has one, of which
nothing is said. The model's own choices in it: the contents of NODE, CODE_LEN and CODE_BITS, which 10_state.md R51 leaves
unspecified, are zeros (log 5); which destination bytes a reset leaves open (log 10); nothing is unread or guarded after it
(log 22). -/
def Obligations.ResetEventRestores : Prop :=
  ∀ (s : State) (rest : List HostOp), Mem.wf s.mem = true → ∃ t,
    hostStep s .resetBlock rest = .next t ∧
      t = { State.reset with
            mem := t.mem, draws := t.draws, denied := s.denied, hostOps := rest, schedule := s.schedule,
            hostRead := s.hostRead } ∧
      t.irq = false ∧ Mem.wf t.mem = true ∧ (s.dstInUse = false → t.mem = s.mem) ∧
      ∀ a, s.inDst a = false → Mem.read t.mem a = Mem.read s.mem a

/-! ### Steps -/

/-- 10_state.md R20, 30_encoding.md R80, 60_exceptions.md R215: on its turn the block runs exactly the command the accepted
word decodes to; otherwise the host's oldest operation is performed, and an idle block with no operation waiting holds its
state. `withFetchWord` sets up the first of these. -/
def Obligations.StepRunsDecodedCommand : Prop :=
  (∀ (s : State) (i : Instr), s.blockTurn = true → decode s.cmd = .ok i → step s = exec i s) ∧
    (∀ (s : State) (op : HostOp) (rest : List HostOp), s.blockTurn = false → s.hostOps = op :: rest →
      step s = hostStep s op rest) ∧
    (∀ s : State, s.busy = false → s.hostOps = [] → step s = .next s) ∧
    ∀ (s : State) (nbits w : Nat) (i : Instr), decodeTableWord nbits w = some i →
      step (s.withFetchWord nbits w) = exec i (s.withFetchWord nbits w)

/-- 30_encoding.md R82, R83: a command word with one of bits [31:8] set, whatever its opcode, or with a reserved opcode, completes
with ILLEGAL_COMMAND, ERRINFO the whole word, and changes no table, no operand register and no memory; OUT_LEN is 0 as after
every error (10_state.md R32). -/
def Obligations.IllegalCommandCompletes : Prop :=
  ∀ s : State, s.blockTurn = true → s.cmd.extractLsb' 8 24 ≠ 0 ∨ 0x09 ≤ (s.cmd.extractLsb' 0 8).toNat →
    step s = .next { s with errCode := 0x10, errInfo := s.cmd, outLen := 0, busy := false, done := true }

/-- 30_encoding.md R80, 10_state.md R24: a write to CMD while no command runs is accepted, whatever the word. The model's own
fields with it: the host operations before the completion are the next entry of the schedule (log 1), the operation leaves
the host's queue (log 2), and the command's results are unread and its ranges guarded from here on (log 22). -/
def Obligations.CommandWriteAccepted : Prop :=
  ∀ (s : State) (w : Word) (rest : List HostOp), s.busy = false →
    hostStep s (.writeReg 0x008 4 w) rest =
      .next { s with
              cmd := w, done := false, dropped := false, errCode := 0, errInfo := 0, busy := true, unread := true,
              guarded := s.rangesOfWord w ++ s.guarded, hostOps := rest, holds := s.schedule.headD 0,
              schedule := s.schedule.tail }

/-- 60_exceptions.md R206: completion of every command, successful or not; CMD keeps the command word. No command stops the
machine (R200). -/
def Obligations.EveryCommandCompletes : Prop :=
  ∀ (i : Instr) (s : State), ∃ t, exec i s = .next t ∧ t.busy = false ∧ t.done = true ∧ t.cmd = s.cmd ∧
    (t.regValue .status).getLsbD 2 = (t.errCode != 0)

/-! ### NOP, CLEAR, COUNT_FREQ -/

/-- 40_table_build.md R100: NOP completes and changes nothing else. -/
def Obligations.NopCompletes : Prop :=
  ∀ s : State, exec .nop s = .next { s with busy := false, done := true }

/-- 40_table_build.md R101: CLEAR zeroes the frequency table, drops tree and code table and clears the result registers; CTRL,
the operand registers and host memory are unchanged. That the stored contents of NODE, CODE_LEN and CODE_BITS stay is the
model's choice (log 5): 93_implementation_defined.md U4 leaves them open, and no window shows them. -/
def Obligations.ClearCompletes : Prop :=
  ∀ s : State, ∃ f, (∀ b, tabGet f b = 0) ∧
    exec .clear s =
      .next { s with
              freq := f, treeValid := false, root := 0, nodeCount := 0, codesValid := false, symCount := 0, maxLen := 0,
              pad := 0, outLen := 0, payloadAddr := 0, payloadLen := 0, busy := false, done := true }

/-- 40_table_build.md R102: COUNT_FREQ over source bytes that are all admitted and overflow no count adds to each entry the
number of its bytes, and changes nothing else. -/
def Obligations.CountFreqAddsCounts : Prop :=
  ∀ s : State, s.srcFits = true → s.readsAdmitted s.srcLen.toNat →
    (∀ b, (tabGet s.freq b).toNat + s.sourceBytes.count b ≤ 2 ^ 32 - 1) →
    ∃ f, exec .countFreq s = .next { s with freq := f, busy := false, done := true } ∧
      ∀ b, (tabGet f b).toNat = (tabGet s.freq b).toNat + s.sourceBytes.count b

/-- 40_table_build.md R102: a byte whose count would pass 2^32 - 1 ends COUNT_FREQ with CAPACITY, ERRINFO its offset; the
increments for the bytes before it stay, and it is not counted. -/
def Obligations.CountFreqStopsAtOverflow : Prop :=
  ∀ (s : State) (j : Nat), s.srcFits = true → j < s.srcLen.toNat → s.readsAdmitted (j + 1) →
    (∀ b, (tabGet s.freq b).toNat + (s.sourcePart j).count b ≤ 2 ^ 32 - 1) →
    (tabGet s.freq (s.sourceByte j)).toNat + (s.sourcePart j).count (s.sourceByte j) = 2 ^ 32 - 1 →
    ∃ f, exec .countFreq s =
        .next { s with
                freq := f, errCode := 0x13, errInfo := BitVec.ofNat 32 j, outLen := 0, busy := false, done := true } ∧
      ∀ b, (tabGet f b).toNat = (tabGet s.freq b).toNat + (s.sourcePart j).count b

/-- 20_memory.md R62, R71: a refused access ends its command with BUS_ERROR, ERRINFO the refused address; what that leaves is
60_exceptions.md R204. In turn: a refused source read of COUNT_FREQ (the increments before it stay, 40_table_build.md R102),
of PACK, of UNPACK, of SERIALIZE and of DESERIALIZE (its code table is dropped, 42_container.md R182; that the stored contents
of CODE_LEN and CODE_BITS stay, unreadable, is the model's choice, log 5); a refused write of PACK, UNPACK or SERIALIZE. -/
def Obligations.CountFreqStopsAtRefusal : Prop :=
  (∀ (s : State) (j : Nat), s.srcFits = true → j < s.srcLen.toNat → s.readsAdmitted j →
    s.admits (s.srcAddr.toNat + j) .read = false →
    (∀ b, (tabGet s.freq b).toNat + (s.sourcePart j).count b ≤ 2 ^ 32 - 1) →
    ∃ f, exec .countFreq s =
        .next { s with
                freq := f, errCode := 0x15, errInfo := BitVec.ofNat 32 (s.srcAddr.toNat + j), outLen := 0,
                busy := false, done := true } ∧
      ∀ b, (tabGet f b).toNat = (tabGet s.freq b).toNat + (s.sourcePart j).count b) ∧
  (∀ (s : State) (j : Nat), s.codesValid = true → s.rangesOk = true → j < s.srcLen.toNat → s.readsAdmitted j →
    s.admits (s.srcAddr.toNat + j) .read = false → (∀ i < j, tabGet s.codeLen (s.sourceByte i) ≠ 0) →
    (s.codeStream (s.sourcePart j)).length / 8 ≤ s.dstCap.toNat →
    s.writesAdmitted ((s.codeStream (s.sourcePart j)).length / 8) →
    ∃ t, exec .pack s = .next t ∧
      RaisedFrom s 0x15 (BitVec.ofNat 32 (s.srcAddr.toNat + j)) ((s.codeStream (s.sourcePart j)).length / 8) t) ∧
  (∀ (s : State) (j : Nat) (m : List Byte) (q : Bits), CodesLegal s → s.codesValid = true → s.rangesOk = true →
    s.pad.toNat ≤ 8 * s.srcLen.toNat → 8 * j < s.dataBits → s.readsAdmitted j →
    s.admits (s.srcAddr.toNat + j) .read = false → (∀ b ∈ m, tabGet s.codeLen b ≠ 0) →
    (∀ b, tabGet s.codeLen b ≠ 0 → ¬s.codeOf b <+: q) → q.length < s.maxLen.toNat →
    s.codeStream m ++ q = s.dataStream.take (8 * j) → m.length ≤ s.dstCap.toNat → s.writesAdmitted m.length →
    ∃ t, exec .unpack s = .next t ∧ RaisedFrom s 0x15 (BitVec.ofNat 32 (s.srcAddr.toNat + j)) m.length t) ∧
  (∀ (s : State) (j : Nat), CodesLegal s → s.codesValid = true → s.rangesOk = true →
    5 + 9 * s.symCount.toNat + s.srcLen.toNat ≤ s.dstCap.toNat → j < s.srcLen.toNat → s.readsAdmitted j →
    s.admits (s.srcAddr.toNat + j) .read = false → s.writesAdmitted (5 + 9 * s.symCount.toNat + j) →
    ∃ t, exec .serialize s = .next t ∧
      RaisedFrom s 0x15 (BitVec.ofNat 32 (s.srcAddr.toNat + j)) (5 + 9 * s.symCount.toNat + j) t) ∧
  (∀ (s : State) (j : Nat), s.srcFits = true → 4 ≤ s.srcLen.toNat → s.readsAdmitted j →
    s.admits (s.srcAddr.toNat + j) .read = false →
    (j < 4 ∨ (1 ≤ valBE (s.sourcePart 4) ∧ valBE (s.sourcePart 4) ≤ 256 ∧
      5 + 9 * valBE (s.sourcePart 4) ≤ s.srcLen.toNat ∧ j < 5 + 9 * valBE (s.sourcePart 4))) →
    exec .deserialize s =
      .next { s with
              errCode := 0x15, errInfo := BitVec.ofNat 32 (s.srcAddr.toNat + j), outLen := 0, codesValid := false,
              symCount := 0, maxLen := 0, payloadAddr := 0, payloadLen := 0, busy := false, done := true }) ∧
  ∀ (i : Instr) (s : State) (o : Nat),
    (i = .pack ∧ PackReaches s o) ∨ (i = .unpack ∧ UnpackReaches s o) ∨ (i = .serialize ∧ SerializeReaches s o) →
    o < s.dstCap.toNat → s.writesAdmitted o → s.admits (s.dstAddr.toNat + o) .write = false →
    ∃ t, exec i s = .next t ∧ RaisedFrom s 0x15 (BitVec.ofNat 32 (s.dstAddr.toNat + o)) o t

/-! ### BUILD_TREE -/

/-- 40_table_build.md R113, R114: with n symbols in the table BUILD_TREE leaves 2n - 1 nodes, n - 1 of them merges, the root
last, the root's frequency the sum of the table, and every internal node above its children; with one symbol its leaf is
the only node. Nothing but the tree and the completion changes. -/
def Obligations.BuildTreeCounts : Prop :=
  ∀ s : State, s.symbolsPresent ≠ 0 → ∃ t,
    exec .buildTree s =
        .next { s with
                node := t, root := BitVec.ofNat 9 (2 * s.symbolsPresent - 2),
                nodeCount := BitVec.ofNat 10 (2 * s.symbolsPresent - 1), treeValid := true, busy := false, done := true } ∧
      (∀ i < s.symbolsPresent, ∃ b f, nodeAt t i = .leaf b f) ∧
      (∀ k, s.symbolsPresent ≤ k → k < 2 * s.symbolsPresent - 1 →
        ∃ f l r, nodeAt t k = .internal f l r ∧ l.toNat < k ∧ r.toNat < k) ∧
      (nodeAt t (2 * s.symbolsPresent - 2)).freq.toNat = (allSymbols.map fun b => (tabGet s.freq b).toNat).sum

/-- 40_table_build.md R110 to R112: the leaves stand in ascending symbol order with their counts, and every later node merges
the active node of least key, as left child, with the least of the rest, as right child, by the key of R111; so the left
child's frequency is never the larger. -/
def Obligations.BuildTreeMergesLeastKeys : Prop :=
  ∀ (s t : State), s.symbolsPresent ≠ 0 → exec .buildTree s = .next t →
    (∀ i (h : i < s.presentSymbols.length),
        nodeAt t.node i = .leaf s.presentSymbols[i] ((tabGet s.freq s.presentSymbols[i]).setWidth 40)) ∧
      s.presentSymbols.Pairwise (fun b c => b.toNat < c.toNat) ∧
      (∀ b, b ∈ s.presentSymbols ↔ tabGet s.freq b ≠ 0) ∧
      ∀ k, s.symbolsPresent ≤ k → k < 2 * s.symbolsPresent - 1 → mergeLegal t.node s.symbolsPresent k ∧
        ∀ f l r, nodeAt t.node k = .internal f l r →
          (nodeAt t.node l.toNat).freq.toNat ≤ (nodeAt t.node r.toNat).freq.toNat

/-- 40_table_build.md R110: an empty frequency table is EMPTY_INPUT, and drops the tree. That the stored contents of NODE stay,
unreadable, is the model's choice (log 5). -/
def Obligations.BuildTreeEmptyInput : Prop :=
  ∀ s : State, (∀ b, tabGet s.freq b = 0) →
    exec .buildTree s =
      .next { s with
              treeValid := false, root := 0, nodeCount := 0, errCode := 0x01, errInfo := 0, outLen := 0, busy := false,
              done := true }

/-- 40_table_build.md R123: no leaf of a tree BUILD_TREE makes lies deeper than 57, so no code ASSIGN_CODES makes of it passes
63 bits. -/
def Obligations.BuiltTreeDepthBounded : Prop :=
  ∀ (s t : State), s.symbolsPresent ≠ 0 → exec .buildTree s = .next t →
    ∀ q b f, follow t.node t.root.toNat q = some (.leaf b f) → q.length ≤ 57

/-! ### ASSIGN_CODES -/

/-- 40_table_build.md R120, R121: from a legal tree with no leaf deeper than 63, ASSIGN_CODES gives exactly the symbols of its
leaves a code: the path from the root, 0 for left and 1 for right, or the single bit 0 (length 1, bits 0) for a root that is
a leaf; CODE_BITS is the code's value. It sets SYM_COUNT and MAX_LEN, consumes the tree, and changes nothing else. That the stored
contents of NODE stay, unreadable, is the model's choice (log 5): R120 clears the tree, 10_state.md R50 says that no node
survives, and R40 and 93_implementation_defined.md U4 leave the stored entries open. -/
def Obligations.AssignCodesFollowsTree : Prop :=
  ∀ s : State, TreeLegal s → s.treeValid = true →
    (∀ q b f, follow s.node s.root.toNat q = some (.leaf b f) → q.length ≤ 63) →
    ∃ t, exec .assignCodes s = .next t ∧
      t = { s with
            codeLen := t.codeLen, codeBits := t.codeBits, symCount := t.symCount, maxLen := t.maxLen, codesValid := true,
            treeValid := false, root := 0, nodeCount := 0, busy := false, done := true } ∧
      (∀ b, tabGet t.codeLen b ≠ 0 →
        (∃ f, nodeAt s.node s.root.toNat = .leaf b f ∧ tabGet t.codeLen b = 1 ∧ tabGet t.codeBits b = 0) ∨
          ∃ f, follow s.node s.root.toNat (t.codeOf b) = some (.leaf b f)) ∧
      (∀ b, (tabGet t.codeBits b).toNat = valOf (t.codeOf b)) ∧
      (∀ b q f, follow s.node s.root.toNat q = some (.leaf b f) → tabGet t.codeLen b ≠ 0) ∧
      (∀ b, tabGet t.codeLen b = 0 → tabGet t.codeBits b = 0) ∧
      t.symCount.toNat = t.codedSymbols.length ∧ t.maxLen.toNat = largest fun b => (tabGet t.codeLen b).toNat

/-- 40_table_build.md R122: the codes of a successful ASSIGN_CODES are not empty, pairwise different and prefix-free, SYM_COUNT
is the number of leaves, and with two symbols or more the code set is complete: the sum of 2^(-length) is 1, stated in
units of 2^(-63); with one symbol it is 1/2. -/
def Obligations.AssignedCodesComplete : Prop :=
  ∀ (s t : State), TreeLegal s → s.treeValid = true → exec .assignCodes s = .next t → t.codesValid = true →
    t.treeValid = false →
    (∀ b, tabGet t.codeLen b ≠ 0 → t.codeOf b ≠ []) ∧ PrefixFree t ∧
      (∀ b c, b ≠ c → tabGet t.codeLen b ≠ 0 → tabGet t.codeLen c ≠ 0 → t.codeOf b ≠ t.codeOf c) ∧
      t.symCount.toNat = (List.range s.nodeCount.toNat).countP (fun i => (nodeAt s.node i).rank == 0) ∧
      (t.codedSymbols.map fun b => 2 ^ (63 - (tabGet t.codeLen b).toNat)).sum =
        if t.symCount.toNat = 1 then 2 ^ 62 else 2 ^ 63

/-! ### Errors before any access -/

/-- 60_exceptions.md R205 (2): without a tree ASSIGN_CODES, and without a code table PACK, UNPACK and SERIALIZE, end with
SEQUENCE, whatever their ranges, and change nothing else. -/
def Obligations.SequenceErrors : Prop :=
  ∀ (i : Instr) (s : State),
    (i = .assignCodes ∧ s.treeValid = false) ∨ ((i = .pack ∨ i = .unpack ∨ i = .serialize) ∧ s.codesValid = false) →
    exec i s = .next { s with errCode := 0x11, errInfo := 0, outLen := 0, busy := false, done := true }

/-- 20_memory.md R70: a source range past 2^32, and for a command with a destination a destination range past 2^32 or two
ranges that share a byte, end the command with RANGE(0) and change nothing else. DESERIALIZE drops its code table (42_container.md
R182); that the stored contents of CODE_LEN and CODE_BITS stay then, unreadable, is the model's choice (log 5). -/
def Obligations.RangeErrors : Prop :=
  (∀ s : State, 2 ^ 32 < s.srcAddr.toNat + s.srcLen.toNat →
      exec .countFreq s = .next { s with errCode := 0x12, errInfo := 0, outLen := 0, busy := false, done := true } ∧
        exec .deserialize s =
          .next { s with
                  errCode := 0x12, errInfo := 0, outLen := 0, codesValid := false, symCount := 0, maxLen := 0,
                  payloadAddr := 0, payloadLen := 0, busy := false, done := true }) ∧
    ∀ (i : Instr) (s : State), i = .pack ∨ i = .unpack ∨ i = .serialize → s.codesValid = true →
      (2 ^ 32 < s.srcAddr.toNat + s.srcLen.toNat ∨ 2 ^ 32 < s.dstAddr.toNat + s.dstCap.toNat ∨
        ∃ a, s.inSrc a = true ∧ s.inDst a = true) →
      exec i s = .next { s with errCode := 0x12, errInfo := 0, outLen := 0, busy := false, done := true }

/-! ### PACK and UNPACK -/

/-- 41_bit_pack.md R141, R142: PACK writes the code bits of the source in order, stream bit k at bit 7 - (k mod 8) of byte
k div 8, `ceil(T / 8)` bytes for `T` the sum of the code lengths, their last PAD bits padding, the padding bits 0; no other
byte of memory and no other register changes. -/
def Obligations.PackWritesStream : Prop :=
  ∀ s : State, Mem.wf s.mem = true → PackReady s →
    ∃ t, exec .pack s = .next t ∧
      t = { s with mem := t.mem, pad := t.pad, outLen := t.outLen, busy := false, done := true } ∧
      (s.codeStream s.sourceBytes).length = (s.sourceBytes.map fun b => (tabGet s.codeLen b).toNat).sum ∧
      t.outLen.toNat = ((s.codeStream s.sourceBytes).length + 7) / 8 ∧
      t.pad.toNat = (8 - (s.codeStream s.sourceBytes).length % 8) % 8 ∧
      (∀ k (h : k < (s.codeStream s.sourceBytes).length),
        (Mem.read t.mem (s.dstAddr.toNat + k / 8)).getLsbD (7 - k % 8) = (s.codeStream s.sourceBytes)[k]) ∧
      (∀ k, (s.codeStream s.sourceBytes).length ≤ k → k < 8 * t.outLen.toNat →
        (Mem.read t.mem (s.dstAddr.toNat + k / 8)).getLsbD (7 - k % 8) = false) ∧
      ∀ a, ¬(s.dstAddr.toNat ≤ a ∧ a < s.dstAddr.toNat + t.outLen.toNat) → Mem.read t.mem a = Mem.read s.mem a

/-- 41_bit_pack.md R140, R150: packed bytes, or decoded symbols, that do not fit in DST_CAP end PACK, or UNPACK, with CAPACITY,
ERRINFO = DST_CAP, PAD unchanged and OUT_LEN 0; memory outside the destination range is unchanged, all of it when DST_CAP
is 0 (60_exceptions.md R204). -/
def Obligations.PackCapacity : Prop :=
  ∀ (i : Instr) (s : State),
    (i = .pack ∧ PackReaches s s.dstCap.toNat) ∨ (i = .unpack ∧ UnpackReaches s s.dstCap.toNat) →
    s.writesAdmitted s.dstCap.toNat →
    ∃ t, exec i s = .next t ∧ RaisedFrom s 0x13 s.dstCap s.dstCap.toNat t

/-- 41_bit_pack.md R140: a source byte without a code ends PACK with UNCODED_SYMBOL, ERRINFO its offset; when no whole byte of
code bits came before it, memory is unchanged (60_exceptions.md R204, 95_test_vectors.md V-P7). -/
def Obligations.PackUncodedSymbol : Prop :=
  ∀ (s : State) (j : Nat), Mem.wf s.mem = true → s.codesValid = true → s.rangesOk = true → j < s.srcLen.toNat →
    s.readsAdmitted (j + 1) → (∀ i < j, tabGet s.codeLen (s.sourceByte i) ≠ 0) →
    tabGet s.codeLen (s.sourceByte j) = 0 → (s.codeStream (s.sourcePart j)).length / 8 ≤ s.dstCap.toNat →
    s.writesAdmitted ((s.codeStream (s.sourcePart j)).length / 8) →
    ∃ t, exec .pack s = .next t ∧
      t = { s with
            mem := t.mem, draws := t.draws, errCode := 0x14, errInfo := BitVec.ofNat 32 j, outLen := 0, busy := false,
            done := true } ∧
      (∀ a, s.inDst a = false → Mem.read t.mem a = Mem.read s.mem a) ∧
      ((s.codeStream (s.sourcePart j)).length < 8 → t.mem = s.mem)

/-- 41_bit_pack.md R150, R151, R153: when the data bits (the source bits less the PAD last ones) are the codes of a symbol
string that fits, UNPACK writes that string; no other byte of memory and no other register changes. -/
def Obligations.UnpackDecodesCodes : Prop :=
  ∀ (s : State) (m : List Byte), Mem.wf s.mem = true → CodesLegal s → s.codesValid = true → s.rangesOk = true →
    s.pad.toNat ≤ 8 * s.srcLen.toNat → s.readsAdmitted s.srcLen.toNat → (∀ b ∈ m, tabGet s.codeLen b ≠ 0) →
    s.dataStream = s.codeStream m → m.length ≤ s.dstCap.toNat → s.writesAdmitted m.length →
    ∃ t, exec .unpack s = .next t ∧
      t = { s with mem := t.mem, outLen := t.outLen, busy := false, done := true } ∧ t.outLen.toNat = m.length ∧
      (∀ j (h : j < m.length), Mem.read t.mem (s.dstAddr.toNat + j) = m[j]) ∧
      ∀ a, ¬(s.dstAddr.toNat ≤ a ∧ a < s.dstAddr.toNat + m.length) → Mem.read t.mem a = Mem.read s.mem a

/-- 41_bit_pack.md R152: the three cases of CORRUPT_DATA. (a) After the codes of `m` come MAX_LEN bits no code is a prefix of:
ERRINFO is the index of the last of them. (b) After them the data end with fewer such bits, at least one: ERRINFO is the
number of data bits. (c) PAD passes the number of payload bits: ERRINFO is PAD. Memory keeps every byte outside the
destination range, and every byte when `m` is empty, for nothing was written then (60_exceptions.md R204 (3)). -/
def Obligations.UnpackCorruptData : Prop :=
  (∀ (s : State) (m : List Byte) (q : Bits), CodesLegal s → s.codesValid = true → s.rangesOk = true →
      s.pad.toNat ≤ 8 * s.srcLen.toNat → s.readsAdmitted s.srcLen.toNat → (∀ b ∈ m, tabGet s.codeLen b ≠ 0) →
      (∀ b, tabGet s.codeLen b ≠ 0 → ¬s.codeOf b <+: q) → q ≠ [] → m.length ≤ s.dstCap.toNat →
      s.writesAdmitted m.length →
      (s.codeStream m ++ q <+: s.dataStream → q.length = s.maxLen.toNat →
        ∃ t, exec .unpack s = .next t ∧
          RaisedFrom s 0x03 (BitVec.ofNat 32 ((s.codeStream m).length + q.length - 1)) m.length t) ∧
      (s.dataStream = s.codeStream m ++ q → q.length < s.maxLen.toNat →
        ∃ t, exec .unpack s = .next t ∧ RaisedFrom s 0x03 (BitVec.ofNat 32 s.dataBits) m.length t)) ∧
    ∀ s : State, s.codesValid = true → s.rangesOk = true → 8 * s.srcLen.toNat < s.pad.toNat →
      exec .unpack s =
        .next { s with
                errCode := 0x03, errInfo := BitVec.ofNat 32 s.pad.toNat, outLen := 0, busy := false, done := true }

/-- 41_bit_pack.md R154: after a PACK that succeeds, UNPACK over its output with its PAD and the same code table, into a range
with room, succeeds and writes the source back. (A command accepted with ERRCODE 0 has succeeded when ERRCODE is 0 still.) -/
def Obligations.PackUnpackRoundTrip : Prop :=
  ∀ (s t u : State), Mem.wf s.mem = true → CodesLegal s → s.errCode = 0 → exec .pack s = .next t → t.errCode = 0 →
    u = { t with srcAddr := s.dstAddr, srcLen := t.outLen, dstAddr := u.dstAddr, dstCap := u.dstCap } →
    u.rangesOk = true → s.srcLen.toNat ≤ u.dstCap.toNat → u.readsAdmitted u.srcLen.toNat →
    u.writesAdmitted s.srcLen.toNat →
    ∃ v, exec .unpack u = .next v ∧ v.errCode = 0 ∧ v.outLen = s.srcLen ∧
      ∀ j < s.srcLen.toNat, Mem.read v.mem (u.dstAddr.toNat + j) = Mem.read s.mem (s.srcAddr.toNat + j)

/-! ### SERIALIZE and DESERIALIZE -/

/-- 20_memory.md R66, 42_container.md R170, R171: SERIALIZE writes the container of the code table in ascending symbol order,
PAD and the payload: entry count, symbols, codes in sentinel form `2^L + val(c)` big-endian, pad byte, payload; OUT_LEN
is its size. No other byte of memory and no other register changes. -/
def Obligations.SerializeWritesContainer : Prop :=
  ∀ s : State, Mem.wf s.mem = true → CodesLegal s → s.codesValid = true → s.rangesOk = true →
    5 + 9 * s.symCount.toNat + s.srcLen.toNat ≤ s.dstCap.toNat → s.readsAdmitted s.srcLen.toNat →
    s.writesAdmitted (5 + 9 * s.symCount.toNat + s.srcLen.toNat) →
    ∃ t l, exec .serialize s = .next t ∧
      t = { s with mem := t.mem, outLen := t.outLen, busy := false, done := true } ∧
      l = containerOf s.codedSymbols
            (s.codedSymbols.map fun b => 2 ^ (tabGet s.codeLen b).toNat + (tabGet s.codeBits b).toNat) (s.pad.setWidth 8)
            s.sourceBytes ∧
      s.codedSymbols.Pairwise (fun b d => b.toNat < d.toNat) ∧
      t.outLen.toNat = l.length ∧ l.length = 5 + 9 * s.symCount.toNat + s.srcLen.toNat ∧
      (∀ j (h : j < l.length), Mem.read t.mem (s.dstAddr.toNat + j) = l[j]) ∧
      ∀ a, ¬(s.dstAddr.toNat ≤ a ∧ a < s.dstAddr.toNat + l.length) → Mem.read t.mem a = Mem.read s.mem a

/-- 42_container.md R170: a container that does not fit in DST_CAP is CAPACITY(DST_CAP) before any memory access: memory and
every register but the outcome are unchanged. -/
def Obligations.SerializeCapacity : Prop :=
  ∀ s : State, s.codesValid = true → s.rangesOk = true →
    s.dstCap.toNat < 5 + 9 * s.symCount.toNat + s.srcLen.toNat →
    exec .serialize s =
      .next { s with errCode := 0x13, errInfo := s.dstCap, outLen := 0, busy := false, done := true }

/-- 42_container.md R180: DESERIALIZE over a legal container whose bytes up to the pad byte are admitted loads its table, PAD and
the payload's place, and changes nothing else. PAYLOAD_ADDR is stated where it fits 32 bits; where the container ends at
2^32 with an empty payload the spec states no value (log 17). -/
def Obligations.DeserializeLoadsContainer : Prop :=
  ∀ (s : State) (syms : List Byte) (vals : List Nat) (pad : Byte) (payload : List Byte),
    ContainerLegal syms vals pad payload → s.sourceBytes = containerOf syms vals pad payload → s.srcFits = true →
    s.readsAdmitted (5 + 9 * syms.length) →
    ∃ t, exec .deserialize s = .next t ∧
      t = { s with
            codeLen := t.codeLen, codeBits := t.codeBits, symCount := t.symCount, maxLen := t.maxLen, codesValid := true,
            pad := t.pad, payloadAddr := t.payloadAddr, payloadLen := t.payloadLen, busy := false, done := true } ∧
      (∀ b v, (b, v) ∈ syms.zip vals →
        (tabGet t.codeLen b).toNat = Nat.log2 v ∧ (tabGet t.codeBits b).toNat = v - 2 ^ Nat.log2 v) ∧
      (∀ b, b ∉ syms → tabGet t.codeLen b = 0 ∧ tabGet t.codeBits b = 0) ∧
      t.symCount.toNat = syms.length ∧ t.maxLen.toNat = (vals.map Nat.log2).foldl max 0 ∧
      t.pad.toNat = pad.toNat ∧ t.payloadLen.toNat = payload.length ∧
      (s.srcAddr.toNat + 5 + 9 * syms.length < 2 ^ 32 →
        t.payloadAddr.toNat = s.srcAddr.toNat + 5 + 9 * syms.length)

/-- 42_container.md R181: DESERIALIZE leaves a code table only if its source is a legal container. -/
def Obligations.DeserializeAcceptsOnlyLegal : Prop :=
  ∀ (s t : State), exec .deserialize s = .next t → t.codesValid = true →
    s.srcFits = true ∧ ∃ syms vals pad payload, ContainerLegal syms vals pad payload ∧
      s.sourceBytes = containerOf syms vals pad payload

/-- 42_container.md R181, checks 1 to 4: a container too short for its entry count, or with an entry count of 0 or above 256, is
MALFORMED_CONTAINER with the ERRINFO of the table, and drops the code table (R182). That the stored contents of CODE_LEN and
CODE_BITS stay, unreadable, is the model's choice (log 5). -/
def Obligations.DeserializeHeaderChecks : Prop :=
  ∀ (s : State) (e : Nat), s.srcFits = true →
    (s.srcLen.toNat < 4 ∧ e = 0) ∨
      (4 ≤ s.srcLen.toNat ∧ s.readsAdmitted 4 ∧
        ((valBE (s.sourcePart 4) = 0 ∧ e = 0) ∨ (256 < valBE (s.sourcePart 4) ∧ e = 0) ∨
          (1 ≤ valBE (s.sourcePart 4) ∧ valBE (s.sourcePart 4) ≤ 256 ∧
            s.srcLen.toNat < 5 + 9 * valBE (s.sourcePart 4) ∧ e = s.srcLen.toNat))) →
    exec .deserialize s =
      .next { s with
              errCode := 0x04, errInfo := BitVec.ofNat 32 e, outLen := 0, codesValid := false, symCount := 0, maxLen := 0,
              payloadAddr := 0, payloadLen := 0, busy := false, done := true }

/-- 42_container.md R181, checks 5 to 9 in their order, on a byte string with the layout of a container: the first that fails
gives the ERRINFO. The code table is dropped (R182); that the stored contents of CODE_LEN and CODE_BITS stay, unreadable, is
the model's choice (log 5). -/
def Obligations.DeserializeTableChecks : Prop :=
  ∀ (s : State) (syms : List Byte) (vals : List Nat) (pad : Byte) (payload : List Byte) (k e : Nat),
    vals.length = syms.length → 1 ≤ syms.length → syms.length ≤ 256 → (∀ v ∈ vals, v < 2 ^ 64) →
    s.sourceBytes = containerOf syms vals pad payload → s.srcFits = true → s.readsAdmitted (5 + 9 * syms.length) →
    (-- check 5: entry k repeats an earlier symbol, no entry before it does
     (∃ b, syms[k]? = some b ∧ b ∈ syms.take k ∧ (syms.take k).Nodup ∧ e = 4 + k) ∨
     (syms.Nodup ∧
      (-- check 6: the stored value of entry k is below 2, none before it is
       (∃ v, vals[k]? = some v ∧ v < 2 ∧ (∀ w ∈ vals.take k, 2 ≤ w) ∧ e = 4 + syms.length + 8 * k) ∨
       ((∀ v ∈ vals, 2 ≤ v) ∧
        (-- check 7: the code of entry k clashes with an earlier one, no two before it do
         (∃ v, vals[k]? = some v ∧ (∃ w ∈ vals.take k, clashes (sentinelCode v) (sentinelCode w) = true) ∧
            ((vals.take k).map sentinelCode).Pairwise (fun c d => clashes c d = false) ∧
            e = 4 + syms.length + 8 * k) ∨
         ((vals.map sentinelCode).Pairwise (fun c d => clashes c d = false) ∧
          -- checks 8 and 9: the pad byte
          (7 < pad.toNat ∨ (payload = [] ∧ pad ≠ 0)) ∧ e = 4 + 9 * syms.length)))))) →
    exec .deserialize s =
      .next { s with
              errCode := 0x04, errInfo := BitVec.ofNat 32 e, outLen := 0, codesValid := false, symCount := 0, maxLen := 0,
              payloadAddr := 0, payloadLen := 0, busy := false, done := true }

/-- 42_container.md R182: any error of DESERIALIZE (from acceptance on, ERRCODE 0, an error is an ERRCODE that is not) clears
CODES_VALID, SYM_COUNT, MAX_LEN, PAYLOAD_ADDR and PAYLOAD_LEN; PAD, the tree and everything else but the outcome are
unchanged, and the error is RANGE, BUS_ERROR or MALFORMED_CONTAINER. That the stored contents of CODE_LEN and CODE_BITS stay,
unreadable, is the model's choice (log 5). -/
def Obligations.DeserializeErrorClears : Prop :=
  ∀ (s t : State), s.errCode = 0 → exec .deserialize s = .next t → t.errCode ≠ 0 →
    t = { s with
          errCode := t.errCode, errInfo := t.errInfo, outLen := 0, codesValid := false, symCount := 0, maxLen := 0,
          payloadAddr := 0, payloadLen := 0, busy := false, done := true } ∧
      (t.errCode = 0x12 ∨ t.errCode = 0x15 ∨ t.errCode = 0x04)

/-- 42_container.md R183: after a SERIALIZE that succeeds, with a payload or PAD 0, DESERIALIZE over its output succeeds, and
leaves the same code table and PAD, and PAYLOAD_ADDR and PAYLOAD_LEN locate a copy of the payload. (A command accepted with
ERRCODE 0 has succeeded when ERRCODE is 0 still.) -/
def Obligations.SerializeDeserializeRoundTrip : Prop :=
  ∀ (s t u : State), Mem.wf s.mem = true → CodesLegal s → s.errCode = 0 → exec .serialize s = .next t → t.errCode = 0 →
    (s.srcLen ≠ 0 ∨ s.pad = 0) →
    u = { t with srcAddr := s.dstAddr, srcLen := t.outLen, dstAddr := u.dstAddr, dstCap := u.dstCap } →
    u.readsAdmitted (5 + 9 * s.symCount.toNat) →
    ∃ v, exec .deserialize u = .next v ∧ v.errCode = 0 ∧ v.codesValid = true ∧ v.codeLen = s.codeLen ∧
      v.codeBits = s.codeBits ∧ v.symCount = s.symCount ∧ v.maxLen = s.maxLen ∧ v.pad = s.pad ∧
      v.payloadLen = s.srcLen ∧
      ∀ j < s.srcLen.toNat, Mem.read v.mem (v.payloadAddr.toNat + j) = Mem.read s.mem (s.srcAddr.toNat + j)

/-! ### What all commands keep -/

/-- 30_encoding.md R85, 10_state.md R21: no command writes CTRL, the operand registers or CMD; nor DROPPED, the platform's
parameter, or anything of the host's; its end alone ends no duty of the host (20_memory.md R72, log 22). -/
def Obligations.CommandsKeepOperands : Prop :=
  ∀ (i : Instr) (s t : State), exec i s = .next t →
    t.ie = s.ie ∧ t.srcAddr = s.srcAddr ∧ t.srcLen = s.srcLen ∧ t.dstAddr = s.dstAddr ∧ t.dstCap = s.dstCap ∧
      t.cmd = s.cmd ∧ t.dropped = s.dropped ∧ t.denied = s.denied ∧ t.hostOps = s.hostOps ∧ t.schedule = s.schedule ∧
      t.holds = s.holds ∧ t.hostRead = s.hostRead ∧ t.unread = s.unread ∧ t.guarded = s.guarded

/-- 30_encoding.md R85: each command writes only the tables and result registers its row of the table marks W; the registers of
the outcome apart. A row's empty cells, column by column. Beyond the row, CLEAR and ASSIGN_CODES keep the stored contents of
NODE, and CLEAR those of CODE_LEN and CODE_BITS, though R85 marks these cells W and 93_implementation_defined.md U4 leaves
what no window shows open: that is the model's choice (log 5). -/
def Obligations.CommandsWriteOnlyTheirTables : Prop :=
  ∀ (i : Instr) (s t : State), exec i s = .next t →
    (i ≠ .clear → i ≠ .pack → i ≠ .deserialize → t.pad = s.pad) ∧
      (i ≠ .clear → i ≠ .countFreq → t.freq = s.freq) ∧
      (i ≠ .buildTree → t.node = s.node) ∧
      (i ≠ .clear → i ≠ .buildTree → i ≠ .assignCodes →
        t.treeValid = s.treeValid ∧ t.root = s.root ∧ t.nodeCount = s.nodeCount) ∧
      (i ≠ .assignCodes → i ≠ .deserialize → t.codeLen = s.codeLen ∧ t.codeBits = s.codeBits) ∧
      (i ≠ .clear → i ≠ .assignCodes → i ≠ .deserialize →
        t.codesValid = s.codesValid ∧ t.symCount = s.symCount ∧ t.maxLen = s.maxLen) ∧
      (i = .nop → t.outLen = s.outLen) ∧
      (i = .countFreq ∨ i = .buildTree ∨ i = .assignCodes ∨ i = .deserialize → t.outLen = s.outLen ∨ t.outLen = 0) ∧
      (i ≠ .clear → i ≠ .deserialize → t.payloadAddr = s.payloadAddr ∧ t.payloadLen = s.payloadLen)

/-- 20_memory.md R62, 60_exceptions.md R204 (3), 30_encoding.md R85: a command without a destination leaves host memory as it
was; PACK, UNPACK and SERIALIZE leave every byte outside `[DST_ADDR, DST_ADDR + DST_CAP)` as it was, whether they succeed or
fail. -/
def Obligations.MemoryKeptOutsideDestination : Prop :=
  ∀ (i : Instr) (s t : State), Mem.wf s.mem = true → exec i s = .next t →
    (i ≠ .pack → i ≠ .unpack → i ≠ .serialize → t.mem = s.mem) ∧
      ∀ a, s.inDst a = false → Mem.read t.mem a = Mem.read s.mem a

/-- 60_exceptions.md R201, R204 (1), 10_state.md R27, R32: a command accepted with ERRCODE and ERRINFO 0 ends with a code of
R201; with an error OUT_LEN is 0, with none ERRINFO is 0. -/
def Obligations.ErrorRecord : Prop :=
  ∀ (i : Instr) (s t : State), s.errCode = 0 → s.errInfo = 0 → exec i s = .next t →
    t.errCode ∈ legalErrCodes ∧ (t.errCode ≠ 0 → t.outLen = 0) ∧ (t.errCode = 0 → t.errInfo = 0)

/-- 00_scope.md R17, 20_memory.md R62: a command's result depends on no byte outside the source range. Two states that differ
only in such bytes of memory are taken to states that agree on everything else, and on every byte either has changed. -/
def Obligations.ResultsIndependentOfOtherMemory : Prop :=
  ∀ (i : Instr) (s t : State) (m : List Host.Cell), Mem.wf s.mem = true → Mem.wf m = true →
    (∀ a, s.inSrc a = true → Mem.read m a = Mem.read s.mem a) → exec i s = .next t →
    ∃ m', exec i { s with mem := m } = .next { t with mem := m' } ∧
      ∀ a, (Mem.read t.mem a = Mem.read s.mem a ∧ Mem.read m' a = Mem.read m a) ∨ Mem.read m' a = Mem.read t.mem a

/-! ### Invariants every step keeps -/

/-- Host memory stays in its canonical form (log 4), whichever agent moves. -/
def Obligations.StepKeepsMemoryCanonical : Prop :=
  ∀ s t : State, MemoryCanonical s → step s = .next t → MemoryCanonical t

/-- 30_encoding.md R80, 60_exceptions.md R201, 10_state.md R27, R32: the status registers stay legal. 20_memory.md R72 (b), (c),
70_reset_and_hazards.md R233, R236 (in the model's fields of log 22): while a command runs its results stay unread and its
ranges guarded, and without unread results nothing is guarded. -/
def Obligations.StepKeepsStatusLegal : Prop :=
  ∀ s t : State, step s = .next t → (StatusLegal s → StatusLegal t) ∧ (DutyLegal s → DutyLegal t)

/-- 10_state.md R34 to R37: ROOT and NODE_COUNT are 0 without a tree, SYM_COUNT and MAX_LEN without a code table. -/
def Obligations.StepKeepsTableRegs : Prop :=
  ∀ s t : State, TableRegsLegal s → step s = .next t → TableRegsLegal t

/-- 10_state.md R40: whenever TREE_VALID is 1 the arena holds one strict binary tree under ROOT. -/
def Obligations.StepKeepsTreeLegal : Prop :=
  ∀ s t : State, TreeLegal s → step s = .next t → TreeLegal t

/-- 10_state.md R42, R49: `CODE_BITS[s] < 2^CODE_LEN[s]` always, and whenever CODES_VALID is 1 the table is prefix-free, not
empty, and SYM_COUNT and MAX_LEN describe it; from a state with a legal tree. -/
def Obligations.StepKeepsCodesLegal : Prop :=
  ∀ s t : State, TreeLegal s → CodesLegal s → step s = .next t → CodesLegal t

/-- 20_memory.md R61: no step changes which accesses the platform admits, the open parameter `mem_admits`. -/
def Obligations.StepKeepsPlatform : Prop :=
  ∀ s t : State, step s = .next t → t.denied = s.denied

/-! ### The host's side -/

/-- 10_state.md R47: while a command runs a write to CMD, an operand register, PAD or a FREQ entry is dropped and sets DROPPED;
writes to CTRL and STATUS are accepted; a write to a read-only register (or an unmapped offset) is ignored, at any time. -/
def Obligations.BusyWritesDropped : Prop :=
  ∀ (s : State) (r : WindowReg) (v : Word),
    (s.busy = true → r ∈ ([.cmd, .srcAddr, .srcLen, .dstAddr, .dstCap, .pad] : List WindowReg) ∨ (∃ b, r = .freq b) →
      writeWindow s r v = { s with dropped := true }) ∧
    (s.busy = true →
      writeWindow s .ctrl v = { s with ie := v.getLsbD 0 } ∧
        writeWindow s .status v = { s with done := s.done && !v.getLsbD 1, dropped := s.dropped && !v.getLsbD 3 }) ∧
    (r ∉ ([.ctrl, .status, .cmd, .srcAddr, .srcLen, .dstAddr, .dstCap, .pad] : List WindowReg) → (∀ b, r ≠ .freq b) →
      writeWindow s r v = s)

/-- 10_state.md R23, R25, R28 to R31, R33, R41, R45: what a host write does, to every place of the window but CMD (which is
`CommandWriteAccepted`). CTRL and STATUS at any time; the operand registers, PAD (bits [2:0]) and FREQ while no command
runs; read-only registers and unmapped offsets ignore it. -/
def Obligations.HostWrites : Prop :=
  ∀ (s : State) (v : Word),
    writeWindow s .ctrl v = { s with ie := v.getLsbD 0 } ∧
      writeWindow s .status v = { s with done := s.done && !v.getLsbD 1, dropped := s.dropped && !v.getLsbD 3 } ∧
      (s.busy = false →
        writeWindow s .srcAddr v = { s with srcAddr := v } ∧ writeWindow s .srcLen v = { s with srcLen := v } ∧
          writeWindow s .dstAddr v = { s with dstAddr := v } ∧ writeWindow s .dstCap v = { s with dstCap := v } ∧
          writeWindow s .pad v = { s with pad := v.extractLsb' 0 3 } ∧
          (∀ b, (∀ c, tabGet (writeWindow s (.freq b) v).freq c = if c = b then v else tabGet s.freq c) ∧
            writeWindow s (.freq b) v = { s with freq := (writeWindow s (.freq b) v).freq }) ∧
          ∀ r, r ∉ ([.ctrl, .status, .cmd, .srcAddr, .srcLen, .dstAddr, .dstCap, .pad] : List WindowReg) →
            (∀ b, r ≠ .freq b) → writeWindow s r v = s)

/-- 10_state.md R25: the word STATUS reads, bit by bit; bits [31:6] are 0. -/
def Obligations.StatusWordBits : Prop :=
  ∀ s : State,
    (s.regValue .status).getLsbD 0 = s.busy ∧ (s.regValue .status).getLsbD 1 = s.done ∧
      (s.regValue .status).getLsbD 2 = decide (s.errCode ≠ 0) ∧ (s.regValue .status).getLsbD 3 = s.dropped ∧
      (s.regValue .status).getLsbD 4 = s.treeValid ∧ (s.regValue .status).getLsbD 5 = s.codesValid ∧
      ∀ i, 6 ≤ i → (s.regValue .status).getLsbD i = false

/-- 10_state.md R22 to R39, R45: what the other registers read where a read is defined (`HostReads` says when), the reserved
bits 0. -/
def Obligations.RegisterReads : Prop :=
  ∀ s : State,
    s.regValue .id = 0x48554631 ∧ (s.regValue .ctrl).toNat = s.ie.toNat ∧ s.regValue .cmd = s.cmd ∧
      (s.regValue .errCode).toNat = s.errCode.toNat ∧ s.regValue .errInfo = s.errInfo ∧
      s.regValue .srcAddr = s.srcAddr ∧ s.regValue .srcLen = s.srcLen ∧ s.regValue .dstAddr = s.dstAddr ∧
      s.regValue .dstCap = s.dstCap ∧ s.regValue .outLen = s.outLen ∧ (s.regValue .pad).toNat = s.pad.toNat ∧
      (s.regValue .symCount).toNat = s.symCount.toNat ∧ (s.regValue .maxLen).toNat = s.maxLen.toNat ∧
      (s.regValue .root).toNat = s.root.toNat ∧ (s.regValue .nodeCount).toNat = s.nodeCount.toNat ∧
      s.regValue .payloadAddr = s.payloadAddr ∧ s.regValue .payloadLen = s.payloadLen ∧
      (∀ b, s.regValue (.freq b) = tabGet s.freq b) ∧ s.regValue .unmapped = 0

/-- 10_state.md R42, R43: the code windows show the code table only while CODES_VALID is 1, the arena windows node i only while
TREE_VALID is 1 and i < NODE_COUNT; all read 0 otherwise. -/
def Obligations.TableWindows : Prop :=
  ∀ s : State,
    (∀ b, (s.codesValid = false → s.regValue (.codeLen b) = 0 ∧ s.regValue (.codeLo b) = 0 ∧ s.regValue (.codeHi b) = 0) ∧
      (s.codesValid = true → (s.regValue (.codeLen b)).toNat = (tabGet s.codeLen b).toNat ∧
        (s.regValue (.codeLo b)).toNat + 2 ^ 32 * (s.regValue (.codeHi b)).toNat = (tabGet s.codeBits b).toNat)) ∧
    ∀ i, (s.treeValid = false ∨ s.nodeCount.toNat ≤ i →
        s.regValue (.nfreqLo i) = 0 ∧ s.regValue (.nfreqHi i) = 0 ∧ s.regValue (.ninfo i) = 0 ∧
          s.regValue (.nchild i) = 0) ∧
      (s.treeValid = true → i < s.nodeCount.toNat →
        (s.regValue (.nfreqLo i)).toNat + 2 ^ 32 * (s.regValue (.nfreqHi i)).toNat = (nodeAt s.node i).freq.toNat ∧
          (∀ b f, nodeAt s.node i = .leaf b f →
            (s.regValue (.ninfo i)).toNat = b.toNat ∧ s.regValue (.nchild i) = 0) ∧
          ∀ f l r, nodeAt s.node i = .internal f l r →
            (s.regValue (.ninfo i)).toNat = 2 ^ 31 ∧ (s.regValue (.nchild i)).toNat = l.toNat + 2 ^ 16 * r.toNat)

/-- 10_state.md R48, 20_memory.md R72 (b), 70_reset_and_hazards.md R236: a host read of ID, CTRL, CMD or STATUS returns the
register's value at any time; while no command runs so does a read of an operand register or an unmapped offset, and, once
the host has read BUSY = 0, of every register and window. Of any other read only this is said, that it changes nothing but
the value the host gets and the count of free values. A read of STATUS that shows BUSY = 0 is the point after which results
are defined (which registers hold results, and the fields that record the point, are log 22). -/
def Obligations.HostReads : Prop :=
  ∀ (s : State) (r : WindowReg),
    (r ∈ ([.id, .ctrl, .cmd] : List WindowReg) → readWindow s r = { s with hostRead := s.regValue r }) ∧
    (s.busy = true → readWindow s .status = { s with hostRead := s.statusWord }) ∧
    (s.busy = false → readWindow s .status = { s with hostRead := s.statusWord, unread := false, guarded := [] } ∧
      (r ∈ ([.srcAddr, .srcLen, .dstAddr, .dstCap, .unmapped] : List WindowReg) ∨ (s.unread = false ∧ r ≠ .status) →
        readWindow s r = { s with hostRead := s.regValue r }) ∧
      (readWindow (readWindow s .status) r).hostRead = s.regValue r) ∧
    (r ≠ .status → ∃ v d, readWindow s r = { s with hostRead := v, draws := d })

/-- 10_state.md R52: the register map in offset order; every other word of the window is unmapped. -/
def Obligations.WindowMap : Prop :=
  windowReg 0x000 = .id ∧ windowReg 0x004 = .ctrl ∧ windowReg 0x008 = .cmd ∧ windowReg 0x00C = .status ∧
    windowReg 0x010 = .errCode ∧ windowReg 0x014 = .errInfo ∧ windowReg 0x018 = .srcAddr ∧ windowReg 0x01C = .srcLen ∧
    windowReg 0x020 = .dstAddr ∧ windowReg 0x024 = .dstCap ∧ windowReg 0x028 = .outLen ∧ windowReg 0x02C = .pad ∧
    windowReg 0x030 = .symCount ∧ windowReg 0x034 = .maxLen ∧ windowReg 0x038 = .root ∧ windowReg 0x03C = .nodeCount ∧
    windowReg 0x040 = .payloadAddr ∧ windowReg 0x044 = .payloadLen ∧
    (∀ b : Byte, windowReg (0x400 + 4 * b.toNat) = .freq b ∧ windowReg (0x800 + 4 * b.toNat) = .codeLen b ∧
      windowReg (0xC00 + 4 * b.toNat) = .codeLo b ∧ windowReg (0x1000 + 4 * b.toNat) = .codeHi b) ∧
    (∀ i ≤ 510, windowReg (0x2000 + 16 * i) = .nfreqLo i ∧ windowReg (0x2000 + 16 * i + 4) = .nfreqHi i ∧
      windowReg (0x2000 + 16 * i + 8) = .ninfo i ∧ windowReg (0x2000 + 16 * i + 12) = .nchild i) ∧
    ∀ off, off % 4 = 0 →
      (0x048 ≤ off ∧ off ≤ 0x3FC) ∨ (0x1400 ≤ off ∧ off ≤ 0x1FFC) ∨ (0x3FF0 ≤ off ∧ off < 0x4000) →
      windowReg off = .unmapped

/-- 10_state.md R46, 20_memory.md R60, R67: a register access of the host is performed when it is a whole aligned word inside the
window, and refused by name otherwise. That an aligned access at 0x4000 or above is refused as outside the window is the
model's choice (log 14): the spec gives the window's size and no access outside it. -/
def Obligations.RegisterAccessForm : Prop :=
  ∀ (s : State) (off bytes : Nat) (v : Word) (rest : List HostOp),
    (bytes = 4 → off % 4 = 0 → off < 0x4000 →
      hostStep s (.readReg off bytes) rest = .next (readWindow (s.popHost rest) (windowReg off)) ∧
        hostStep s (.writeReg off bytes v) rest = .next (writeWindow (s.popHost rest) (windowReg off) v)) ∧
    (bytes ≠ 4 ∨ off % 4 ≠ 0 →
      hostStep s (.readReg off bytes) rest = .refused .registerAccessForm ∧
        hostStep s (.writeReg off bytes v) rest = .refused .registerAccessForm) ∧
    (bytes = 4 → off % 4 = 0 → 0x4000 ≤ off →
      hostStep s (.readReg off bytes) rest = .refused .outsideWindow ∧
        hostStep s (.writeReg off bytes v) rest = .refused .outsideWindow)

/-- 20_memory.md R61: a byte the host has written is what it reads next, and no other byte changes; a read returns the byte the
memory holds. Both hold outside the ranges guarded by 70_reset_and_hazards.md R233. R61 says so of bytes `mem_admits` admits;
the host's own accesses are not gated by it, which is the model's choice (log 9, unsafe there). An address past 2^32 does not
exist. -/
def Obligations.HostMemoryBytes : Prop :=
  ∀ (s : State) (a : Nat) (v : Byte) (rest : List HostOp),
    (a < 2 ^ 32 → s.guards a .write = false →
      (∃ u, hostStep s (.readMem a) rest = .next u ∧ u.hostRead.toNat = (Mem.read s.mem a).toNat ∧ u.mem = s.mem) ∧
      (Mem.wf s.mem = true → s.guards a .read = false → ∃ t,
        hostStep s (.writeMem a v) (.readMem a :: rest) = .next t ∧ t.hostOps = .readMem a :: rest ∧
          (∀ b, Mem.read t.mem b = if b = a then v else Mem.read s.mem b) ∧
          ∃ u, hostStep t (.readMem a) rest = .next u ∧ u.hostRead.toNat = v.toNat ∧ u.mem = t.mem)) ∧
    (2 ^ 32 ≤ a → hostStep s (.writeMem a v) rest = .fault (.noSuchAddress a) ∧
      hostStep s (.readMem a) rest = .fault (.noSuchAddress a))

/-- 70_reset_and_hazards.md R233, R242, 20_memory.md R72 (c): a host write to a guarded address is refused, any other is
performed, a command running or not. An acceptance guards exactly the ranges of its command besides what was guarded: the
source for the commands that read it, the destination for those that write it (30_encoding.md R85); a word that selects no
command guards none. While a command runs its ranges are guarded (`DutyLegal`, kept by `StepKeepsStatusLegal`), and no
command ends that: a `wait` that shows BUSY = 0 does, as does a read of STATUS (`HostReads`). Refusing by name, and
performing every other write whatever `mem_admits` says, are the model's choices (log 9); the fields are those of log 22. -/
def Obligations.HostDutyRefused : Prop :=
  (∀ (s : State) (a : Nat) (v : Byte) (rest : List HostOp), a < 2 ^ 32 →
    (s.guards a .read = true ∨ s.guards a .write = true → hostStep s (.writeMem a v) rest = .refused .hostDutyBroken) ∧
    (s.guards a .read = false → s.guards a .write = false →
      hostStep s (.writeMem a v) rest =
        .next { s with mem := Mem.write s.mem a v, hostOps := rest, holds := s.holds - 1 })) ∧
  (∀ (s : State) (w : Word) (a : Nat), s.busy = false →
    (∀ i, decode w = .ok i →
      ((writeWindow s .cmd w).guards a .read = true ↔ s.guards a .read = true ∨
        (i ∈ ([.countFreq, .pack, .unpack, .serialize, .deserialize] : List Instr) ∧ s.inSrc a = true)) ∧
      ((writeWindow s .cmd w).guards a .write = true ↔ s.guards a .write = true ∨
        (i ∈ ([.pack, .unpack, .serialize] : List Instr) ∧ s.inDst a = true))) ∧
    (∀ e, decode w = .error e → (writeWindow s .cmd w).guarded = s.guarded)) ∧
  (∀ (s : State) (a : Nat) (i : Instr), DutyLegal s → s.busy = true → decode s.cmd = .ok i →
    (i ∈ ([.countFreq, .pack, .unpack, .serialize, .deserialize] : List Instr) → s.inSrc a = true →
      s.guards a .read = true) ∧
    (i ∈ ([.pack, .unpack, .serialize] : List Instr) → s.inDst a = true → s.guards a .write = true)) ∧
  ∀ (s : State) (rest : List HostOp), ∃ t, hostStep s .waitIdle rest = .next t ∧
    t.unread = (s.busy && s.unread) ∧ t.guarded = if s.busy then s.guarded else []

/-- 60_exceptions.md R207, R208: IRQ is the level `IE and DONE`; it rises when IE is set while DONE is 1, and falls on a write of 1
to DONE, of 0 to IE, and on the acceptance of the next command. -/
def Obligations.InterruptLevel : Prop :=
  ∀ (s : State) (v : Word),
    (s.irq = true ↔ s.ie = true ∧ s.done = true) ∧
      (s.done = true → v.getLsbD 0 = true → (writeWindow s .ctrl v).irq = true) ∧
      (v.getLsbD 0 = false → (writeWindow s .ctrl v).irq = false) ∧
      (v.getLsbD 1 = true → (writeWindow s .status v).irq = false) ∧
      (s.busy = false → (writeWindow s .cmd v).irq = false) ∧
      ∀ i t, exec i s = .next t → t.irq = s.ie

/-- 30_encoding.md R87, 70_reset_and_hazards.md R241: a host that waits sees every accepted command complete. From any state in
which a command runs and the host's next operation is `wait`, BUSY reads 0 after at most `holds + 1` steps, with DONE set
and the host's queue as it was. -/
def Obligations.WaitTerminates : Prop :=
  ∀ (s : State) (rest : List HostOp), s.busy = true → s.hostOps = .waitIdle :: rest →
    ∃ k ≤ s.holds + 1, ∃ t, runSteps k s = .next t ∧ t.busy = false ∧ t.done = true ∧
      t.hostOps = .waitIdle :: rest
end

