-- ==== Sys2Proof/Laws/Bits.lean ====
section
/-! SUPPORT. Laws of bit strings, big-endian byte strings and the sentinel form. -/

namespace Sys2Proof.Machine

/-! ### Bit strings as numbers -/

@[simp] theorem bitsOf_length (n v : Nat) : (bitsOf n v).length = n := by
  induction n with
  | zero => rfl
  | succ n ih => simp [bitsOf, ih]

theorem bitsOf_getElem (n v i : Nat) (h : i < (bitsOf n v).length) : (bitsOf n v)[i] = v.testBit (n - 1 - i) := by
  induction n generalizing i with
  | zero => simp [bitsOf] at h
  | succ n ih =>
    cases i with
    | zero => simp [bitsOf]
    | succ i =>
      simp only [bitsOf, List.getElem_cons_succ]
      rw [ih i (by simpa [bitsOf] using h)]
      congr 1
      omega

theorem valOf_append (c d : Bits) : valOf (c ++ d) = valOf c * 2 ^ d.length + valOf d := by
  have key : ∀ (d : Bits) (a : Nat),
      d.foldl (fun x b => 2 * x + b.toNat) a = a * 2 ^ d.length + d.foldl (fun x b => 2 * x + b.toNat) 0 := by
    intro d
    induction d with
    | nil => intro a; simp
    | cons b d ih =>
      intro a
      simp only [List.foldl_cons, List.length_cons]
      rw [ih (2 * a + b.toNat), ih (2 * 0 + b.toNat)]
      ring
  simp only [valOf, List.foldl_append]
  exact key d _

@[simp] theorem valOf_nil : valOf [] = 0 := rfl

theorem valOf_cons (b : Bool) (c : Bits) : valOf (b :: c) = b.toNat * 2 ^ c.length + valOf c := by
  rw [← List.singleton_append, valOf_append]
  simp [valOf]

theorem valOf_lt (c : Bits) : valOf c < 2 ^ c.length := by
  induction c with
  | nil => simp
  | cons b c ih =>
    rw [valOf_cons, List.length_cons, pow_succ]
    have hb : b.toNat ≤ 1 := Bool.toNat_le b
    nlinarith [Nat.mul_le_mul_right (2 ^ c.length) hb]

theorem valOf_bitsOf {n v : Nat} (h : v < 2 ^ n) : valOf (bitsOf n v) = v := by
  suffices key : ∀ n v, valOf (bitsOf n v) = v % 2 ^ n by rw [key, Nat.mod_eq_of_lt h]
  intro n v
  induction n with
  | zero => simp [bitsOf, Nat.mod_one]
  | succ n ih =>
    simp only [bitsOf, valOf_cons, bitsOf_length, ih, Nat.toNat_testBit]
    rw [pow_succ, Nat.mod_mul, mul_comm]
    ring

theorem bitsOf_valOf (c : Bits) : bitsOf c.length (valOf c) = c := by
  suffices key : ∀ (c : Bits) (k : Nat), bitsOf c.length (valOf c + k * 2 ^ c.length) = c by simpa using key c 0
  intro c
  induction c with
  | nil => intro k; rfl
  | cons b c ih =>
    intro k
    have e : valOf (b :: c) + k * 2 ^ (b :: c).length = valOf c + (b.toNat + 2 * k) * 2 ^ c.length := by
      rw [valOf_cons, List.length_cons, pow_succ]; ring
    rw [e]
    simp only [List.length_cons, bitsOf, ih]
    congr 1
    rw [Nat.testBit_eq_decide_div_mod_eq, Nat.add_mul_div_right _ _ (Nat.two_pow_pos _),
      Nat.div_eq_of_lt (valOf_lt c)]
    cases b <;> simp

/-- Two bit strings of one length and one value are equal. -/
theorem valOf_inj {c d : Bits} (hl : c.length = d.length) (hv : valOf c = valOf d) : c = d := by
  rw [← bitsOf_valOf c, ← bitsOf_valOf d, hl, hv]

theorem testBit_valOf (c : Bits) (i : Nat) : (valOf c).testBit i = (c.reverse[i]?).getD false := by
  by_cases h : i < c.length
  · have e := bitsOf_getElem c.length (valOf c) (c.length - 1 - i) (by simp; omega)
    simp only [bitsOf_valOf] at e
    have hi : c.length - 1 - (c.length - 1 - i) = i := by omega
    rw [hi] at e
    rw [← e, List.getElem?_reverse h, List.getElem?_eq_getElem (by omega)]
    rfl
  · rw [List.getElem?_eq_none (by simpa using h), Option.getD_none]
    exact Nat.testBit_lt_two_pow (lt_of_lt_of_le (valOf_lt c) (Nat.pow_le_pow_right (by omega) (by omega)))

/-! ### Bytes as bit strings -/

theorem bitsOf_byte (x : Byte) : bitsOf 8 x.toNat = (List.range 8).map fun i => x.getLsbD (7 - i) := by
  refine List.ext_getElem (by simp) fun i h1 h2 => ?_
  rw [bitsOf_getElem]
  simp [BitVec.testBit_toNat]

/-- The byte made of 8 bits has them, the first at bit 7 (20_memory.md R63). -/
theorem byteOf_getLsbD {q : Bits} (hq : q.length = 8) {i : Nat} (hi : i < 8) :
    (BitVec.ofNat 8 (valOf q)).getLsbD (7 - i) = q[i] := by
  have h7 : 7 - i < 8 := by omega
  rw [BitVec.getLsbD_ofNat, testBit_valOf, List.getElem?_reverse (by omega)]
  have e : q.length - 1 - (7 - i) = i := by omega
  have h7' : decide (7 - i < 8) = true := decide_eq_true h7
  rw [e, h7', Bool.true_and, List.getElem?_eq_getElem (by omega), Option.getD_some]

theorem bitsOf_byteOf {c : Bits} (hc : c.length = 8) : bitsOf 8 (BitVec.ofNat 8 (valOf c)).toNat = c := by
  have h := valOf_lt c
  rw [hc] at h
  have e : (BitVec.ofNat 8 (valOf c)).toNat = valOf c := by simp; omega
  rw [e, ← hc, bitsOf_valOf]

/-! ### Big-endian byte strings -/

@[simp] theorem bytesBE_length (n v : Nat) : (bytesBE n v).length = n := by
  induction n with
  | zero => rfl
  | succ n ih => simp [bytesBE, ih]

theorem valBE_cons (b : Byte) (l : List Byte) : valBE (b :: l) = b.toNat * 256 ^ l.length + valBE l := by
  have key : ∀ (l : List Byte) (a : Nat),
      l.foldl (fun x b => 256 * x + b.toNat) a = a * 256 ^ l.length + l.foldl (fun x b => 256 * x + b.toNat) 0 := by
    intro l
    induction l with
    | nil => intro a; simp
    | cons b l ih =>
      intro a
      simp only [List.foldl_cons, List.length_cons]
      rw [ih (256 * a + b.toNat), ih (256 * 0 + b.toNat)]
      ring
  simp only [valBE, List.foldl_cons]
  simpa using key l (256 * 0 + b.toNat)

theorem valBE_lt (l : List Byte) : valBE l < 256 ^ l.length := by
  induction l with
  | nil => simp [valBE]
  | cons b l ih =>
    rw [valBE_cons, List.length_cons, pow_succ]
    have hb : b.toNat ≤ 255 := by have := b.isLt; omega
    nlinarith [Nat.mul_le_mul_right (256 ^ l.length) hb]

theorem valBE_bytesBE {n v : Nat} (h : v < 256 ^ n) : valBE (bytesBE n v) = v := by
  suffices key : ∀ n v, valBE (bytesBE n v) = v % 256 ^ n by rw [key, Nat.mod_eq_of_lt h]
  intro n v
  induction n with
  | zero => simp [bytesBE, valBE, Nat.mod_one]
  | succ n ih =>
    simp only [bytesBE, valBE_cons, bytesBE_length, ih, BitVec.toNat_ofNat]
    rw [show (2 : Nat) ^ 8 = 256 from rfl, pow_succ, Nat.mod_mul, Nat.add_comm, Nat.mul_comm (256 ^ n)]

theorem bytesBE_valBE (l : List Byte) : bytesBE l.length (valBE l) = l := by
  suffices key : ∀ (l : List Byte) (k : Nat), bytesBE l.length (valBE l + k * 256 ^ l.length) = l by
    simpa using key l 0
  intro l
  induction l with
  | nil => intro k; rfl
  | cons b l ih =>
    intro k
    have e : valBE (b :: l) + k * 256 ^ (b :: l).length = valBE l + (b.toNat + 256 * k) * 256 ^ l.length := by
      rw [valBE_cons, List.length_cons, pow_succ]; ring
    rw [e]
    simp only [List.length_cons, bytesBE, ih]
    congr 1
    rw [Nat.add_mul_div_right _ _ (Nat.pow_pos (by omega)), Nat.div_eq_of_lt (valBE_lt l)]
    apply BitVec.eq_of_toNat_eq
    have := b.isLt
    simp
    omega

/-! ### The sentinel form -/

theorem log2_sentinel {len bits : Nat} (h : bits < 2 ^ len) : Nat.log2 (sentinel len bits) = len := by
  unfold sentinel
  have hp := Nat.two_pow_pos len
  rw [Nat.log2_eq_iff (by omega)]
  exact ⟨by omega, by rw [pow_succ]; omega⟩

theorem sentinelCode_sentinel {len bits : Nat} (h : bits < 2 ^ len) :
    sentinelCode (sentinel len bits) = bitsOf len bits := by
  unfold sentinelCode
  rw [log2_sentinel h]
  simp [sentinel]

theorem clashes_iff {c d : Bits} : clashes c d = true ↔ c <+: d ∨ d <+: c := by simp [clashes]

end Sys2Proof.Machine
end

