-- ==== Sys2Proof/Laws/State.lean ====
section
/-! SUPPORT. One lemma per field and update of the state, true by unfolding, so that no proof unfolds a record update. -/

namespace Sys2Proof.Machine

/-! ### Completion -/

@[simp] theorem State.complete_ie (s : State) : s.complete.ie = s.ie := rfl
@[simp] theorem State.complete_cmd (s : State) : s.complete.cmd = s.cmd := rfl
@[simp] theorem State.complete_busy (s : State) : s.complete.busy = false := rfl
@[simp] theorem State.complete_done (s : State) : s.complete.done = true := rfl
@[simp] theorem State.complete_dropped (s : State) : s.complete.dropped = s.dropped := rfl
@[simp] theorem State.complete_treeValid (s : State) : s.complete.treeValid = s.treeValid := rfl
@[simp] theorem State.complete_codesValid (s : State) : s.complete.codesValid = s.codesValid := rfl
@[simp] theorem State.complete_errCode (s : State) : s.complete.errCode = s.errCode := rfl
@[simp] theorem State.complete_errInfo (s : State) : s.complete.errInfo = s.errInfo := rfl
@[simp] theorem State.complete_srcAddr (s : State) : s.complete.srcAddr = s.srcAddr := rfl
@[simp] theorem State.complete_srcLen (s : State) : s.complete.srcLen = s.srcLen := rfl
@[simp] theorem State.complete_dstAddr (s : State) : s.complete.dstAddr = s.dstAddr := rfl
@[simp] theorem State.complete_dstCap (s : State) : s.complete.dstCap = s.dstCap := rfl
@[simp] theorem State.complete_outLen (s : State) : s.complete.outLen = s.outLen := rfl
@[simp] theorem State.complete_pad (s : State) : s.complete.pad = s.pad := rfl
@[simp] theorem State.complete_symCount (s : State) : s.complete.symCount = s.symCount := rfl
@[simp] theorem State.complete_maxLen (s : State) : s.complete.maxLen = s.maxLen := rfl
@[simp] theorem State.complete_root (s : State) : s.complete.root = s.root := rfl
@[simp] theorem State.complete_nodeCount (s : State) : s.complete.nodeCount = s.nodeCount := rfl
@[simp] theorem State.complete_payloadAddr (s : State) : s.complete.payloadAddr = s.payloadAddr := rfl
@[simp] theorem State.complete_payloadLen (s : State) : s.complete.payloadLen = s.payloadLen := rfl
@[simp] theorem State.complete_node (s : State) : s.complete.node = s.node := rfl
@[simp] theorem State.complete_freq (s : State) : s.complete.freq = s.freq := rfl
@[simp] theorem State.complete_codeLen (s : State) : s.complete.codeLen = s.codeLen := rfl
@[simp] theorem State.complete_codeBits (s : State) : s.complete.codeBits = s.codeBits := rfl
@[simp] theorem State.complete_mem (s : State) : s.complete.mem = s.mem := rfl
@[simp] theorem State.complete_denied (s : State) : s.complete.denied = s.denied := rfl
@[simp] theorem State.complete_unread (s : State) : s.complete.unread = s.unread := rfl
@[simp] theorem State.complete_guarded (s : State) : s.complete.guarded = s.guarded := rfl
@[simp] theorem State.complete_hostOps (s : State) : s.complete.hostOps = s.hostOps := rfl
@[simp] theorem State.complete_schedule (s : State) : s.complete.schedule = s.schedule := rfl
@[simp] theorem State.complete_holds (s : State) : s.complete.holds = s.holds := rfl
@[simp] theorem State.complete_hostRead (s : State) : s.complete.hostRead = s.hostRead := rfl
@[simp] theorem State.complete_draws (s : State) : s.complete.draws = s.draws := rfl

/-! ### The destination range drawn free -/

@[simp] theorem State.scrambleDst_ie (s : State) : s.scrambleDst.ie = s.ie := rfl
@[simp] theorem State.scrambleDst_cmd (s : State) : s.scrambleDst.cmd = s.cmd := rfl
@[simp] theorem State.scrambleDst_busy (s : State) : s.scrambleDst.busy = s.busy := rfl
@[simp] theorem State.scrambleDst_done (s : State) : s.scrambleDst.done = s.done := rfl
@[simp] theorem State.scrambleDst_dropped (s : State) : s.scrambleDst.dropped = s.dropped := rfl
@[simp] theorem State.scrambleDst_treeValid (s : State) : s.scrambleDst.treeValid = s.treeValid := rfl
@[simp] theorem State.scrambleDst_codesValid (s : State) : s.scrambleDst.codesValid = s.codesValid := rfl
@[simp] theorem State.scrambleDst_errCode (s : State) : s.scrambleDst.errCode = s.errCode := rfl
@[simp] theorem State.scrambleDst_errInfo (s : State) : s.scrambleDst.errInfo = s.errInfo := rfl
@[simp] theorem State.scrambleDst_srcAddr (s : State) : s.scrambleDst.srcAddr = s.srcAddr := rfl
@[simp] theorem State.scrambleDst_srcLen (s : State) : s.scrambleDst.srcLen = s.srcLen := rfl
@[simp] theorem State.scrambleDst_dstAddr (s : State) : s.scrambleDst.dstAddr = s.dstAddr := rfl
@[simp] theorem State.scrambleDst_dstCap (s : State) : s.scrambleDst.dstCap = s.dstCap := rfl
@[simp] theorem State.scrambleDst_outLen (s : State) : s.scrambleDst.outLen = s.outLen := rfl
@[simp] theorem State.scrambleDst_pad (s : State) : s.scrambleDst.pad = s.pad := rfl
@[simp] theorem State.scrambleDst_symCount (s : State) : s.scrambleDst.symCount = s.symCount := rfl
@[simp] theorem State.scrambleDst_maxLen (s : State) : s.scrambleDst.maxLen = s.maxLen := rfl
@[simp] theorem State.scrambleDst_root (s : State) : s.scrambleDst.root = s.root := rfl
@[simp] theorem State.scrambleDst_nodeCount (s : State) : s.scrambleDst.nodeCount = s.nodeCount := rfl
@[simp] theorem State.scrambleDst_payloadAddr (s : State) : s.scrambleDst.payloadAddr = s.payloadAddr := rfl
@[simp] theorem State.scrambleDst_payloadLen (s : State) : s.scrambleDst.payloadLen = s.payloadLen := rfl
@[simp] theorem State.scrambleDst_node (s : State) : s.scrambleDst.node = s.node := rfl
@[simp] theorem State.scrambleDst_freq (s : State) : s.scrambleDst.freq = s.freq := rfl
@[simp] theorem State.scrambleDst_codeLen (s : State) : s.scrambleDst.codeLen = s.codeLen := rfl
@[simp] theorem State.scrambleDst_codeBits (s : State) : s.scrambleDst.codeBits = s.codeBits := rfl
@[simp] theorem State.scrambleDst_denied (s : State) : s.scrambleDst.denied = s.denied := rfl
@[simp] theorem State.scrambleDst_unread (s : State) : s.scrambleDst.unread = s.unread := rfl
@[simp] theorem State.scrambleDst_guarded (s : State) : s.scrambleDst.guarded = s.guarded := rfl
@[simp] theorem State.scrambleDst_hostOps (s : State) : s.scrambleDst.hostOps = s.hostOps := rfl
@[simp] theorem State.scrambleDst_schedule (s : State) : s.scrambleDst.schedule = s.schedule := rfl
@[simp] theorem State.scrambleDst_holds (s : State) : s.scrambleDst.holds = s.holds := rfl
@[simp] theorem State.scrambleDst_hostRead (s : State) : s.scrambleDst.hostRead = s.hostRead := rfl
@[simp] theorem State.scrambleDst_draws (s : State) : s.scrambleDst.draws = s.draws + s.dstSpan := rfl

/-! ### CLEAR -/

@[simp] theorem clearTables_ie (s : State) : (clearTables s).ie = s.ie := rfl
@[simp] theorem clearTables_cmd (s : State) : (clearTables s).cmd = s.cmd := rfl
@[simp] theorem clearTables_busy (s : State) : (clearTables s).busy = s.busy := rfl
@[simp] theorem clearTables_done (s : State) : (clearTables s).done = s.done := rfl
@[simp] theorem clearTables_dropped (s : State) : (clearTables s).dropped = s.dropped := rfl
@[simp] theorem clearTables_treeValid (s : State) : (clearTables s).treeValid = false := rfl
@[simp] theorem clearTables_codesValid (s : State) : (clearTables s).codesValid = false := rfl
@[simp] theorem clearTables_errCode (s : State) : (clearTables s).errCode = s.errCode := rfl
@[simp] theorem clearTables_errInfo (s : State) : (clearTables s).errInfo = s.errInfo := rfl
@[simp] theorem clearTables_srcAddr (s : State) : (clearTables s).srcAddr = s.srcAddr := rfl
@[simp] theorem clearTables_srcLen (s : State) : (clearTables s).srcLen = s.srcLen := rfl
@[simp] theorem clearTables_dstAddr (s : State) : (clearTables s).dstAddr = s.dstAddr := rfl
@[simp] theorem clearTables_dstCap (s : State) : (clearTables s).dstCap = s.dstCap := rfl
@[simp] theorem clearTables_outLen (s : State) : (clearTables s).outLen = 0 := rfl
@[simp] theorem clearTables_pad (s : State) : (clearTables s).pad = 0 := rfl
@[simp] theorem clearTables_symCount (s : State) : (clearTables s).symCount = 0 := rfl
@[simp] theorem clearTables_maxLen (s : State) : (clearTables s).maxLen = 0 := rfl
@[simp] theorem clearTables_root (s : State) : (clearTables s).root = 0 := rfl
@[simp] theorem clearTables_nodeCount (s : State) : (clearTables s).nodeCount = 0 := rfl
@[simp] theorem clearTables_payloadAddr (s : State) : (clearTables s).payloadAddr = 0 := rfl
@[simp] theorem clearTables_payloadLen (s : State) : (clearTables s).payloadLen = 0 := rfl
@[simp] theorem clearTables_node (s : State) : (clearTables s).node = s.node := rfl
@[simp] theorem clearTables_freq (s : State) : (clearTables s).freq = Vector.replicate 256 0 := rfl
@[simp] theorem clearTables_codeLen (s : State) : (clearTables s).codeLen = s.codeLen := rfl
@[simp] theorem clearTables_codeBits (s : State) : (clearTables s).codeBits = s.codeBits := rfl
@[simp] theorem clearTables_mem (s : State) : (clearTables s).mem = s.mem := rfl
@[simp] theorem clearTables_denied (s : State) : (clearTables s).denied = s.denied := rfl
@[simp] theorem clearTables_unread (s : State) : (clearTables s).unread = s.unread := rfl
@[simp] theorem clearTables_guarded (s : State) : (clearTables s).guarded = s.guarded := rfl
@[simp] theorem clearTables_hostOps (s : State) : (clearTables s).hostOps = s.hostOps := rfl
@[simp] theorem clearTables_schedule (s : State) : (clearTables s).schedule = s.schedule := rfl
@[simp] theorem clearTables_holds (s : State) : (clearTables s).holds = s.holds := rfl
@[simp] theorem clearTables_hostRead (s : State) : (clearTables s).hostRead = s.hostRead := rfl
@[simp] theorem clearTables_draws (s : State) : (clearTables s).draws = s.draws := rfl

/-! ### The tree dropped -/

@[simp] theorem dropTree_ie (s : State) : (dropTree s).ie = s.ie := rfl
@[simp] theorem dropTree_cmd (s : State) : (dropTree s).cmd = s.cmd := rfl
@[simp] theorem dropTree_busy (s : State) : (dropTree s).busy = s.busy := rfl
@[simp] theorem dropTree_done (s : State) : (dropTree s).done = s.done := rfl
@[simp] theorem dropTree_dropped (s : State) : (dropTree s).dropped = s.dropped := rfl
@[simp] theorem dropTree_treeValid (s : State) : (dropTree s).treeValid = false := rfl
@[simp] theorem dropTree_codesValid (s : State) : (dropTree s).codesValid = s.codesValid := rfl
@[simp] theorem dropTree_errCode (s : State) : (dropTree s).errCode = s.errCode := rfl
@[simp] theorem dropTree_errInfo (s : State) : (dropTree s).errInfo = s.errInfo := rfl
@[simp] theorem dropTree_srcAddr (s : State) : (dropTree s).srcAddr = s.srcAddr := rfl
@[simp] theorem dropTree_srcLen (s : State) : (dropTree s).srcLen = s.srcLen := rfl
@[simp] theorem dropTree_dstAddr (s : State) : (dropTree s).dstAddr = s.dstAddr := rfl
@[simp] theorem dropTree_dstCap (s : State) : (dropTree s).dstCap = s.dstCap := rfl
@[simp] theorem dropTree_outLen (s : State) : (dropTree s).outLen = s.outLen := rfl
@[simp] theorem dropTree_pad (s : State) : (dropTree s).pad = s.pad := rfl
@[simp] theorem dropTree_symCount (s : State) : (dropTree s).symCount = s.symCount := rfl
@[simp] theorem dropTree_maxLen (s : State) : (dropTree s).maxLen = s.maxLen := rfl
@[simp] theorem dropTree_root (s : State) : (dropTree s).root = 0 := rfl
@[simp] theorem dropTree_nodeCount (s : State) : (dropTree s).nodeCount = 0 := rfl
@[simp] theorem dropTree_payloadAddr (s : State) : (dropTree s).payloadAddr = s.payloadAddr := rfl
@[simp] theorem dropTree_payloadLen (s : State) : (dropTree s).payloadLen = s.payloadLen := rfl
@[simp] theorem dropTree_node (s : State) : (dropTree s).node = s.node := rfl
@[simp] theorem dropTree_freq (s : State) : (dropTree s).freq = s.freq := rfl
@[simp] theorem dropTree_codeLen (s : State) : (dropTree s).codeLen = s.codeLen := rfl
@[simp] theorem dropTree_codeBits (s : State) : (dropTree s).codeBits = s.codeBits := rfl
@[simp] theorem dropTree_mem (s : State) : (dropTree s).mem = s.mem := rfl
@[simp] theorem dropTree_denied (s : State) : (dropTree s).denied = s.denied := rfl
@[simp] theorem dropTree_unread (s : State) : (dropTree s).unread = s.unread := rfl
@[simp] theorem dropTree_guarded (s : State) : (dropTree s).guarded = s.guarded := rfl
@[simp] theorem dropTree_hostOps (s : State) : (dropTree s).hostOps = s.hostOps := rfl
@[simp] theorem dropTree_schedule (s : State) : (dropTree s).schedule = s.schedule := rfl
@[simp] theorem dropTree_holds (s : State) : (dropTree s).holds = s.holds := rfl
@[simp] theorem dropTree_hostRead (s : State) : (dropTree s).hostRead = s.hostRead := rfl
@[simp] theorem dropTree_draws (s : State) : (dropTree s).draws = s.draws := rfl

/-! ### A tree built -/

@[simp] theorem setTree_ie (s : State) (t : Vector Node 511) (act : List Nat) (nx : Nat) : (setTree s t act nx).ie = s.ie := rfl
@[simp] theorem setTree_cmd (s : State) (t : Vector Node 511) (act : List Nat) (nx : Nat) : (setTree s t act nx).cmd = s.cmd := rfl
@[simp] theorem setTree_busy (s : State) (t : Vector Node 511) (act : List Nat) (nx : Nat) : (setTree s t act nx).busy = s.busy := rfl
@[simp] theorem setTree_done (s : State) (t : Vector Node 511) (act : List Nat) (nx : Nat) : (setTree s t act nx).done = s.done := rfl
@[simp] theorem setTree_dropped (s : State) (t : Vector Node 511) (act : List Nat) (nx : Nat) : (setTree s t act nx).dropped = s.dropped := rfl
@[simp] theorem setTree_treeValid (s : State) (t : Vector Node 511) (act : List Nat) (nx : Nat) : (setTree s t act nx).treeValid = true := rfl
@[simp] theorem setTree_codesValid (s : State) (t : Vector Node 511) (act : List Nat) (nx : Nat) : (setTree s t act nx).codesValid = s.codesValid := rfl
@[simp] theorem setTree_errCode (s : State) (t : Vector Node 511) (act : List Nat) (nx : Nat) : (setTree s t act nx).errCode = s.errCode := rfl
@[simp] theorem setTree_errInfo (s : State) (t : Vector Node 511) (act : List Nat) (nx : Nat) : (setTree s t act nx).errInfo = s.errInfo := rfl
@[simp] theorem setTree_srcAddr (s : State) (t : Vector Node 511) (act : List Nat) (nx : Nat) : (setTree s t act nx).srcAddr = s.srcAddr := rfl
@[simp] theorem setTree_srcLen (s : State) (t : Vector Node 511) (act : List Nat) (nx : Nat) : (setTree s t act nx).srcLen = s.srcLen := rfl
@[simp] theorem setTree_dstAddr (s : State) (t : Vector Node 511) (act : List Nat) (nx : Nat) : (setTree s t act nx).dstAddr = s.dstAddr := rfl
@[simp] theorem setTree_dstCap (s : State) (t : Vector Node 511) (act : List Nat) (nx : Nat) : (setTree s t act nx).dstCap = s.dstCap := rfl
@[simp] theorem setTree_outLen (s : State) (t : Vector Node 511) (act : List Nat) (nx : Nat) : (setTree s t act nx).outLen = s.outLen := rfl
@[simp] theorem setTree_pad (s : State) (t : Vector Node 511) (act : List Nat) (nx : Nat) : (setTree s t act nx).pad = s.pad := rfl
@[simp] theorem setTree_symCount (s : State) (t : Vector Node 511) (act : List Nat) (nx : Nat) : (setTree s t act nx).symCount = s.symCount := rfl
@[simp] theorem setTree_maxLen (s : State) (t : Vector Node 511) (act : List Nat) (nx : Nat) : (setTree s t act nx).maxLen = s.maxLen := rfl
@[simp] theorem setTree_root (s : State) (t : Vector Node 511) (act : List Nat) (nx : Nat) : (setTree s t act nx).root = BitVec.ofNat 9 (act.headD 0) := rfl
@[simp] theorem setTree_nodeCount (s : State) (t : Vector Node 511) (act : List Nat) (nx : Nat) : (setTree s t act nx).nodeCount = BitVec.ofNat 10 nx := rfl
@[simp] theorem setTree_payloadAddr (s : State) (t : Vector Node 511) (act : List Nat) (nx : Nat) : (setTree s t act nx).payloadAddr = s.payloadAddr := rfl
@[simp] theorem setTree_payloadLen (s : State) (t : Vector Node 511) (act : List Nat) (nx : Nat) : (setTree s t act nx).payloadLen = s.payloadLen := rfl
@[simp] theorem setTree_node (s : State) (t : Vector Node 511) (act : List Nat) (nx : Nat) : (setTree s t act nx).node = t := rfl
@[simp] theorem setTree_freq (s : State) (t : Vector Node 511) (act : List Nat) (nx : Nat) : (setTree s t act nx).freq = s.freq := rfl
@[simp] theorem setTree_codeLen (s : State) (t : Vector Node 511) (act : List Nat) (nx : Nat) : (setTree s t act nx).codeLen = s.codeLen := rfl
@[simp] theorem setTree_codeBits (s : State) (t : Vector Node 511) (act : List Nat) (nx : Nat) : (setTree s t act nx).codeBits = s.codeBits := rfl
@[simp] theorem setTree_mem (s : State) (t : Vector Node 511) (act : List Nat) (nx : Nat) : (setTree s t act nx).mem = s.mem := rfl
@[simp] theorem setTree_denied (s : State) (t : Vector Node 511) (act : List Nat) (nx : Nat) : (setTree s t act nx).denied = s.denied := rfl
@[simp] theorem setTree_unread (s : State) (t : Vector Node 511) (act : List Nat) (nx : Nat) : (setTree s t act nx).unread = s.unread := rfl
@[simp] theorem setTree_guarded (s : State) (t : Vector Node 511) (act : List Nat) (nx : Nat) : (setTree s t act nx).guarded = s.guarded := rfl
@[simp] theorem setTree_hostOps (s : State) (t : Vector Node 511) (act : List Nat) (nx : Nat) : (setTree s t act nx).hostOps = s.hostOps := rfl
@[simp] theorem setTree_schedule (s : State) (t : Vector Node 511) (act : List Nat) (nx : Nat) : (setTree s t act nx).schedule = s.schedule := rfl
@[simp] theorem setTree_holds (s : State) (t : Vector Node 511) (act : List Nat) (nx : Nat) : (setTree s t act nx).holds = s.holds := rfl
@[simp] theorem setTree_hostRead (s : State) (t : Vector Node 511) (act : List Nat) (nx : Nat) : (setTree s t act nx).hostRead = s.hostRead := rfl
@[simp] theorem setTree_draws (s : State) (t : Vector Node 511) (act : List Nat) (nx : Nat) : (setTree s t act nx).draws = s.draws := rfl

/-! ### Codes assigned -/

@[simp] theorem setCodes_ie (s : State) (p : Vector (Option Bits) 256) : (setCodes s p).ie = s.ie := rfl
@[simp] theorem setCodes_cmd (s : State) (p : Vector (Option Bits) 256) : (setCodes s p).cmd = s.cmd := rfl
@[simp] theorem setCodes_busy (s : State) (p : Vector (Option Bits) 256) : (setCodes s p).busy = s.busy := rfl
@[simp] theorem setCodes_done (s : State) (p : Vector (Option Bits) 256) : (setCodes s p).done = s.done := rfl
@[simp] theorem setCodes_dropped (s : State) (p : Vector (Option Bits) 256) : (setCodes s p).dropped = s.dropped := rfl
@[simp] theorem setCodes_treeValid (s : State) (p : Vector (Option Bits) 256) : (setCodes s p).treeValid = false := rfl
@[simp] theorem setCodes_codesValid (s : State) (p : Vector (Option Bits) 256) : (setCodes s p).codesValid = true := rfl
@[simp] theorem setCodes_errCode (s : State) (p : Vector (Option Bits) 256) : (setCodes s p).errCode = s.errCode := rfl
@[simp] theorem setCodes_errInfo (s : State) (p : Vector (Option Bits) 256) : (setCodes s p).errInfo = s.errInfo := rfl
@[simp] theorem setCodes_srcAddr (s : State) (p : Vector (Option Bits) 256) : (setCodes s p).srcAddr = s.srcAddr := rfl
@[simp] theorem setCodes_srcLen (s : State) (p : Vector (Option Bits) 256) : (setCodes s p).srcLen = s.srcLen := rfl
@[simp] theorem setCodes_dstAddr (s : State) (p : Vector (Option Bits) 256) : (setCodes s p).dstAddr = s.dstAddr := rfl
@[simp] theorem setCodes_dstCap (s : State) (p : Vector (Option Bits) 256) : (setCodes s p).dstCap = s.dstCap := rfl
@[simp] theorem setCodes_outLen (s : State) (p : Vector (Option Bits) 256) : (setCodes s p).outLen = s.outLen := rfl
@[simp] theorem setCodes_pad (s : State) (p : Vector (Option Bits) 256) : (setCodes s p).pad = s.pad := rfl
@[simp] theorem setCodes_root (s : State) (p : Vector (Option Bits) 256) : (setCodes s p).root = 0 := rfl
@[simp] theorem setCodes_nodeCount (s : State) (p : Vector (Option Bits) 256) : (setCodes s p).nodeCount = 0 := rfl
@[simp] theorem setCodes_payloadAddr (s : State) (p : Vector (Option Bits) 256) : (setCodes s p).payloadAddr = s.payloadAddr := rfl
@[simp] theorem setCodes_payloadLen (s : State) (p : Vector (Option Bits) 256) : (setCodes s p).payloadLen = s.payloadLen := rfl
@[simp] theorem setCodes_node (s : State) (p : Vector (Option Bits) 256) : (setCodes s p).node = s.node := rfl
@[simp] theorem setCodes_freq (s : State) (p : Vector (Option Bits) 256) : (setCodes s p).freq = s.freq := rfl
@[simp] theorem setCodes_mem (s : State) (p : Vector (Option Bits) 256) : (setCodes s p).mem = s.mem := rfl
@[simp] theorem setCodes_denied (s : State) (p : Vector (Option Bits) 256) : (setCodes s p).denied = s.denied := rfl
@[simp] theorem setCodes_unread (s : State) (p : Vector (Option Bits) 256) : (setCodes s p).unread = s.unread := rfl
@[simp] theorem setCodes_guarded (s : State) (p : Vector (Option Bits) 256) : (setCodes s p).guarded = s.guarded := rfl
@[simp] theorem setCodes_hostOps (s : State) (p : Vector (Option Bits) 256) : (setCodes s p).hostOps = s.hostOps := rfl
@[simp] theorem setCodes_schedule (s : State) (p : Vector (Option Bits) 256) : (setCodes s p).schedule = s.schedule := rfl
@[simp] theorem setCodes_holds (s : State) (p : Vector (Option Bits) 256) : (setCodes s p).holds = s.holds := rfl
@[simp] theorem setCodes_hostRead (s : State) (p : Vector (Option Bits) 256) : (setCodes s p).hostRead = s.hostRead := rfl
@[simp] theorem setCodes_draws (s : State) (p : Vector (Option Bits) 256) : (setCodes s p).draws = s.draws := rfl

/-! ### Packed bytes -/

@[simp] theorem setPacked_ie (s : State) (k : Sink) (p : Nat) : (setPacked s k p).ie = s.ie := rfl
@[simp] theorem setPacked_cmd (s : State) (k : Sink) (p : Nat) : (setPacked s k p).cmd = s.cmd := rfl
@[simp] theorem setPacked_busy (s : State) (k : Sink) (p : Nat) : (setPacked s k p).busy = s.busy := rfl
@[simp] theorem setPacked_done (s : State) (k : Sink) (p : Nat) : (setPacked s k p).done = s.done := rfl
@[simp] theorem setPacked_dropped (s : State) (k : Sink) (p : Nat) : (setPacked s k p).dropped = s.dropped := rfl
@[simp] theorem setPacked_treeValid (s : State) (k : Sink) (p : Nat) : (setPacked s k p).treeValid = s.treeValid := rfl
@[simp] theorem setPacked_codesValid (s : State) (k : Sink) (p : Nat) : (setPacked s k p).codesValid = s.codesValid := rfl
@[simp] theorem setPacked_errCode (s : State) (k : Sink) (p : Nat) : (setPacked s k p).errCode = s.errCode := rfl
@[simp] theorem setPacked_errInfo (s : State) (k : Sink) (p : Nat) : (setPacked s k p).errInfo = s.errInfo := rfl
@[simp] theorem setPacked_srcAddr (s : State) (k : Sink) (p : Nat) : (setPacked s k p).srcAddr = s.srcAddr := rfl
@[simp] theorem setPacked_srcLen (s : State) (k : Sink) (p : Nat) : (setPacked s k p).srcLen = s.srcLen := rfl
@[simp] theorem setPacked_dstAddr (s : State) (k : Sink) (p : Nat) : (setPacked s k p).dstAddr = s.dstAddr := rfl
@[simp] theorem setPacked_dstCap (s : State) (k : Sink) (p : Nat) : (setPacked s k p).dstCap = s.dstCap := rfl
@[simp] theorem setPacked_outLen (s : State) (k : Sink) (p : Nat) : (setPacked s k p).outLen = BitVec.ofNat 32 k.out := rfl
@[simp] theorem setPacked_pad (s : State) (k : Sink) (p : Nat) : (setPacked s k p).pad = BitVec.ofNat 3 p := rfl
@[simp] theorem setPacked_symCount (s : State) (k : Sink) (p : Nat) : (setPacked s k p).symCount = s.symCount := rfl
@[simp] theorem setPacked_maxLen (s : State) (k : Sink) (p : Nat) : (setPacked s k p).maxLen = s.maxLen := rfl
@[simp] theorem setPacked_root (s : State) (k : Sink) (p : Nat) : (setPacked s k p).root = s.root := rfl
@[simp] theorem setPacked_nodeCount (s : State) (k : Sink) (p : Nat) : (setPacked s k p).nodeCount = s.nodeCount := rfl
@[simp] theorem setPacked_payloadAddr (s : State) (k : Sink) (p : Nat) : (setPacked s k p).payloadAddr = s.payloadAddr := rfl
@[simp] theorem setPacked_payloadLen (s : State) (k : Sink) (p : Nat) : (setPacked s k p).payloadLen = s.payloadLen := rfl
@[simp] theorem setPacked_node (s : State) (k : Sink) (p : Nat) : (setPacked s k p).node = s.node := rfl
@[simp] theorem setPacked_freq (s : State) (k : Sink) (p : Nat) : (setPacked s k p).freq = s.freq := rfl
@[simp] theorem setPacked_codeLen (s : State) (k : Sink) (p : Nat) : (setPacked s k p).codeLen = s.codeLen := rfl
@[simp] theorem setPacked_codeBits (s : State) (k : Sink) (p : Nat) : (setPacked s k p).codeBits = s.codeBits := rfl
@[simp] theorem setPacked_mem (s : State) (k : Sink) (p : Nat) : (setPacked s k p).mem = k.mem := rfl
@[simp] theorem setPacked_denied (s : State) (k : Sink) (p : Nat) : (setPacked s k p).denied = s.denied := rfl
@[simp] theorem setPacked_unread (s : State) (k : Sink) (p : Nat) : (setPacked s k p).unread = s.unread := rfl
@[simp] theorem setPacked_guarded (s : State) (k : Sink) (p : Nat) : (setPacked s k p).guarded = s.guarded := rfl
@[simp] theorem setPacked_hostOps (s : State) (k : Sink) (p : Nat) : (setPacked s k p).hostOps = s.hostOps := rfl
@[simp] theorem setPacked_schedule (s : State) (k : Sink) (p : Nat) : (setPacked s k p).schedule = s.schedule := rfl
@[simp] theorem setPacked_holds (s : State) (k : Sink) (p : Nat) : (setPacked s k p).holds = s.holds := rfl
@[simp] theorem setPacked_hostRead (s : State) (k : Sink) (p : Nat) : (setPacked s k p).hostRead = s.hostRead := rfl
@[simp] theorem setPacked_draws (s : State) (k : Sink) (p : Nat) : (setPacked s k p).draws = s.draws := rfl

/-! ### Unpacked bytes -/

@[simp] theorem setUnpacked_ie (s : State) (k : Sink) : (setUnpacked s k).ie = s.ie := rfl
@[simp] theorem setUnpacked_cmd (s : State) (k : Sink) : (setUnpacked s k).cmd = s.cmd := rfl
@[simp] theorem setUnpacked_busy (s : State) (k : Sink) : (setUnpacked s k).busy = s.busy := rfl
@[simp] theorem setUnpacked_done (s : State) (k : Sink) : (setUnpacked s k).done = s.done := rfl
@[simp] theorem setUnpacked_dropped (s : State) (k : Sink) : (setUnpacked s k).dropped = s.dropped := rfl
@[simp] theorem setUnpacked_treeValid (s : State) (k : Sink) : (setUnpacked s k).treeValid = s.treeValid := rfl
@[simp] theorem setUnpacked_codesValid (s : State) (k : Sink) : (setUnpacked s k).codesValid = s.codesValid := rfl
@[simp] theorem setUnpacked_errCode (s : State) (k : Sink) : (setUnpacked s k).errCode = s.errCode := rfl
@[simp] theorem setUnpacked_errInfo (s : State) (k : Sink) : (setUnpacked s k).errInfo = s.errInfo := rfl
@[simp] theorem setUnpacked_srcAddr (s : State) (k : Sink) : (setUnpacked s k).srcAddr = s.srcAddr := rfl
@[simp] theorem setUnpacked_srcLen (s : State) (k : Sink) : (setUnpacked s k).srcLen = s.srcLen := rfl
@[simp] theorem setUnpacked_dstAddr (s : State) (k : Sink) : (setUnpacked s k).dstAddr = s.dstAddr := rfl
@[simp] theorem setUnpacked_dstCap (s : State) (k : Sink) : (setUnpacked s k).dstCap = s.dstCap := rfl
@[simp] theorem setUnpacked_outLen (s : State) (k : Sink) : (setUnpacked s k).outLen = BitVec.ofNat 32 k.out := rfl
@[simp] theorem setUnpacked_pad (s : State) (k : Sink) : (setUnpacked s k).pad = s.pad := rfl
@[simp] theorem setUnpacked_symCount (s : State) (k : Sink) : (setUnpacked s k).symCount = s.symCount := rfl
@[simp] theorem setUnpacked_maxLen (s : State) (k : Sink) : (setUnpacked s k).maxLen = s.maxLen := rfl
@[simp] theorem setUnpacked_root (s : State) (k : Sink) : (setUnpacked s k).root = s.root := rfl
@[simp] theorem setUnpacked_nodeCount (s : State) (k : Sink) : (setUnpacked s k).nodeCount = s.nodeCount := rfl
@[simp] theorem setUnpacked_payloadAddr (s : State) (k : Sink) : (setUnpacked s k).payloadAddr = s.payloadAddr := rfl
@[simp] theorem setUnpacked_payloadLen (s : State) (k : Sink) : (setUnpacked s k).payloadLen = s.payloadLen := rfl
@[simp] theorem setUnpacked_node (s : State) (k : Sink) : (setUnpacked s k).node = s.node := rfl
@[simp] theorem setUnpacked_freq (s : State) (k : Sink) : (setUnpacked s k).freq = s.freq := rfl
@[simp] theorem setUnpacked_codeLen (s : State) (k : Sink) : (setUnpacked s k).codeLen = s.codeLen := rfl
@[simp] theorem setUnpacked_codeBits (s : State) (k : Sink) : (setUnpacked s k).codeBits = s.codeBits := rfl
@[simp] theorem setUnpacked_mem (s : State) (k : Sink) : (setUnpacked s k).mem = k.mem := rfl
@[simp] theorem setUnpacked_denied (s : State) (k : Sink) : (setUnpacked s k).denied = s.denied := rfl
@[simp] theorem setUnpacked_unread (s : State) (k : Sink) : (setUnpacked s k).unread = s.unread := rfl
@[simp] theorem setUnpacked_guarded (s : State) (k : Sink) : (setUnpacked s k).guarded = s.guarded := rfl
@[simp] theorem setUnpacked_hostOps (s : State) (k : Sink) : (setUnpacked s k).hostOps = s.hostOps := rfl
@[simp] theorem setUnpacked_schedule (s : State) (k : Sink) : (setUnpacked s k).schedule = s.schedule := rfl
@[simp] theorem setUnpacked_holds (s : State) (k : Sink) : (setUnpacked s k).holds = s.holds := rfl
@[simp] theorem setUnpacked_hostRead (s : State) (k : Sink) : (setUnpacked s k).hostRead = s.hostRead := rfl
@[simp] theorem setUnpacked_draws (s : State) (k : Sink) : (setUnpacked s k).draws = s.draws := rfl

/-! ### A container written -/

@[simp] theorem setSerialized_ie (s : State) (k : Sink) : (setSerialized s k).ie = s.ie := rfl
@[simp] theorem setSerialized_cmd (s : State) (k : Sink) : (setSerialized s k).cmd = s.cmd := rfl
@[simp] theorem setSerialized_busy (s : State) (k : Sink) : (setSerialized s k).busy = s.busy := rfl
@[simp] theorem setSerialized_done (s : State) (k : Sink) : (setSerialized s k).done = s.done := rfl
@[simp] theorem setSerialized_dropped (s : State) (k : Sink) : (setSerialized s k).dropped = s.dropped := rfl
@[simp] theorem setSerialized_treeValid (s : State) (k : Sink) : (setSerialized s k).treeValid = s.treeValid := rfl
@[simp] theorem setSerialized_codesValid (s : State) (k : Sink) : (setSerialized s k).codesValid = s.codesValid := rfl
@[simp] theorem setSerialized_errCode (s : State) (k : Sink) : (setSerialized s k).errCode = s.errCode := rfl
@[simp] theorem setSerialized_errInfo (s : State) (k : Sink) : (setSerialized s k).errInfo = s.errInfo := rfl
@[simp] theorem setSerialized_srcAddr (s : State) (k : Sink) : (setSerialized s k).srcAddr = s.srcAddr := rfl
@[simp] theorem setSerialized_srcLen (s : State) (k : Sink) : (setSerialized s k).srcLen = s.srcLen := rfl
@[simp] theorem setSerialized_dstAddr (s : State) (k : Sink) : (setSerialized s k).dstAddr = s.dstAddr := rfl
@[simp] theorem setSerialized_dstCap (s : State) (k : Sink) : (setSerialized s k).dstCap = s.dstCap := rfl
@[simp] theorem setSerialized_outLen (s : State) (k : Sink) : (setSerialized s k).outLen = BitVec.ofNat 32 s.containerSize := rfl
@[simp] theorem setSerialized_pad (s : State) (k : Sink) : (setSerialized s k).pad = s.pad := rfl
@[simp] theorem setSerialized_symCount (s : State) (k : Sink) : (setSerialized s k).symCount = s.symCount := rfl
@[simp] theorem setSerialized_maxLen (s : State) (k : Sink) : (setSerialized s k).maxLen = s.maxLen := rfl
@[simp] theorem setSerialized_root (s : State) (k : Sink) : (setSerialized s k).root = s.root := rfl
@[simp] theorem setSerialized_nodeCount (s : State) (k : Sink) : (setSerialized s k).nodeCount = s.nodeCount := rfl
@[simp] theorem setSerialized_payloadAddr (s : State) (k : Sink) : (setSerialized s k).payloadAddr = s.payloadAddr := rfl
@[simp] theorem setSerialized_payloadLen (s : State) (k : Sink) : (setSerialized s k).payloadLen = s.payloadLen := rfl
@[simp] theorem setSerialized_node (s : State) (k : Sink) : (setSerialized s k).node = s.node := rfl
@[simp] theorem setSerialized_freq (s : State) (k : Sink) : (setSerialized s k).freq = s.freq := rfl
@[simp] theorem setSerialized_codeLen (s : State) (k : Sink) : (setSerialized s k).codeLen = s.codeLen := rfl
@[simp] theorem setSerialized_codeBits (s : State) (k : Sink) : (setSerialized s k).codeBits = s.codeBits := rfl
@[simp] theorem setSerialized_mem (s : State) (k : Sink) : (setSerialized s k).mem = k.mem := rfl
@[simp] theorem setSerialized_denied (s : State) (k : Sink) : (setSerialized s k).denied = s.denied := rfl
@[simp] theorem setSerialized_unread (s : State) (k : Sink) : (setSerialized s k).unread = s.unread := rfl
@[simp] theorem setSerialized_guarded (s : State) (k : Sink) : (setSerialized s k).guarded = s.guarded := rfl
@[simp] theorem setSerialized_hostOps (s : State) (k : Sink) : (setSerialized s k).hostOps = s.hostOps := rfl
@[simp] theorem setSerialized_schedule (s : State) (k : Sink) : (setSerialized s k).schedule = s.schedule := rfl
@[simp] theorem setSerialized_holds (s : State) (k : Sink) : (setSerialized s k).holds = s.holds := rfl
@[simp] theorem setSerialized_hostRead (s : State) (k : Sink) : (setSerialized s k).hostRead = s.hostRead := rfl
@[simp] theorem setSerialized_draws (s : State) (k : Sink) : (setSerialized s k).draws = s.draws := rfl

/-! ### A container parsed -/

@[simp] theorem setContainer_ie (s : State) (n : Nat) (t : List Byte) : (setContainer s n t).ie = s.ie := rfl
@[simp] theorem setContainer_cmd (s : State) (n : Nat) (t : List Byte) : (setContainer s n t).cmd = s.cmd := rfl
@[simp] theorem setContainer_busy (s : State) (n : Nat) (t : List Byte) : (setContainer s n t).busy = s.busy := rfl
@[simp] theorem setContainer_done (s : State) (n : Nat) (t : List Byte) : (setContainer s n t).done = s.done := rfl
@[simp] theorem setContainer_dropped (s : State) (n : Nat) (t : List Byte) : (setContainer s n t).dropped = s.dropped := rfl
@[simp] theorem setContainer_treeValid (s : State) (n : Nat) (t : List Byte) : (setContainer s n t).treeValid = s.treeValid := rfl
@[simp] theorem setContainer_codesValid (s : State) (n : Nat) (t : List Byte) : (setContainer s n t).codesValid = true := rfl
@[simp] theorem setContainer_errCode (s : State) (n : Nat) (t : List Byte) : (setContainer s n t).errCode = s.errCode := rfl
@[simp] theorem setContainer_errInfo (s : State) (n : Nat) (t : List Byte) : (setContainer s n t).errInfo = s.errInfo := rfl
@[simp] theorem setContainer_srcAddr (s : State) (n : Nat) (t : List Byte) : (setContainer s n t).srcAddr = s.srcAddr := rfl
@[simp] theorem setContainer_srcLen (s : State) (n : Nat) (t : List Byte) : (setContainer s n t).srcLen = s.srcLen := rfl
@[simp] theorem setContainer_dstAddr (s : State) (n : Nat) (t : List Byte) : (setContainer s n t).dstAddr = s.dstAddr := rfl
@[simp] theorem setContainer_dstCap (s : State) (n : Nat) (t : List Byte) : (setContainer s n t).dstCap = s.dstCap := rfl
@[simp] theorem setContainer_outLen (s : State) (n : Nat) (t : List Byte) : (setContainer s n t).outLen = s.outLen := rfl
@[simp] theorem setContainer_pad (s : State) (n : Nat) (t : List Byte) : (setContainer s n t).pad = (containerPad n t).setWidth 3 := rfl
@[simp] theorem setContainer_symCount (s : State) (n : Nat) (t : List Byte) : (setContainer s n t).symCount = BitVec.ofNat 9 n := rfl
@[simp] theorem setContainer_root (s : State) (n : Nat) (t : List Byte) : (setContainer s n t).root = s.root := rfl
@[simp] theorem setContainer_nodeCount (s : State) (n : Nat) (t : List Byte) : (setContainer s n t).nodeCount = s.nodeCount := rfl
@[simp] theorem setContainer_payloadAddr (s : State) (n : Nat) (t : List Byte) : (setContainer s n t).payloadAddr = s.payloadAddrFor n := rfl
@[simp] theorem setContainer_node (s : State) (n : Nat) (t : List Byte) : (setContainer s n t).node = s.node := rfl
@[simp] theorem setContainer_freq (s : State) (n : Nat) (t : List Byte) : (setContainer s n t).freq = s.freq := rfl
@[simp] theorem setContainer_mem (s : State) (n : Nat) (t : List Byte) : (setContainer s n t).mem = s.mem := rfl
@[simp] theorem setContainer_denied (s : State) (n : Nat) (t : List Byte) : (setContainer s n t).denied = s.denied := rfl
@[simp] theorem setContainer_unread (s : State) (n : Nat) (t : List Byte) : (setContainer s n t).unread = s.unread := rfl
@[simp] theorem setContainer_guarded (s : State) (n : Nat) (t : List Byte) : (setContainer s n t).guarded = s.guarded := rfl
@[simp] theorem setContainer_hostOps (s : State) (n : Nat) (t : List Byte) : (setContainer s n t).hostOps = s.hostOps := rfl
@[simp] theorem setContainer_schedule (s : State) (n : Nat) (t : List Byte) : (setContainer s n t).schedule = s.schedule := rfl
@[simp] theorem setContainer_holds (s : State) (n : Nat) (t : List Byte) : (setContainer s n t).holds = s.holds := rfl
@[simp] theorem setContainer_hostRead (s : State) (n : Nat) (t : List Byte) : (setContainer s n t).hostRead = s.hostRead := rfl
@[simp] theorem setContainer_draws (s : State) (n : Nat) (t : List Byte) : (setContainer s n t).draws = s.draws := rfl

/-! ### The code table dropped -/

@[simp] theorem dropCodes_ie (s : State) : (dropCodes s).ie = s.ie := rfl
@[simp] theorem dropCodes_cmd (s : State) : (dropCodes s).cmd = s.cmd := rfl
@[simp] theorem dropCodes_busy (s : State) : (dropCodes s).busy = s.busy := rfl
@[simp] theorem dropCodes_done (s : State) : (dropCodes s).done = s.done := rfl
@[simp] theorem dropCodes_dropped (s : State) : (dropCodes s).dropped = s.dropped := rfl
@[simp] theorem dropCodes_treeValid (s : State) : (dropCodes s).treeValid = s.treeValid := rfl
@[simp] theorem dropCodes_codesValid (s : State) : (dropCodes s).codesValid = false := rfl
@[simp] theorem dropCodes_errCode (s : State) : (dropCodes s).errCode = s.errCode := rfl
@[simp] theorem dropCodes_errInfo (s : State) : (dropCodes s).errInfo = s.errInfo := rfl
@[simp] theorem dropCodes_srcAddr (s : State) : (dropCodes s).srcAddr = s.srcAddr := rfl
@[simp] theorem dropCodes_srcLen (s : State) : (dropCodes s).srcLen = s.srcLen := rfl
@[simp] theorem dropCodes_dstAddr (s : State) : (dropCodes s).dstAddr = s.dstAddr := rfl
@[simp] theorem dropCodes_dstCap (s : State) : (dropCodes s).dstCap = s.dstCap := rfl
@[simp] theorem dropCodes_outLen (s : State) : (dropCodes s).outLen = s.outLen := rfl
@[simp] theorem dropCodes_pad (s : State) : (dropCodes s).pad = s.pad := rfl
@[simp] theorem dropCodes_symCount (s : State) : (dropCodes s).symCount = 0 := rfl
@[simp] theorem dropCodes_maxLen (s : State) : (dropCodes s).maxLen = 0 := rfl
@[simp] theorem dropCodes_root (s : State) : (dropCodes s).root = s.root := rfl
@[simp] theorem dropCodes_nodeCount (s : State) : (dropCodes s).nodeCount = s.nodeCount := rfl
@[simp] theorem dropCodes_payloadAddr (s : State) : (dropCodes s).payloadAddr = 0 := rfl
@[simp] theorem dropCodes_payloadLen (s : State) : (dropCodes s).payloadLen = 0 := rfl
@[simp] theorem dropCodes_node (s : State) : (dropCodes s).node = s.node := rfl
@[simp] theorem dropCodes_freq (s : State) : (dropCodes s).freq = s.freq := rfl
@[simp] theorem dropCodes_codeLen (s : State) : (dropCodes s).codeLen = s.codeLen := rfl
@[simp] theorem dropCodes_codeBits (s : State) : (dropCodes s).codeBits = s.codeBits := rfl
@[simp] theorem dropCodes_mem (s : State) : (dropCodes s).mem = s.mem := rfl
@[simp] theorem dropCodes_denied (s : State) : (dropCodes s).denied = s.denied := rfl
@[simp] theorem dropCodes_unread (s : State) : (dropCodes s).unread = s.unread := rfl
@[simp] theorem dropCodes_guarded (s : State) : (dropCodes s).guarded = s.guarded := rfl
@[simp] theorem dropCodes_hostOps (s : State) : (dropCodes s).hostOps = s.hostOps := rfl
@[simp] theorem dropCodes_schedule (s : State) : (dropCodes s).schedule = s.schedule := rfl
@[simp] theorem dropCodes_holds (s : State) : (dropCodes s).holds = s.holds := rfl
@[simp] theorem dropCodes_hostRead (s : State) : (dropCodes s).hostRead = s.hostRead := rfl
@[simp] theorem dropCodes_draws (s : State) : (dropCodes s).draws = s.draws := rfl

/-! ### A write to STATUS -/

@[simp] theorem State.clearStatus_ie (s : State) (v : Word) : (s.clearStatus v).ie = s.ie := rfl
@[simp] theorem State.clearStatus_cmd (s : State) (v : Word) : (s.clearStatus v).cmd = s.cmd := rfl
@[simp] theorem State.clearStatus_busy (s : State) (v : Word) : (s.clearStatus v).busy = s.busy := rfl
@[simp] theorem State.clearStatus_done (s : State) (v : Word) : (s.clearStatus v).done = (s.done && !v.getLsbD 1) := rfl
@[simp] theorem State.clearStatus_dropped (s : State) (v : Word) : (s.clearStatus v).dropped = (s.dropped && !v.getLsbD 3) := rfl
@[simp] theorem State.clearStatus_treeValid (s : State) (v : Word) : (s.clearStatus v).treeValid = s.treeValid := rfl
@[simp] theorem State.clearStatus_codesValid (s : State) (v : Word) : (s.clearStatus v).codesValid = s.codesValid := rfl
@[simp] theorem State.clearStatus_errCode (s : State) (v : Word) : (s.clearStatus v).errCode = s.errCode := rfl
@[simp] theorem State.clearStatus_errInfo (s : State) (v : Word) : (s.clearStatus v).errInfo = s.errInfo := rfl
@[simp] theorem State.clearStatus_srcAddr (s : State) (v : Word) : (s.clearStatus v).srcAddr = s.srcAddr := rfl
@[simp] theorem State.clearStatus_srcLen (s : State) (v : Word) : (s.clearStatus v).srcLen = s.srcLen := rfl
@[simp] theorem State.clearStatus_dstAddr (s : State) (v : Word) : (s.clearStatus v).dstAddr = s.dstAddr := rfl
@[simp] theorem State.clearStatus_dstCap (s : State) (v : Word) : (s.clearStatus v).dstCap = s.dstCap := rfl
@[simp] theorem State.clearStatus_outLen (s : State) (v : Word) : (s.clearStatus v).outLen = s.outLen := rfl
@[simp] theorem State.clearStatus_pad (s : State) (v : Word) : (s.clearStatus v).pad = s.pad := rfl
@[simp] theorem State.clearStatus_symCount (s : State) (v : Word) : (s.clearStatus v).symCount = s.symCount := rfl
@[simp] theorem State.clearStatus_maxLen (s : State) (v : Word) : (s.clearStatus v).maxLen = s.maxLen := rfl
@[simp] theorem State.clearStatus_root (s : State) (v : Word) : (s.clearStatus v).root = s.root := rfl
@[simp] theorem State.clearStatus_nodeCount (s : State) (v : Word) : (s.clearStatus v).nodeCount = s.nodeCount := rfl
@[simp] theorem State.clearStatus_payloadAddr (s : State) (v : Word) : (s.clearStatus v).payloadAddr = s.payloadAddr := rfl
@[simp] theorem State.clearStatus_payloadLen (s : State) (v : Word) : (s.clearStatus v).payloadLen = s.payloadLen := rfl
@[simp] theorem State.clearStatus_node (s : State) (v : Word) : (s.clearStatus v).node = s.node := rfl
@[simp] theorem State.clearStatus_freq (s : State) (v : Word) : (s.clearStatus v).freq = s.freq := rfl
@[simp] theorem State.clearStatus_codeLen (s : State) (v : Word) : (s.clearStatus v).codeLen = s.codeLen := rfl
@[simp] theorem State.clearStatus_codeBits (s : State) (v : Word) : (s.clearStatus v).codeBits = s.codeBits := rfl
@[simp] theorem State.clearStatus_mem (s : State) (v : Word) : (s.clearStatus v).mem = s.mem := rfl
@[simp] theorem State.clearStatus_denied (s : State) (v : Word) : (s.clearStatus v).denied = s.denied := rfl
@[simp] theorem State.clearStatus_unread (s : State) (v : Word) : (s.clearStatus v).unread = s.unread := rfl
@[simp] theorem State.clearStatus_guarded (s : State) (v : Word) : (s.clearStatus v).guarded = s.guarded := rfl
@[simp] theorem State.clearStatus_hostOps (s : State) (v : Word) : (s.clearStatus v).hostOps = s.hostOps := rfl
@[simp] theorem State.clearStatus_schedule (s : State) (v : Word) : (s.clearStatus v).schedule = s.schedule := rfl
@[simp] theorem State.clearStatus_holds (s : State) (v : Word) : (s.clearStatus v).holds = s.holds := rfl
@[simp] theorem State.clearStatus_hostRead (s : State) (v : Word) : (s.clearStatus v).hostRead = s.hostRead := rfl
@[simp] theorem State.clearStatus_draws (s : State) (v : Word) : (s.clearStatus v).draws = s.draws := rfl

/-! ### Acceptance -/

@[simp] theorem State.accept_ie (s : State) (w : Word) : (s.accept w).ie = s.ie := rfl
@[simp] theorem State.accept_cmd (s : State) (w : Word) : (s.accept w).cmd = w := rfl
@[simp] theorem State.accept_busy (s : State) (w : Word) : (s.accept w).busy = true := rfl
@[simp] theorem State.accept_done (s : State) (w : Word) : (s.accept w).done = false := rfl
@[simp] theorem State.accept_dropped (s : State) (w : Word) : (s.accept w).dropped = false := rfl
@[simp] theorem State.accept_treeValid (s : State) (w : Word) : (s.accept w).treeValid = s.treeValid := rfl
@[simp] theorem State.accept_codesValid (s : State) (w : Word) : (s.accept w).codesValid = s.codesValid := rfl
@[simp] theorem State.accept_errCode (s : State) (w : Word) : (s.accept w).errCode = 0 := rfl
@[simp] theorem State.accept_errInfo (s : State) (w : Word) : (s.accept w).errInfo = 0 := rfl
@[simp] theorem State.accept_srcAddr (s : State) (w : Word) : (s.accept w).srcAddr = s.srcAddr := rfl
@[simp] theorem State.accept_srcLen (s : State) (w : Word) : (s.accept w).srcLen = s.srcLen := rfl
@[simp] theorem State.accept_dstAddr (s : State) (w : Word) : (s.accept w).dstAddr = s.dstAddr := rfl
@[simp] theorem State.accept_dstCap (s : State) (w : Word) : (s.accept w).dstCap = s.dstCap := rfl
@[simp] theorem State.accept_outLen (s : State) (w : Word) : (s.accept w).outLen = s.outLen := rfl
@[simp] theorem State.accept_pad (s : State) (w : Word) : (s.accept w).pad = s.pad := rfl
@[simp] theorem State.accept_symCount (s : State) (w : Word) : (s.accept w).symCount = s.symCount := rfl
@[simp] theorem State.accept_maxLen (s : State) (w : Word) : (s.accept w).maxLen = s.maxLen := rfl
@[simp] theorem State.accept_root (s : State) (w : Word) : (s.accept w).root = s.root := rfl
@[simp] theorem State.accept_nodeCount (s : State) (w : Word) : (s.accept w).nodeCount = s.nodeCount := rfl
@[simp] theorem State.accept_payloadAddr (s : State) (w : Word) : (s.accept w).payloadAddr = s.payloadAddr := rfl
@[simp] theorem State.accept_payloadLen (s : State) (w : Word) : (s.accept w).payloadLen = s.payloadLen := rfl
@[simp] theorem State.accept_node (s : State) (w : Word) : (s.accept w).node = s.node := rfl
@[simp] theorem State.accept_freq (s : State) (w : Word) : (s.accept w).freq = s.freq := rfl
@[simp] theorem State.accept_codeLen (s : State) (w : Word) : (s.accept w).codeLen = s.codeLen := rfl
@[simp] theorem State.accept_codeBits (s : State) (w : Word) : (s.accept w).codeBits = s.codeBits := rfl
@[simp] theorem State.accept_mem (s : State) (w : Word) : (s.accept w).mem = s.mem := rfl
@[simp] theorem State.accept_denied (s : State) (w : Word) : (s.accept w).denied = s.denied := rfl
@[simp] theorem State.accept_unread (s : State) (w : Word) : (s.accept w).unread = true := rfl
@[simp] theorem State.accept_guarded (s : State) (w : Word) : (s.accept w).guarded = s.rangesOfWord w ++ s.guarded := rfl
@[simp] theorem State.accept_hostOps (s : State) (w : Word) : (s.accept w).hostOps = s.hostOps := rfl
@[simp] theorem State.accept_schedule (s : State) (w : Word) : (s.accept w).schedule = s.schedule.tail := rfl
@[simp] theorem State.accept_holds (s : State) (w : Word) : (s.accept w).holds = s.schedule.headD 0 := rfl
@[simp] theorem State.accept_hostRead (s : State) (w : Word) : (s.accept w).hostRead = s.hostRead := rfl
@[simp] theorem State.accept_draws (s : State) (w : Word) : (s.accept w).draws = s.draws := rfl

/-! ### A dropped write -/

@[simp] theorem State.dropWrite_ie (s : State) : s.dropWrite.ie = s.ie := rfl
@[simp] theorem State.dropWrite_cmd (s : State) : s.dropWrite.cmd = s.cmd := rfl
@[simp] theorem State.dropWrite_busy (s : State) : s.dropWrite.busy = s.busy := rfl
@[simp] theorem State.dropWrite_done (s : State) : s.dropWrite.done = s.done := rfl
@[simp] theorem State.dropWrite_dropped (s : State) : s.dropWrite.dropped = true := rfl
@[simp] theorem State.dropWrite_treeValid (s : State) : s.dropWrite.treeValid = s.treeValid := rfl
@[simp] theorem State.dropWrite_codesValid (s : State) : s.dropWrite.codesValid = s.codesValid := rfl
@[simp] theorem State.dropWrite_errCode (s : State) : s.dropWrite.errCode = s.errCode := rfl
@[simp] theorem State.dropWrite_errInfo (s : State) : s.dropWrite.errInfo = s.errInfo := rfl
@[simp] theorem State.dropWrite_srcAddr (s : State) : s.dropWrite.srcAddr = s.srcAddr := rfl
@[simp] theorem State.dropWrite_srcLen (s : State) : s.dropWrite.srcLen = s.srcLen := rfl
@[simp] theorem State.dropWrite_dstAddr (s : State) : s.dropWrite.dstAddr = s.dstAddr := rfl
@[simp] theorem State.dropWrite_dstCap (s : State) : s.dropWrite.dstCap = s.dstCap := rfl
@[simp] theorem State.dropWrite_outLen (s : State) : s.dropWrite.outLen = s.outLen := rfl
@[simp] theorem State.dropWrite_pad (s : State) : s.dropWrite.pad = s.pad := rfl
@[simp] theorem State.dropWrite_symCount (s : State) : s.dropWrite.symCount = s.symCount := rfl
@[simp] theorem State.dropWrite_maxLen (s : State) : s.dropWrite.maxLen = s.maxLen := rfl
@[simp] theorem State.dropWrite_root (s : State) : s.dropWrite.root = s.root := rfl
@[simp] theorem State.dropWrite_nodeCount (s : State) : s.dropWrite.nodeCount = s.nodeCount := rfl
@[simp] theorem State.dropWrite_payloadAddr (s : State) : s.dropWrite.payloadAddr = s.payloadAddr := rfl
@[simp] theorem State.dropWrite_payloadLen (s : State) : s.dropWrite.payloadLen = s.payloadLen := rfl
@[simp] theorem State.dropWrite_node (s : State) : s.dropWrite.node = s.node := rfl
@[simp] theorem State.dropWrite_freq (s : State) : s.dropWrite.freq = s.freq := rfl
@[simp] theorem State.dropWrite_codeLen (s : State) : s.dropWrite.codeLen = s.codeLen := rfl
@[simp] theorem State.dropWrite_codeBits (s : State) : s.dropWrite.codeBits = s.codeBits := rfl
@[simp] theorem State.dropWrite_mem (s : State) : s.dropWrite.mem = s.mem := rfl
@[simp] theorem State.dropWrite_denied (s : State) : s.dropWrite.denied = s.denied := rfl
@[simp] theorem State.dropWrite_unread (s : State) : s.dropWrite.unread = s.unread := rfl
@[simp] theorem State.dropWrite_guarded (s : State) : s.dropWrite.guarded = s.guarded := rfl
@[simp] theorem State.dropWrite_hostOps (s : State) : s.dropWrite.hostOps = s.hostOps := rfl
@[simp] theorem State.dropWrite_schedule (s : State) : s.dropWrite.schedule = s.schedule := rfl
@[simp] theorem State.dropWrite_holds (s : State) : s.dropWrite.holds = s.holds := rfl
@[simp] theorem State.dropWrite_hostRead (s : State) : s.dropWrite.hostRead = s.hostRead := rfl
@[simp] theorem State.dropWrite_draws (s : State) : s.dropWrite.draws = s.draws := rfl

/-! ### A host operation taken -/

@[simp] theorem State.popHost_ie (s : State) (ops : List HostOp) : (s.popHost ops).ie = s.ie := rfl
@[simp] theorem State.popHost_cmd (s : State) (ops : List HostOp) : (s.popHost ops).cmd = s.cmd := rfl
@[simp] theorem State.popHost_busy (s : State) (ops : List HostOp) : (s.popHost ops).busy = s.busy := rfl
@[simp] theorem State.popHost_done (s : State) (ops : List HostOp) : (s.popHost ops).done = s.done := rfl
@[simp] theorem State.popHost_dropped (s : State) (ops : List HostOp) : (s.popHost ops).dropped = s.dropped := rfl
@[simp] theorem State.popHost_treeValid (s : State) (ops : List HostOp) : (s.popHost ops).treeValid = s.treeValid := rfl
@[simp] theorem State.popHost_codesValid (s : State) (ops : List HostOp) : (s.popHost ops).codesValid = s.codesValid := rfl
@[simp] theorem State.popHost_errCode (s : State) (ops : List HostOp) : (s.popHost ops).errCode = s.errCode := rfl
@[simp] theorem State.popHost_errInfo (s : State) (ops : List HostOp) : (s.popHost ops).errInfo = s.errInfo := rfl
@[simp] theorem State.popHost_srcAddr (s : State) (ops : List HostOp) : (s.popHost ops).srcAddr = s.srcAddr := rfl
@[simp] theorem State.popHost_srcLen (s : State) (ops : List HostOp) : (s.popHost ops).srcLen = s.srcLen := rfl
@[simp] theorem State.popHost_dstAddr (s : State) (ops : List HostOp) : (s.popHost ops).dstAddr = s.dstAddr := rfl
@[simp] theorem State.popHost_dstCap (s : State) (ops : List HostOp) : (s.popHost ops).dstCap = s.dstCap := rfl
@[simp] theorem State.popHost_outLen (s : State) (ops : List HostOp) : (s.popHost ops).outLen = s.outLen := rfl
@[simp] theorem State.popHost_pad (s : State) (ops : List HostOp) : (s.popHost ops).pad = s.pad := rfl
@[simp] theorem State.popHost_symCount (s : State) (ops : List HostOp) : (s.popHost ops).symCount = s.symCount := rfl
@[simp] theorem State.popHost_maxLen (s : State) (ops : List HostOp) : (s.popHost ops).maxLen = s.maxLen := rfl
@[simp] theorem State.popHost_root (s : State) (ops : List HostOp) : (s.popHost ops).root = s.root := rfl
@[simp] theorem State.popHost_nodeCount (s : State) (ops : List HostOp) : (s.popHost ops).nodeCount = s.nodeCount := rfl
@[simp] theorem State.popHost_payloadAddr (s : State) (ops : List HostOp) : (s.popHost ops).payloadAddr = s.payloadAddr := rfl
@[simp] theorem State.popHost_payloadLen (s : State) (ops : List HostOp) : (s.popHost ops).payloadLen = s.payloadLen := rfl
@[simp] theorem State.popHost_node (s : State) (ops : List HostOp) : (s.popHost ops).node = s.node := rfl
@[simp] theorem State.popHost_freq (s : State) (ops : List HostOp) : (s.popHost ops).freq = s.freq := rfl
@[simp] theorem State.popHost_codeLen (s : State) (ops : List HostOp) : (s.popHost ops).codeLen = s.codeLen := rfl
@[simp] theorem State.popHost_codeBits (s : State) (ops : List HostOp) : (s.popHost ops).codeBits = s.codeBits := rfl
@[simp] theorem State.popHost_mem (s : State) (ops : List HostOp) : (s.popHost ops).mem = s.mem := rfl
@[simp] theorem State.popHost_denied (s : State) (ops : List HostOp) : (s.popHost ops).denied = s.denied := rfl
@[simp] theorem State.popHost_unread (s : State) (ops : List HostOp) : (s.popHost ops).unread = s.unread := rfl
@[simp] theorem State.popHost_guarded (s : State) (ops : List HostOp) : (s.popHost ops).guarded = s.guarded := rfl
@[simp] theorem State.popHost_hostOps (s : State) (ops : List HostOp) : (s.popHost ops).hostOps = ops := rfl
@[simp] theorem State.popHost_schedule (s : State) (ops : List HostOp) : (s.popHost ops).schedule = s.schedule := rfl
@[simp] theorem State.popHost_holds (s : State) (ops : List HostOp) : (s.popHost ops).holds = s.holds - 1 := rfl
@[simp] theorem State.popHost_hostRead (s : State) (ops : List HostOp) : (s.popHost ops).hostRead = s.hostRead := rfl
@[simp] theorem State.popHost_draws (s : State) (ops : List HostOp) : (s.popHost ops).draws = s.draws := rfl

/-! ### A value returned to the host -/

@[simp] theorem State.hostGets_ie (s : State) (v : Word) : (s.hostGets v).ie = s.ie := rfl
@[simp] theorem State.hostGets_cmd (s : State) (v : Word) : (s.hostGets v).cmd = s.cmd := rfl
@[simp] theorem State.hostGets_busy (s : State) (v : Word) : (s.hostGets v).busy = s.busy := rfl
@[simp] theorem State.hostGets_done (s : State) (v : Word) : (s.hostGets v).done = s.done := rfl
@[simp] theorem State.hostGets_dropped (s : State) (v : Word) : (s.hostGets v).dropped = s.dropped := rfl
@[simp] theorem State.hostGets_treeValid (s : State) (v : Word) : (s.hostGets v).treeValid = s.treeValid := rfl
@[simp] theorem State.hostGets_codesValid (s : State) (v : Word) : (s.hostGets v).codesValid = s.codesValid := rfl
@[simp] theorem State.hostGets_errCode (s : State) (v : Word) : (s.hostGets v).errCode = s.errCode := rfl
@[simp] theorem State.hostGets_errInfo (s : State) (v : Word) : (s.hostGets v).errInfo = s.errInfo := rfl
@[simp] theorem State.hostGets_srcAddr (s : State) (v : Word) : (s.hostGets v).srcAddr = s.srcAddr := rfl
@[simp] theorem State.hostGets_srcLen (s : State) (v : Word) : (s.hostGets v).srcLen = s.srcLen := rfl
@[simp] theorem State.hostGets_dstAddr (s : State) (v : Word) : (s.hostGets v).dstAddr = s.dstAddr := rfl
@[simp] theorem State.hostGets_dstCap (s : State) (v : Word) : (s.hostGets v).dstCap = s.dstCap := rfl
@[simp] theorem State.hostGets_outLen (s : State) (v : Word) : (s.hostGets v).outLen = s.outLen := rfl
@[simp] theorem State.hostGets_pad (s : State) (v : Word) : (s.hostGets v).pad = s.pad := rfl
@[simp] theorem State.hostGets_symCount (s : State) (v : Word) : (s.hostGets v).symCount = s.symCount := rfl
@[simp] theorem State.hostGets_maxLen (s : State) (v : Word) : (s.hostGets v).maxLen = s.maxLen := rfl
@[simp] theorem State.hostGets_root (s : State) (v : Word) : (s.hostGets v).root = s.root := rfl
@[simp] theorem State.hostGets_nodeCount (s : State) (v : Word) : (s.hostGets v).nodeCount = s.nodeCount := rfl
@[simp] theorem State.hostGets_payloadAddr (s : State) (v : Word) : (s.hostGets v).payloadAddr = s.payloadAddr := rfl
@[simp] theorem State.hostGets_payloadLen (s : State) (v : Word) : (s.hostGets v).payloadLen = s.payloadLen := rfl
@[simp] theorem State.hostGets_node (s : State) (v : Word) : (s.hostGets v).node = s.node := rfl
@[simp] theorem State.hostGets_freq (s : State) (v : Word) : (s.hostGets v).freq = s.freq := rfl
@[simp] theorem State.hostGets_codeLen (s : State) (v : Word) : (s.hostGets v).codeLen = s.codeLen := rfl
@[simp] theorem State.hostGets_codeBits (s : State) (v : Word) : (s.hostGets v).codeBits = s.codeBits := rfl
@[simp] theorem State.hostGets_mem (s : State) (v : Word) : (s.hostGets v).mem = s.mem := rfl
@[simp] theorem State.hostGets_denied (s : State) (v : Word) : (s.hostGets v).denied = s.denied := rfl
@[simp] theorem State.hostGets_unread (s : State) (v : Word) : (s.hostGets v).unread = s.unread := rfl
@[simp] theorem State.hostGets_guarded (s : State) (v : Word) : (s.hostGets v).guarded = s.guarded := rfl
@[simp] theorem State.hostGets_hostOps (s : State) (v : Word) : (s.hostGets v).hostOps = s.hostOps := rfl
@[simp] theorem State.hostGets_schedule (s : State) (v : Word) : (s.hostGets v).schedule = s.schedule := rfl
@[simp] theorem State.hostGets_holds (s : State) (v : Word) : (s.hostGets v).holds = s.holds := rfl
@[simp] theorem State.hostGets_hostRead (s : State) (v : Word) : (s.hostGets v).hostRead = v := rfl
@[simp] theorem State.hostGets_draws (s : State) (v : Word) : (s.hostGets v).draws = s.draws := rfl

/-! ### A read of STATUS -/

@[simp] theorem State.seeStatus_ie (s : State) : s.seeStatus.ie = s.ie := by unfold State.seeStatus; split <;> rfl
@[simp] theorem State.seeStatus_cmd (s : State) : s.seeStatus.cmd = s.cmd := by unfold State.seeStatus; split <;> rfl
@[simp] theorem State.seeStatus_busy (s : State) : s.seeStatus.busy = s.busy := by unfold State.seeStatus; split <;> rfl
@[simp] theorem State.seeStatus_done (s : State) : s.seeStatus.done = s.done := by unfold State.seeStatus; split <;> rfl
@[simp] theorem State.seeStatus_dropped (s : State) : s.seeStatus.dropped = s.dropped := by unfold State.seeStatus; split <;> rfl
@[simp] theorem State.seeStatus_treeValid (s : State) : s.seeStatus.treeValid = s.treeValid := by unfold State.seeStatus; split <;> rfl
@[simp] theorem State.seeStatus_codesValid (s : State) : s.seeStatus.codesValid = s.codesValid := by unfold State.seeStatus; split <;> rfl
@[simp] theorem State.seeStatus_errCode (s : State) : s.seeStatus.errCode = s.errCode := by unfold State.seeStatus; split <;> rfl
@[simp] theorem State.seeStatus_errInfo (s : State) : s.seeStatus.errInfo = s.errInfo := by unfold State.seeStatus; split <;> rfl
@[simp] theorem State.seeStatus_srcAddr (s : State) : s.seeStatus.srcAddr = s.srcAddr := by unfold State.seeStatus; split <;> rfl
@[simp] theorem State.seeStatus_srcLen (s : State) : s.seeStatus.srcLen = s.srcLen := by unfold State.seeStatus; split <;> rfl
@[simp] theorem State.seeStatus_dstAddr (s : State) : s.seeStatus.dstAddr = s.dstAddr := by unfold State.seeStatus; split <;> rfl
@[simp] theorem State.seeStatus_dstCap (s : State) : s.seeStatus.dstCap = s.dstCap := by unfold State.seeStatus; split <;> rfl
@[simp] theorem State.seeStatus_outLen (s : State) : s.seeStatus.outLen = s.outLen := by unfold State.seeStatus; split <;> rfl
@[simp] theorem State.seeStatus_pad (s : State) : s.seeStatus.pad = s.pad := by unfold State.seeStatus; split <;> rfl
@[simp] theorem State.seeStatus_symCount (s : State) : s.seeStatus.symCount = s.symCount := by unfold State.seeStatus; split <;> rfl
@[simp] theorem State.seeStatus_maxLen (s : State) : s.seeStatus.maxLen = s.maxLen := by unfold State.seeStatus; split <;> rfl
@[simp] theorem State.seeStatus_root (s : State) : s.seeStatus.root = s.root := by unfold State.seeStatus; split <;> rfl
@[simp] theorem State.seeStatus_nodeCount (s : State) : s.seeStatus.nodeCount = s.nodeCount := by unfold State.seeStatus; split <;> rfl
@[simp] theorem State.seeStatus_payloadAddr (s : State) : s.seeStatus.payloadAddr = s.payloadAddr := by unfold State.seeStatus; split <;> rfl
@[simp] theorem State.seeStatus_payloadLen (s : State) : s.seeStatus.payloadLen = s.payloadLen := by unfold State.seeStatus; split <;> rfl
@[simp] theorem State.seeStatus_node (s : State) : s.seeStatus.node = s.node := by unfold State.seeStatus; split <;> rfl
@[simp] theorem State.seeStatus_freq (s : State) : s.seeStatus.freq = s.freq := by unfold State.seeStatus; split <;> rfl
@[simp] theorem State.seeStatus_codeLen (s : State) : s.seeStatus.codeLen = s.codeLen := by unfold State.seeStatus; split <;> rfl
@[simp] theorem State.seeStatus_codeBits (s : State) : s.seeStatus.codeBits = s.codeBits := by unfold State.seeStatus; split <;> rfl
@[simp] theorem State.seeStatus_mem (s : State) : s.seeStatus.mem = s.mem := by unfold State.seeStatus; split <;> rfl
@[simp] theorem State.seeStatus_denied (s : State) : s.seeStatus.denied = s.denied := by unfold State.seeStatus; split <;> rfl
@[simp] theorem State.seeStatus_hostOps (s : State) : s.seeStatus.hostOps = s.hostOps := by unfold State.seeStatus; split <;> rfl
@[simp] theorem State.seeStatus_schedule (s : State) : s.seeStatus.schedule = s.schedule := by unfold State.seeStatus; split <;> rfl
@[simp] theorem State.seeStatus_holds (s : State) : s.seeStatus.holds = s.holds := by unfold State.seeStatus; split <;> rfl
@[simp] theorem State.seeStatus_hostRead (s : State) : s.seeStatus.hostRead = s.hostRead := by unfold State.seeStatus; split <;> rfl
@[simp] theorem State.seeStatus_draws (s : State) : s.seeStatus.draws = s.draws := by unfold State.seeStatus; split <;> rfl

/-- While a command runs a read of STATUS settles nothing. -/
theorem State.seeStatus_busy_eq {s : State} (h : s.busy = true) : s.seeStatus = s := by unfold State.seeStatus; rw [if_pos h]

/-- A read that shows BUSY = 0 settles everything. -/
theorem State.seeStatus_idle_eq {s : State} (h : s.busy = false) :
    s.seeStatus = { s with unread := false, guarded := [] } := by
  unfold State.seeStatus; rw [if_neg (by simp [h])]

/-! ### A raised error -/

@[simp] theorem State.fail_ie (s : State) (r : Raise) : (s.fail r).ie = s.ie := by unfold State.fail; split <;> rfl
@[simp] theorem State.fail_cmd (s : State) (r : Raise) : (s.fail r).cmd = s.cmd := by unfold State.fail; split <;> rfl
@[simp] theorem State.fail_busy (s : State) (r : Raise) : (s.fail r).busy = false := by unfold State.fail; split <;> rfl
@[simp] theorem State.fail_done (s : State) (r : Raise) : (s.fail r).done = true := by unfold State.fail; split <;> rfl
@[simp] theorem State.fail_dropped (s : State) (r : Raise) : (s.fail r).dropped = s.dropped := by unfold State.fail; split <;> rfl
@[simp] theorem State.fail_treeValid (s : State) (r : Raise) : (s.fail r).treeValid = s.treeValid := by unfold State.fail; split <;> rfl
@[simp] theorem State.fail_codesValid (s : State) (r : Raise) : (s.fail r).codesValid = s.codesValid := by unfold State.fail; split <;> rfl
@[simp] theorem State.fail_errCode (s : State) (r : Raise) : (s.fail r).errCode = r.name.code := by unfold State.fail; split <;> rfl
@[simp] theorem State.fail_errInfo (s : State) (r : Raise) : (s.fail r).errInfo = r.info := by unfold State.fail; split <;> rfl
@[simp] theorem State.fail_srcAddr (s : State) (r : Raise) : (s.fail r).srcAddr = s.srcAddr := by unfold State.fail; split <;> rfl
@[simp] theorem State.fail_srcLen (s : State) (r : Raise) : (s.fail r).srcLen = s.srcLen := by unfold State.fail; split <;> rfl
@[simp] theorem State.fail_dstAddr (s : State) (r : Raise) : (s.fail r).dstAddr = s.dstAddr := by unfold State.fail; split <;> rfl
@[simp] theorem State.fail_dstCap (s : State) (r : Raise) : (s.fail r).dstCap = s.dstCap := by unfold State.fail; split <;> rfl
@[simp] theorem State.fail_outLen (s : State) (r : Raise) : (s.fail r).outLen = 0 := by unfold State.fail; split <;> rfl
@[simp] theorem State.fail_pad (s : State) (r : Raise) : (s.fail r).pad = s.pad := by unfold State.fail; split <;> rfl
@[simp] theorem State.fail_symCount (s : State) (r : Raise) : (s.fail r).symCount = s.symCount := by unfold State.fail; split <;> rfl
@[simp] theorem State.fail_maxLen (s : State) (r : Raise) : (s.fail r).maxLen = s.maxLen := by unfold State.fail; split <;> rfl
@[simp] theorem State.fail_root (s : State) (r : Raise) : (s.fail r).root = s.root := by unfold State.fail; split <;> rfl
@[simp] theorem State.fail_nodeCount (s : State) (r : Raise) : (s.fail r).nodeCount = s.nodeCount := by unfold State.fail; split <;> rfl
@[simp] theorem State.fail_payloadAddr (s : State) (r : Raise) : (s.fail r).payloadAddr = s.payloadAddr := by unfold State.fail; split <;> rfl
@[simp] theorem State.fail_payloadLen (s : State) (r : Raise) : (s.fail r).payloadLen = s.payloadLen := by unfold State.fail; split <;> rfl
@[simp] theorem State.fail_node (s : State) (r : Raise) : (s.fail r).node = s.node := by unfold State.fail; split <;> rfl
@[simp] theorem State.fail_freq (s : State) (r : Raise) : (s.fail r).freq = s.freq := by unfold State.fail; split <;> rfl
@[simp] theorem State.fail_codeLen (s : State) (r : Raise) : (s.fail r).codeLen = s.codeLen := by unfold State.fail; split <;> rfl
@[simp] theorem State.fail_codeBits (s : State) (r : Raise) : (s.fail r).codeBits = s.codeBits := by unfold State.fail; split <;> rfl
@[simp] theorem State.fail_denied (s : State) (r : Raise) : (s.fail r).denied = s.denied := by unfold State.fail; split <;> rfl
@[simp] theorem State.fail_unread (s : State) (r : Raise) : (s.fail r).unread = s.unread := by unfold State.fail; split <;> rfl
@[simp] theorem State.fail_guarded (s : State) (r : Raise) : (s.fail r).guarded = s.guarded := by unfold State.fail; split <;> rfl
@[simp] theorem State.fail_hostOps (s : State) (r : Raise) : (s.fail r).hostOps = s.hostOps := by unfold State.fail; split <;> rfl
@[simp] theorem State.fail_schedule (s : State) (r : Raise) : (s.fail r).schedule = s.schedule := by unfold State.fail; split <;> rfl
@[simp] theorem State.fail_holds (s : State) (r : Raise) : (s.fail r).holds = s.holds := by unfold State.fail; split <;> rfl
@[simp] theorem State.fail_hostRead (s : State) (r : Raise) : (s.fail r).hostRead = s.hostRead := by unfold State.fail; split <;> rfl

/-- An error before the first write leaves memory as it was. -/
theorem State.fail_mem_unwritten {s : State} {r : Raise} (h : r.written = 0) : (s.fail r).mem = s.mem := by
  unfold State.fail; rw [if_pos h]; rfl

/-- An error after a write leaves the destination range drawn free. -/
theorem State.fail_mem_written {s : State} {r : Raise} (h : r.written ≠ 0) : (s.fail r).mem = s.scrambleDst.mem := by
  unfold State.fail; rw [if_neg h]; rfl

end Sys2Proof.Machine
end

