-- ==== Sys2Proof/Laws/Tables.lean ====
section
/-! SUPPORT. Laws of the 256-entry tables, of the arena and of the list of all symbols. -/

namespace Sys2Proof.Machine

/-! ### The symbols -/

theorem allSymbols_length : allSymbols.length = 256 := by simp [allSymbols]

theorem allSymbols_getElem (i : Nat) (h : i < allSymbols.length) : allSymbols[i] = BitVec.ofNat 8 i := by
  simp [allSymbols]

@[simp] theorem mem_allSymbols (b : Byte) : b ∈ allSymbols := by
  simp only [allSymbols, List.mem_map, List.mem_range]
  exact ⟨b.toNat, b.isLt, by simp⟩

theorem allSymbols_nodup : allSymbols.Nodup := by
  refine List.Nodup.map_on (fun x hx y hy hxy => ?_) List.nodup_range
  simp only [List.mem_range] at hx hy
  have h := congrArg BitVec.toNat hxy
  simp only [BitVec.toNat_ofNat] at h
  omega

/-! ### Tables -/

variable {α : Type}

@[simp] theorem tabGet_tabSet_same (t : Vector α 256) (b : Byte) (v : α) : tabGet (tabSet t b v) b = v := by
  simp [tabGet, tabSet]

theorem tabGet_tabSet (t : Vector α 256) (b c : Byte) (v : α) :
    tabGet (tabSet t b v) c = if c = b then v else tabGet t c := by
  by_cases h : c = b
  · simp [h]
  · have hn : b.toNat ≠ c.toNat := fun e => h (BitVec.eq_of_toNat_eq e.symm)
    simp [tabGet, tabSet, h, Vector.getElem_set_ne, hn]

theorem tabGet_tabSet_other {t : Vector α 256} {b c : Byte} {v : α} (h : c ≠ b) :
    tabGet (tabSet t b v) c = tabGet t c := by simp [tabGet_tabSet, h]

@[simp] theorem tabGet_replicate (v : α) (b : Byte) : tabGet (Vector.replicate 256 v) b = v := by simp [tabGet]

@[simp] theorem tabGet_tabulate (f : Byte → α) (b : Byte) : tabGet (tabulate f) b = f b := by
  simp only [tabGet, tabulate, Vector.getElem_mk, List.getElem_toArray, List.getElem_map, allSymbols_getElem]
  simp

/-- Two tables with equal entries are equal. -/
theorem tab_ext {t u : Vector α 256} (h : ∀ b, tabGet t b = tabGet u b) : t = u := by
  ext i hi
  have := h (BitVec.ofNat 8 i)
  have e : (BitVec.ofNat 8 i).toNat = i := by simp; omega
  simpa [tabGet, e] using this

/-! ### The arena -/

theorem nodeAt_nodeSet (t : Vector Node 511) (i j : Nat) (x : Node) (h : i < 511) :
    nodeAt (nodeSet t i x) j = if j = i then x else nodeAt t j := by
  by_cases hj : j = i
  · subst hj
    simp [nodeAt, nodeSet, h]
  · simp [nodeAt, nodeSet, hj, Ne.symm hj]

theorem nodeAt_nodeSet_same {t : Vector Node 511} {i : Nat} {x : Node} (h : i < 511) :
    nodeAt (nodeSet t i x) i = x := by simp [nodeAt_nodeSet _ _ _ _ h]

theorem nodeAt_nodeSet_other {t : Vector Node 511} {i j : Nat} {x : Node} (h : j ≠ i) :
    nodeAt (nodeSet t i x) j = nodeAt t j := by
  simp [nodeAt, nodeSet, Ne.symm h]

/-! ### The largest value over all symbols -/

theorem foldl_max_le {l : List Nat} {a n : Nat} : l.foldl max a ≤ n ↔ a ≤ n ∧ ∀ x ∈ l, x ≤ n := by
  induction l generalizing a with
  | nil => simp
  | cons x xs ih => simp [ih, and_assoc]

theorem largest_le {f : Byte → Nat} {n : Nat} : largest f ≤ n ↔ ∀ b, f b ≤ n := by
  simp only [largest, foldl_max_le, List.mem_map]
  exact ⟨fun h b => h.2 _ ⟨b, mem_allSymbols b, rfl⟩, fun h => ⟨Nat.zero_le n, by rintro _ ⟨b, -, rfl⟩; exact h b⟩⟩

theorem le_largest (f : Byte → Nat) (b : Byte) : f b ≤ largest f := largest_le.1 (Nat.le_refl _) b

end Sys2Proof.Machine
end

