-- ==== Sys2Proof/Laws/Tree.lean ====
section
/-! SUPPORT. The tree BUILD_TREE makes: the key order, the choice of the least nodes, and the loop's invariant, from which
the shape of the tree follows (40_table_build.md R110 to R114). -/

namespace Sys2Proof.Machine

/-! ### The key order (40_table_build.md R111) -/

theorem keyLess_iff {t : Vector Node 511} {i j : Nat} : keyLess t i j = true ↔
    (nodeAt t i).freq.toNat < (nodeAt t j).freq.toNat ∨
      ((nodeAt t i).freq.toNat = (nodeAt t j).freq.toNat ∧
        ((nodeAt t i).rank < (nodeAt t j).rank ∨ ((nodeAt t i).rank = (nodeAt t j).rank ∧ i < j))) := by
  simp [keyLess, ← BitVec.toNat_inj]

theorem keyLess_total {t : Vector Node 511} {i j : Nat} (h : i ≠ j) (hn : keyLess t i j = false) :
    keyLess t j i = true := by
  have hn' : ¬keyLess t i j = true := by simp [hn]
  rw [keyLess_iff] at hn' ⊢
  omega

theorem keyLess_trans {t : Vector Node 511} {i j k : Nat} (h : keyLess t i j = true) (h' : keyLess t j k = true) :
    keyLess t i k = true := by
  rw [keyLess_iff] at *
  omega

/-- The least of a list is in it, and its key is less than that of every other member. -/
theorem leastOf_spec (t : Vector Node 511) (m : Nat) (l : List Nat) :
    leastOf t m l ∈ m :: l ∧ ∀ i ∈ m :: l, i ≠ leastOf t m l → keyLess t (leastOf t m l) i = true := by
  induction l generalizing m with
  | nil => simp [leastOf]
  | cons x xs ih =>
    simp only [leastOf]
    split
    · next hx =>
      obtain ⟨h1, h2⟩ := ih x
      refine ⟨List.mem_cons_of_mem m h1, fun i hi hne => ?_⟩
      rcases List.mem_cons.1 hi with rfl | hi
      · by_cases hxl : x = leastOf t x xs
        · rw [← hxl]; exact hx
        · exact keyLess_trans (h2 x (by simp) hxl) hx
      · exact h2 i hi hne
    · next hx =>
      obtain ⟨h1, h2⟩ := ih m
      refine ⟨?_, fun i hi hne => ?_⟩
      · rcases List.mem_cons.1 h1 with h | h
        · rw [h]; simp
        · simp [h]
      · rcases List.mem_cons.1 hi with rfl | hi
        · exact h2 i (by simp) hne
        · rcases List.mem_cons.1 hi with rfl | hi
          · by_cases him : i = m
            · subst him; exact h2 i (by simp) hne
            · have hmi := keyLess_total him (by simpa using hx)
              by_cases hml : m = leastOf t m xs
              · rw [← hml]; exact hmi
              · exact keyLess_trans (h2 m (by simp) hml) hmi
          · exact h2 i (by simp [hi]) hne

theorem takeLeast_spec {t : Vector Node 511} {l r : List Nat} {a : Nat} (h : takeLeast t l = some (a, r)) :
    a ∈ l ∧ r = l.erase a ∧ ∀ i ∈ l, i ≠ a → keyLess t a i = true := by
  cases l with
  | nil => cases h
  | cons x xs =>
    simp only [takeLeast, Option.some.injEq, Prod.mk.injEq] at h
    obtain ⟨rfl, rfl⟩ := h
    exact ⟨(leastOf_spec t x xs).1, rfl, (leastOf_spec t x xs).2⟩

theorem takeLeast_none {t : Vector Node 511} {l : List Nat} (h : takeLeast t l = none) : l = [] := by
  cases l with
  | nil => rfl
  | cons x xs => cases h

/-! ### The leaves -/

theorem writeNodes_spec {t : Vector Node 511} {k : Nat} {l : List Node} (h : k + l.length ≤ 511) (i : Nat) :
    nodeAt (writeNodes t k l) i = if k ≤ i then (l[i - k]?).getD (nodeAt t i) else nodeAt t i := by
  induction l generalizing t k with
  | nil => simp [writeNodes]
  | cons x xs ih =>
    simp only [List.length_cons] at h
    simp only [writeNodes]
    rw [ih (by omega), nodeAt_nodeSet _ _ _ _ (by omega)]
    by_cases hi : i = k
    · subst hi
      have h3 : ¬i + 1 ≤ i := by omega
      simp [h3]
    · by_cases hk : k ≤ i
      · have h4 : k + 1 ≤ i := by omega
        have h5 : i - k = (i - (k + 1)) + 1 := by omega
        simp [h4, hk, h5, hi]
      · have h4 : ¬k + 1 ≤ i := by omega
        simp [h4, hk, hi]

theorem State.leaves_length (s : State) : s.leaves.length = s.symbolsPresent := by
  simp [State.leaves, State.presentSymbols, State.symbolsPresent, List.countP_eq_length_filter]

theorem State.symbolsPresent_le (s : State) : s.symbolsPresent ≤ 256 := by
  have h := List.countP_le_length (p := fun b => tabGet s.freq b != 0) (l := allSymbols)
  rwa [allSymbols_length] at h

/-! ### Children -/

theorem isChild_iff {t : Vector Node 511} {k j : Nat} :
    isChild t k j = true ↔ ∃ f l r, nodeAt t k = .internal f l r ∧ (l.toNat = j ∨ r.toNat = j) := by
  unfold isChild
  split
  · next h => simp [h]
  · next h => simp [h]

theorem mem_activeBefore {t : Vector Node 511} {n k i : Nat} :
    i ∈ activeBefore t n k ↔ i < k ∧ ∀ m < k, n ≤ m → isChild t m i = false := by
  simp only [activeBefore, List.mem_filter, List.mem_range, Bool.not_eq_true', List.any_eq_false, Bool.and_eq_true,
    decide_eq_true_eq, not_and, Bool.not_eq_true]

theorem activeBefore_nodup (t : Vector Node 511) (n k : Nat) : (activeBefore t n k).Nodup :=
  List.Nodup.filter _ List.nodup_range

/-- The active nodes depend only on the nodes already made. -/
theorem activeBefore_congr {t u : Vector Node 511} {n k : Nat} (h : ∀ i < k, nodeAt t i = nodeAt u i) :
    activeBefore t n k = activeBefore u n k := by
  unfold activeBefore
  refine List.filter_congr fun i hi => ?_
  congr 1
  refine Bool.eq_iff_iff.2 ?_
  simp only [List.any_eq_true, List.mem_range]
  refine exists_congr fun m => and_congr_right fun hm => ?_
  unfold isChild
  rw [h m hm]

theorem keyLess_congr {t u : Vector Node 511} {i j : Nat} (hi : nodeAt t i = nodeAt u i) (hj : nodeAt t j = nodeAt u j) :
    keyLess t i j = keyLess u i j := by
  unfold keyLess
  rw [hi, hj]

theorem mergeLegal_congr {t u : Vector Node 511} {n k : Nat} (h : ∀ i ≤ k, nodeAt t i = nodeAt u i)
    (hm : mergeLegal t n k) : mergeLegal u n k := by
  have hact := activeBefore_congr (n := n) (fun i (hi : i < k) => h i (by omega))
  obtain ⟨a, ha, b, hb, hab, hk, h1, h2⟩ := hm
  have hlt : ∀ i ∈ activeBefore t n k, i ≤ k := fun i hi => by
    have := (mem_activeBefore.1 hi).1
    omega
  refine ⟨a, hact ▸ ha, b, hact ▸ hb, hab, ?_, fun i hi hne => ?_, fun i hi hne hne' => ?_⟩
  · rw [← h k (Nat.le_refl k), hk, h a (hlt a ha), h b (hlt b hb)]
  · rw [← hact] at hi
    rw [← keyLess_congr (h a (hlt a ha)) (h i (hlt i hi))]
    exact h1 i hi hne
  · rw [← hact] at hi
    rw [← keyLess_congr (h b (hlt b hb)) (h i (hlt i hi))]
    exact h2 i hi hne hne'

/-! ### The loop -/

/-- The sum of the frequencies of some nodes. -/
def freqSum (t : Vector Node 511) (l : List Nat) : Nat := (l.map fun i => (nodeAt t i).freq.toNat).sum

/-- What the loop keeps, on `L` leaves: the leaves stand, the nodes made are legal merges that overflow nothing, the active
nodes are those without a parent, one fewer for each node made, and their frequencies sum to the leaves' sum. -/
structure Merging (L : List Node) (t : Vector Node 511) (act : List Nat) (nx : Nat) : Prop where
  low : L.length ≤ nx
  count : nx + act.length = 2 * L.length
  active : act = activeBefore t L.length nx
  leaf : ∀ i (h : i < L.length), nodeAt t i = L[i]
  made : ∀ k, L.length ≤ k → k < nx → mergeLegal t L.length k
  exact : ∀ k, L.length ≤ k → k < nx → ∀ f l r, nodeAt t k = .internal f l r →
    f.toNat = (nodeAt t l.toNat).freq.toNat + (nodeAt t r.toNat).freq.toNat
  sum : freqSum t act = (L.map fun x => x.freq.toNat).sum

/-- A node without a parent among the nodes made is active. -/
theorem Merging.start {L : List Node} {t : Vector Node 511} (h : ∀ i (h : i < L.length), nodeAt t i = L[i]) :
    Merging L t (List.range L.length) L.length where
  low := Nat.le_refl _
  count := by simp; omega
  active := by
    unfold activeBefore
    rw [List.filter_eq_self.2]
    intro i _
    simp only [Bool.not_eq_true', List.any_eq_false, List.mem_range, Bool.and_eq_true, decide_eq_true_eq, not_and]
    intro m hm hn
    omega
  leaf := h
  made := fun k h1 h2 => by omega
  exact := fun k h1 h2 => by omega
  sum := by
    unfold freqSum
    congr 1
    refine List.ext_getElem (by simp) fun i h1 h2 => ?_
    simp only [List.getElem_map, List.getElem_range]
    rw [h i (by simpa using h1)]

theorem freqSum_perm {t : Vector Node 511} {l r : List Nat} (h : l.Perm r) : freqSum t l = freqSum t r :=
  (h.map _).sum_eq

theorem freqSum_cons (t : Vector Node 511) (i : Nat) (l : List Nat) :
    freqSum t (i :: l) = (nodeAt t i).freq.toNat + freqSum t l := by simp [freqSum]

theorem freqSum_append (t : Vector Node 511) (l r : List Nat) : freqSum t (l ++ r) = freqSum t l + freqSum t r := by
  simp [freqSum]

theorem freqSum_congr {t u : Vector Node 511} {l : List Nat} (h : ∀ i ∈ l, nodeAt t i = nodeAt u i) :
    freqSum t l = freqSum u l := by
  unfold freqSum
  congr 1
  exact List.map_congr_left fun i hi => by rw [h i hi]

/-- One round of the loop keeps the invariant. -/
theorem Merging.round {L : List Node} {t : Vector Node 511} {act act1 act2 : List Nat} {nx a b : Nat}
    (hm : Merging L t act nx) (hL : L.length ≤ 256) (hF : (L.map fun x => x.freq.toNat).sum < 2 ^ 40)
    (ha : takeLeast t act = some (a, act1)) (hb : takeLeast t act1 = some (b, act2)) :
    Merging L (nodeSet t nx (mergedNode t a b)) (act2 ++ [nx]) (nx + 1) := by
  obtain ⟨ha1, rfl, ha2⟩ := takeLeast_spec ha
  obtain ⟨hb1, rfl, hb2⟩ := takeLeast_spec hb
  have hnd : act.Nodup := hm.active ▸ activeBefore_nodup t L.length nx
  have hb3 : b ∈ act := List.mem_of_mem_erase hb1
  have hab : a ≠ b := fun e => by
    subst e
    exact (List.Nodup.not_mem_erase hnd) hb1
  have hlt : ∀ i ∈ act, i < nx := fun i hi => by
    rw [hm.active] at hi
    exact (mem_activeBefore.1 hi).1
  have hlen1 : (act.erase a).length + 1 = act.length := by
    have := List.length_erase_of_mem ha1
    have := List.length_pos_of_mem ha1
    omega
  have hlen2 : ((act.erase a).erase b).length + 2 = act.length := by
    have := List.length_erase_of_mem hb1
    have := List.length_pos_of_mem hb1
    omega
  have hcount := hm.count
  have hnx : nx < 511 := by omega
  have hsame : ∀ i, i ≠ nx → nodeAt (nodeSet t nx (mergedNode t a b)) i = nodeAt t i :=
    fun i hi => nodeAt_nodeSet_other hi
  have hnew : nodeAt (nodeSet t nx (mergedNode t a b)) nx = mergedNode t a b := nodeAt_nodeSet_same hnx
  have ha9 : (BitVec.ofNat 9 a).toNat = a := by have := hlt a ha1; simp; omega
  have hb9 : (BitVec.ofNat 9 b).toNat = b := by have := hlt b hb3; simp; omega
  have hperm : act.Perm (a :: b :: (act.erase a).erase b) :=
    (List.perm_cons_erase ha1).trans ((List.perm_cons_erase hb1).cons a)
  have hsum : (nodeAt t a).freq.toNat + (nodeAt t b).freq.toNat + freqSum t ((act.erase a).erase b) =
      (L.map fun x => x.freq.toNat).sum := by
    rw [← hm.sum, freqSum_perm hperm, freqSum_cons, freqSum_cons]
    omega
  have hadd : ((nodeAt t a).freq + (nodeAt t b).freq).toNat =
      (nodeAt t a).freq.toNat + (nodeAt t b).freq.toNat := by
    rw [BitVec.toNat_add, Nat.mod_eq_of_lt (by omega)]
  have hmlegal : mergeLegal (nodeSet t nx (mergedNode t a b)) L.length nx := by
    have hact : activeBefore (nodeSet t nx (mergedNode t a b)) L.length nx = act := by
      rw [hm.active]
      exact activeBefore_congr fun i hi => hsame i (by omega)
    refine ⟨a, hact ▸ ha1, b, hact ▸ hb3, hab, ?_, fun i hi hne => ?_, fun i hi hne hne' => ?_⟩
    · rw [hnew, hsame a (by have := hlt a ha1; omega), hsame b (by have := hlt b hb3; omega)]
      rfl
    · rw [hact] at hi
      rw [keyLess_congr (hsame a (by have := hlt a ha1; omega)) (hsame i (by have := hlt i hi; omega))]
      exact ha2 i hi hne
    · rw [hact] at hi
      rw [keyLess_congr (hsame b (by have := hlt b hb3; omega)) (hsame i (by have := hlt i hi; omega))]
      exact hb2 i ((List.mem_erase_of_ne hne).2 hi) hne'
  refine ⟨by have := hm.low; omega, by simp; omega, ?_, ?_, ?_, ?_, ?_⟩
  · -- the active nodes
    have hfil : (act.erase a).erase b = act.filter fun i => decide (i ≠ a) && decide (i ≠ b) := by
      rw [List.Nodup.erase_eq_filter (hnd.erase a), List.Nodup.erase_eq_filter hnd, List.filter_filter]
      refine List.filter_congr fun i _ => ?_
      by_cases h1 : i = a <;> by_cases h2 : i = b <;> simp [h1, h2]
    rw [hfil]
    conv_lhs => rw [hm.active]
    unfold activeBefore
    rw [List.range_succ, List.filter_append, List.filter_filter]
    have hchild : ∀ i, isChild (nodeSet t nx (mergedNode t a b)) nx i = true ↔ i = a ∨ i = b := by
      intro i
      unfold isChild
      rw [hnew]
      simp only [mergedNode, ha9, hb9, Bool.or_eq_true, beq_iff_eq]
      omega
    congr 1
    · refine List.filter_congr fun i hi => Bool.eq_iff_iff.2 ?_
      simp only [Bool.and_eq_true, decide_eq_true_eq, Bool.not_eq_true', List.any_eq_false, List.mem_range, not_and,
        Bool.not_eq_true, List.mem_append, List.mem_singleton]
      constructor
      · rintro ⟨⟨h1, h2⟩, h3⟩ m hmm hn
        rcases hmm with hmm | rfl
        · have := h3 m hmm hn
          unfold isChild at this ⊢
          rwa [hsame m (by omega)]
        · by_contra hc
          rw [Bool.not_eq_false] at hc
          rcases (hchild i).1 hc with h | h
          · exact h1 h
          · exact h2 h
      · intro h
        have hx := h nx (Or.inr rfl) hm.low
        have hx' : ¬(i = a ∨ i = b) := fun hc => by rw [(hchild i).2 hc] at hx; cases hx
        refine ⟨⟨fun e => hx' (Or.inl e), fun e => hx' (Or.inr e)⟩, fun m hmm hn => ?_⟩
        have := h m (Or.inl hmm) hn
        unfold isChild at this ⊢
        rwa [hsame m (by omega)] at this
    · symm
      rw [List.filter_eq_self]
      intro i hi
      rw [List.mem_singleton] at hi
      subst hi
      simp only [Bool.not_eq_true', List.any_eq_false, List.mem_append, List.mem_range, List.mem_singleton,
        Bool.and_eq_true, decide_eq_true_eq, not_and, Bool.not_eq_true]
      rintro m (hmm | rfl) hn
      · have hml := hm.made m hn hmm
        obtain ⟨a', ha', b', hb', -, hk, -⟩ := hml
        have h1 := (mem_activeBefore.1 ha').1
        have h2 := (mem_activeBefore.1 hb').1
        unfold isChild
        rw [hsame m (by omega), hk]
        simp only [BitVec.toNat_ofNat, Bool.or_eq_false_iff, beq_eq_false_iff_ne]
        omega
      · by_contra hc
        rw [Bool.not_eq_false] at hc
        rcases (hchild m).1 hc with h | h
        · have := hlt a ha1; omega
        · have := hlt b hb3; omega
  · intro i hi
    rw [hsame i (by have := hm.low; omega)]
    exact hm.leaf i hi
  · intro k h1 h2
    by_cases hk : k = nx
    · subst hk
      exact hmlegal
    · exact mergeLegal_congr (fun i hi => (hsame i (by omega)).symm) (hm.made k h1 (by omega))
  · intro k h1 h2 f l r hk
    by_cases hkn : k = nx
    · subst hkn
      rw [hnew] at hk
      simp only [mergedNode, Node.internal.injEq] at hk
      obtain ⟨rfl, rfl, rfl⟩ := hk
      rw [ha9, hb9, hsame a (by have := hlt a ha1; omega), hsame b (by have := hlt b hb3; omega), hadd]
    · rw [hsame k hkn] at hk
      have hex := hm.exact k h1 (by omega) f l r hk
      obtain ⟨a', ha', b', hb', -, hk', -⟩ := hm.made k h1 (by omega)
      rw [hk] at hk'
      simp only [Node.internal.injEq] at hk'
      have h1' := (mem_activeBefore.1 ha').1
      have h2' := (mem_activeBefore.1 hb').1
      have e1 : l.toNat = a' := by rw [hk'.2.1]; simp; omega
      have e2 : r.toNat = b' := by rw [hk'.2.2]; simp; omega
      rw [hsame l.toNat (by omega), hsame r.toNat (by omega)]
      exact hex
  · rw [freqSum_append, freqSum_congr (u := t) (fun i hi => hsame i (by
      have := hlt i (List.mem_of_mem_erase (List.mem_of_mem_erase hi)); omega))]
    simp only [freqSum, List.map_cons, List.map_nil, List.sum_cons, List.sum_nil, hnew]
    unfold freqSum at hsum
    rw [show (mergedNode t a b).freq = (nodeAt t a).freq + (nodeAt t b).freq from rfl, hadd]
    omega

/-- With rounds enough the loop ends with one active node, the invariant kept. -/
theorem mergeLoop_spec {L : List Node} (hL : L.length ≤ 256) (hF : (L.map fun x => x.freq.toNat).sum < 2 ^ 40)
    {n : Nat} {t : Vector Node 511} {act : List Nat} {nx : Nat} (hm : Merging L t act nx) (h1 : 1 ≤ act.length)
    (hn : act.length ≤ n + 1) :
    ∃ t' r nx', mergeLoop n t act nx = (t', [r], nx') ∧ Merging L t' [r] nx' := by
  induction n generalizing t act nx with
  | zero =>
    obtain ⟨r, rfl⟩ := List.length_eq_one_iff.1 (show act.length = 1 by omega)
    exact ⟨t, r, nx, rfl, hm⟩
  | succ n ih =>
    simp only [mergeLoop]
    cases ha : takeLeast t act with
    | none => rw [takeLeast_none ha] at h1; simp at h1
    | some x =>
      obtain ⟨a, act1⟩ := x
      cases hb : takeLeast t act1 with
      | none =>
        have h0 := takeLeast_none hb
        obtain ⟨ha1, hr, -⟩ := takeLeast_spec ha
        have := List.length_erase_of_mem ha1
        rw [← hr, h0] at this
        obtain ⟨r, rfl⟩ := List.length_eq_one_iff.1 (show act.length = 1 by simp at this; omega)
        exact ⟨t, r, nx, by simp [hb], hm⟩
      | some y =>
        obtain ⟨b, act2⟩ := y
        obtain ⟨ha1, hr, -⟩ := takeLeast_spec ha
        obtain ⟨hb1, hr2, -⟩ := takeLeast_spec hb
        have e1 := List.length_erase_of_mem ha1
        have e2 := List.length_erase_of_mem hb1
        rw [← hr] at e1
        rw [← hr2] at e2
        have hpos := List.length_pos_of_mem hb1
        simp only [hb]
        exact ih (hm.round hL hF ha hb) (by simp) (by simp; omega)

/-! ### The tree -/

theorem Merging.root {L : List Node} {t : Vector Node 511} {r nx : Nat} (hm : Merging L t [r] nx) (h1 : 1 ≤ L.length) :
    nx = 2 * L.length - 1 ∧ r = 2 * L.length - 2 := by
  have hc := hm.count
  simp only [List.length_singleton] at hc
  refine ⟨by omega, ?_⟩
  have : nx - 1 ∈ ([r] : List Nat) := by
    rw [hm.active, mem_activeBefore]
    refine ⟨by omega, fun m hmm hn => ?_⟩
    obtain ⟨a', ha', b', hb', -, hk, -⟩ := hm.made m hn hmm
    have h1 := (mem_activeBefore.1 ha').1
    have h2 := (mem_activeBefore.1 hb').1
    unfold isChild
    rw [hk]
    simp only [BitVec.toNat_ofNat, Bool.or_eq_false_iff, beq_eq_false_iff_ne]
    omega
  rw [List.mem_singleton] at this
  omega

/-- The nodes are one strict binary tree. -/
theorem Merging.shape {L : List Node} {t : Vector Node 511} {r nx : Nat} (hm : Merging L t [r] nx)
    (h1 : 1 ≤ L.length) (hL : L.length ≤ 256) (hleaf : ∀ x ∈ L, ∃ b f, x = .leaf b f)
    (hdist : ∀ i j (hi : i < L.length) (hj : j < L.length) b f g, L[i] = .leaf b f → L[j] = .leaf b g → i = j) :
    TreeShape t nx := by
  obtain ⟨hnx, hr⟩ := hm.root h1
  have hint : ∀ k, L.length ≤ k → k < nx → ∃ a b, a < k ∧ b < k ∧ a ≠ b ∧ a ∈ activeBefore t L.length k ∧
      b ∈ activeBefore t L.length k ∧
      nodeAt t k = .internal ((nodeAt t a).freq + (nodeAt t b).freq) (BitVec.ofNat 9 a) (BitVec.ofNat 9 b) := by
    intro k hk1 hk2
    obtain ⟨a, ha, b, hb, hab, hk, -⟩ := hm.made k hk1 hk2
    exact ⟨a, b, (mem_activeBefore.1 ha).1, (mem_activeBefore.1 hb).1, hab, ha, hb, hk⟩
  have hleafAt : ∀ i < L.length, ∃ b f, nodeAt t i = .leaf b f := by
    intro i hi
    rw [hm.leaf i hi]
    exact hleaf _ (List.getElem_mem hi)
  have hchild : ∀ k < nx, ∀ j, isChild t k j = true → L.length ≤ k ∧ j < k ∧ j ∈ activeBefore t L.length k := by
    intro k hk j hj
    by_cases hkL : L.length ≤ k
    · obtain ⟨a, b, ha, hb, -, ha', hb', he⟩ := hint k hkL hk
      unfold isChild at hj
      rw [he] at hj
      simp only [BitVec.toNat_ofNat, Bool.or_eq_true, beq_iff_eq] at hj
      rcases hj with hj | hj
      · have : a = j := by omega
        exact ⟨hkL, this ▸ ha, this ▸ ha'⟩
      · have : b = j := by omega
        exact ⟨hkL, this ▸ hb, this ▸ hb'⟩
    · obtain ⟨b, f, he⟩ := hleafAt k (by omega)
      unfold isChild at hj
      rw [he] at hj
      cases hj
  refine ⟨by omega, by omega, fun i hi => ?_, fun j hj => ?_, fun i hi j hj b f g hib hjb => ?_⟩
  · unfold nodeLegal
    by_cases hiL : L.length ≤ i
    · obtain ⟨a, b, ha, hb, hab, -, -, he⟩ := hint i hiL hi
      have hex := hm.exact i hiL hi _ _ _ he
      rw [he]
      refine ⟨by simp; omega, by simp; omega, fun e => hab ?_, hex⟩
      have := congrArg BitVec.toNat e
      simp only [BitVec.toNat_ofNat] at this
      omega
    · obtain ⟨b, f, he⟩ := hleafAt i (by omega)
      rw [he]
      trivial
  · have hnot : j ∉ activeBefore t L.length nx := by
      rw [← hm.active, List.mem_singleton]
      omega
    rw [mem_activeBefore] at hnot
    push Not at hnot
    obtain ⟨k, hk1, hk2, hk3⟩ := hnot (by omega)
    rw [Bool.ne_false_iff] at hk3
    refine ⟨k, hk1, hk3, fun k' hk' hc => ?_⟩
    obtain ⟨hL1, -, hact1⟩ := hchild k hk1 j hk3
    obtain ⟨hL2, -, hact2⟩ := hchild k' hk' j hc
    rcases Nat.lt_trichotomy k k' with h | h | h
    · have := (mem_activeBefore.1 hact2).2 k h hL1
      rw [hk3] at this
      cases this
    · exact h.symm
    · have := (mem_activeBefore.1 hact1).2 k' h hL2
      rw [hc] at this
      cases this
  · have hlow : ∀ i < nx, ∀ b f, nodeAt t i = .leaf b f → i < L.length := by
      intro i hi b f he
      by_contra hc
      obtain ⟨_, _, -, -, -, -, -, he'⟩ := hint i (by omega) hi
      rw [he] at he'
      cases he'
    have hi' := hlow i hi b f hib
    have hj' := hlow j hj b g hjb
    rw [hm.leaf i hi'] at hib
    rw [hm.leaf j hj'] at hjb
    exact hdist i j hi' hj' b f g hib hjb

/-! ### The leaves of a frequency table -/

theorem State.leaves_leaf (s : State) : ∀ x ∈ s.leaves, ∃ b f, x = .leaf b f := by
  intro x hx
  simp only [State.leaves, List.mem_map] at hx
  obtain ⟨b, -, rfl⟩ := hx
  exact ⟨b, _, rfl⟩

theorem State.leaves_distinct (s : State) (i j : Nat) (hi : i < s.leaves.length) (hj : j < s.leaves.length) (b : Byte)
    (f g : BitVec 40) (h1 : s.leaves[i] = .leaf b f) (h2 : s.leaves[j] = .leaf b g) : i = j := by
  have hnd : s.presentSymbols.Nodup := List.Nodup.filter _ allSymbols_nodup
  simp only [State.leaves, List.getElem_map, Node.leaf.injEq] at h1 h2
  exact (List.Nodup.getElem_inj_iff hnd).1 (h1.1.trans h2.1.symm)

theorem State.leaves_sum_lt (s : State) : (s.leaves.map fun x => x.freq.toNat).sum < 2 ^ 40 := by
  have h : ∀ l : List Node, (∀ x ∈ l, x.freq.toNat ≤ 2 ^ 32 - 1) →
      (l.map fun x => x.freq.toNat).sum ≤ l.length * (2 ^ 32 - 1) := by
    intro l hl
    induction l with
    | nil => simp
    | cons x xs ih =>
      have h1 := hl x (by simp)
      have h2 := ih fun y hy => hl y (by simp [hy])
      simp only [List.map_cons, List.sum_cons, List.length_cons, Nat.add_mul, Nat.one_mul]
      omega
  have h1 := h s.leaves (by
    intro x hx
    simp only [State.leaves, List.mem_map] at hx
    obtain ⟨b, -, rfl⟩ := hx
    simp only [Node.freq, BitVec.toNat_setWidth]
    have := (tabGet s.freq b).isLt
    omega)
  have h2 := s.leaves_length ▸ s.symbolsPresent_le
  have h3 : s.leaves.length * (2 ^ 32 - 1) ≤ 256 * (2 ^ 32 - 1) := Nat.mul_le_mul_right _ h2
  omega

/-- What BUILD_TREE's loop leaves of a table that is not empty. -/
theorem State.merged_spec (s : State) (h : s.symbolsPresent ≠ 0) :
    ∃ t, s.merged = (t, [2 * s.symbolsPresent - 2], 2 * s.symbolsPresent - 1) ∧
      Merging s.leaves t [2 * s.symbolsPresent - 2] (2 * s.symbolsPresent - 1) ∧
      TreeShape t (2 * s.symbolsPresent - 1) := by
  have hlen := s.leaves_length
  have hle := s.symbolsPresent_le
  have hstart : Merging s.leaves (writeNodes s.node 0 s.leaves) (List.range s.leaves.length) s.leaves.length :=
    Merging.start fun i hi => by
      rw [writeNodes_spec (by omega)]
      simp [hi]
  obtain ⟨t, r, nx, heq, hm⟩ := mergeLoop_spec (n := s.leaves.length) (by omega) s.leaves_sum_lt hstart (by simp; omega)
    (by simp)
  obtain ⟨hnx, hr⟩ := hm.root (by omega)
  rw [hlen] at hnx hr
  subst hnx hr
  exact ⟨t, heq, hm, hm.shape (by omega) (by omega) s.leaves_leaf s.leaves_distinct⟩

end Sys2Proof.Machine
end

