-- ==== Sys2Proof/Laws/Codes.lean ====
section
/-! SUPPORT. The codes ASSIGN_CODES assigns: each is the path to a leaf of its symbol, every leaf reached gives its symbol a
code, and the table they make is prefix-free (40_table_build.md R120 to R122). -/

namespace Sys2Proof.Machine

/-! ### Paths -/

theorem follow_nil (t : Vector Node 511) (i : Nat) : follow t i [] = some (nodeAt t i) := rfl

theorem follow_leaf {t : Vector Node 511} {i : Nat} {b : Byte} {f : BitVec 40} (h : nodeAt t i = .leaf b f) (d : Bool)
    (q : Bits) : follow t i (d :: q) = none := by simp [follow, h]

theorem follow_internal {t : Vector Node 511} {i : Nat} {f : BitVec 40} {l r : BitVec 9}
    (h : nodeAt t i = .internal f l r) (d : Bool) (q : Bits) :
    follow t i (d :: q) = follow t (if d then r.toNat else l.toNat) q := by simp [follow, h]

/-- A path that goes on from a leaf reaches nothing. -/
theorem follow_append_leaf {t : Vector Node 511} {i : Nat} {q r : Bits} {b : Byte} {f : BitVec 40}
    (h : follow t i q = some (.leaf b f)) (hr : r ≠ []) : follow t i (q ++ r) = none := by
  induction q generalizing i with
  | nil =>
    rw [follow_nil, Option.some.injEq] at h
    rcases r with _ | ⟨d, r⟩
    · exact absurd rfl hr
    · exact follow_leaf h d r
  | cons d q ih =>
    cases hn : nodeAt t i with
    | leaf c g => rw [follow_leaf hn] at h; cases h
    | internal g l r' =>
      rw [follow_internal hn] at h
      rw [List.cons_append, follow_internal hn]
      exact ih h

/-- Paths to leaves of different symbols: neither is a prefix of the other. -/
theorem follow_prefix_free {t : Vector Node 511} {i : Nat} {q r : Bits} {b c : Byte} {f g : BitVec 40}
    (hq : follow t i q = some (.leaf b f)) (hr : follow t i r = some (.leaf c g)) (hbc : b ≠ c) : ¬q <+: r := by
  rintro ⟨e, rfl⟩
  by_cases he : e = []
  · subst he
    rw [List.append_nil, hq] at hr
    simp only [Option.some.injEq, Node.leaf.injEq] at hr
    exact hbc hr.1
  · rw [follow_append_leaf hq he] at hr
    cases hr

/-! ### The walk -/

/-- A code the walk assigns was there before, or is a path from the node to a leaf of its symbol. -/
theorem walk_sound {t : Vector Node 511} {n i : Nat} {c q : Bits} {p : Vector (Option Bits) 256} {b : Byte}
    (h : tabGet (walk t n i c p) b = some q) :
    tabGet p b = some q ∨ ∃ d f, q = c ++ d ∧ follow t i d = some (.leaf b f) := by
  induction n generalizing i c p with
  | zero => exact Or.inl h
  | succ n ih =>
    simp only [walk] at h
    split at h
    · next b' f hn =>
      rw [tabGet_tabSet] at h
      split at h
      · next hb =>
        subst hb
        cases h
        exact Or.inr ⟨[], f, by simp, by rw [follow_nil, hn]⟩
      · exact Or.inl h
    · next f l r hn =>
      rcases ih h with h | ⟨d, g, rfl, hd⟩
      · rcases ih h with h | ⟨d, g, rfl, hd⟩
        · exact Or.inl h
        · exact Or.inr ⟨false :: d, g, by simp, by rw [follow_internal hn]; simpa using hd⟩
      · exact Or.inr ⟨true :: d, g, by simp, by rw [follow_internal hn]; simpa using hd⟩

/-- The walk takes no code away. -/
theorem walk_mono {t : Vector Node 511} {n i : Nat} {c : Bits} {p : Vector (Option Bits) 256} {b : Byte}
    (h : (tabGet p b).isSome = true) : (tabGet (walk t n i c p) b).isSome = true := by
  induction n generalizing i c p with
  | zero => exact h
  | succ n ih =>
    simp only [walk]
    split
    · rw [tabGet_tabSet]
      split
      · rfl
      · exact h
    · exact ih (ih h)

/-- Children of the nodes below `m` are earlier nodes: the part of the tree's shape the walk needs. -/
def childrenEarlier (t : Vector Node 511) (m : Nat) : Prop :=
  ∀ i < m, ∀ f l r, nodeAt t i = .internal f l r → l.toNat < i ∧ r.toNat < i

theorem TreeShape.childrenEarlier {t : Vector Node 511} {m : Nat} (h : TreeShape t m) : childrenEarlier t m := by
  intro i hi f l r hn
  have := h.2.2.1 i hi
  unfold nodeLegal at this
  rw [hn] at this
  exact ⟨this.1, this.2.1⟩

/-- Every leaf a path reaches gives its symbol a code. -/
theorem walk_complete {t : Vector Node 511} {m : Nat} (hc : childrenEarlier t m) {n i : Nat} {c d : Bits}
    {p : Vector (Option Bits) 256} {b : Byte} {f : BitVec 40} (hi : i < n) (him : i < m)
    (h : follow t i d = some (.leaf b f)) : (tabGet (walk t n i c p) b).isSome = true := by
  induction n generalizing i c d p with
  | zero => omega
  | succ n ih =>
    simp only [walk]
    split
    · next b' f' hn =>
      cases d with
      | nil =>
        rw [follow_nil, hn, Option.some.injEq, Node.leaf.injEq] at h
        rw [h.1, tabGet_tabSet_same]
        rfl
      | cons e d => rw [follow_leaf hn] at h; cases h
    · next f' l r hn =>
      obtain ⟨h1, h2⟩ := hc i him f' l r hn
      cases d with
      | nil => rw [follow_nil, hn] at h; cases h
      | cons e d =>
        rw [follow_internal hn] at h
        cases e with
        | true => exact ih (by omega) (by omega) (by simpa using h)
        | false => exact walk_mono (ih (by omega) (by omega) (by simpa using h))

/-- From every node some path reaches a leaf. -/
theorem follow_exists {t : Vector Node 511} {m : Nat} (hc : childrenEarlier t m) {i : Nat} (him : i < m) :
    ∃ d b f, follow t i d = some (.leaf b f) := by
  induction i using Nat.strong_induction_on with
  | _ i ih =>
    cases hn : nodeAt t i with
    | leaf b f => exact ⟨[], b, f, by rw [follow_nil, hn]⟩
    | internal f l r =>
      obtain ⟨h1, -⟩ := hc i him f l r hn
      obtain ⟨d, b, g, hd⟩ := ih l.toNat h1 (by omega)
      exact ⟨false :: d, b, g, by rw [follow_internal hn]; simpa using hd⟩

/-! ### The map P -/

@[simp] theorem tabGet_noCodes (b : Byte) : tabGet noCodes b = none := by simp [noCodes]

/-- A code of the map is not empty, and under an internal root it is the path to a leaf of its symbol. -/
theorem State.assigned_sound {s : State} {b : Byte} {q : Bits} (h : tabGet s.assigned b = some q) :
    q ≠ [] ∧ ((∃ f, nodeAt s.node s.root.toNat = .leaf b f ∧ q = [false]) ∨
      ∃ f, follow s.node s.root.toNat q = some (.leaf b f)) := by
  unfold State.assigned at h
  split at h
  · next b' f hn =>
    rw [tabGet_tabSet] at h
    split at h
    · next hb =>
      subst hb
      cases h
      exact ⟨by simp, Or.inl ⟨f, hn, rfl⟩⟩
    · simp at h
  · next f l r hn =>
    rcases walk_sound h with h | ⟨d, g, hq, hd⟩
    · simp at h
    · have hq' : q = d := by simpa using hq
      subst hq'
      refine ⟨?_, Or.inr ⟨g, hd⟩⟩
      intro he
      rw [he, follow_nil, hn] at hd
      cases hd

theorem State.assigned_complete {s : State} {m : Nat} (hc : childrenEarlier s.node m) (hr : s.root.toNat < m)
    (hm : m ≤ 511) {d : Bits} {b : Byte} {f : BitVec 40} (h : follow s.node s.root.toNat d = some (.leaf b f)) :
    (tabGet s.assigned b).isSome = true := by
  unfold State.assigned
  split
  · next b' f' hn =>
    cases d with
    | nil =>
      rw [follow_nil, hn, Option.some.injEq, Node.leaf.injEq] at h
      rw [h.1, tabGet_tabSet_same]
      rfl
    | cons e d => rw [follow_leaf hn] at h; cases h
  · exact walk_complete hc (show s.root.toNat < 511 by omega) hr h

/-- Codes of different symbols: neither is a prefix of the other. -/
theorem State.assigned_prefix_free {s : State} {b c : Byte} {q r : Bits} (hb : tabGet s.assigned b = some q)
    (hc : tabGet s.assigned c = some r) (hbc : b ≠ c) : ¬q <+: r := by
  obtain ⟨-, hb⟩ := State.assigned_sound hb
  obtain ⟨-, hc⟩ := State.assigned_sound hc
  rcases hb with ⟨f, h1, rfl⟩ | ⟨f, h1⟩
  · rcases hc with ⟨g, h2, rfl⟩ | ⟨g, h2⟩
    · rw [h1] at h2
      simp only [Node.leaf.injEq] at h2
      exact absurd h2.1 hbc
    · rcases r with _ | ⟨d, r⟩
      · rw [follow_nil, h1] at h2
        simp only [Option.some.injEq, Node.leaf.injEq] at h2
        exact absurd h2.1 hbc
      · rw [follow_leaf h1] at h2; cases h2
  · rcases hc with ⟨g, h2, rfl⟩ | ⟨g, h2⟩
    · rcases q with _ | ⟨d, q⟩
      · rw [follow_nil, h2] at h1
        simp only [Option.some.injEq, Node.leaf.injEq] at h1
        exact absurd h1.1.symm hbc
      · rw [follow_leaf h2] at h1; cases h1
    · exact follow_prefix_free h1 h2 hbc

/-! ### The table made of a map -/

/-- No code of the map is longer than 63 bits. -/
theorem tooLong_nil {p : Vector (Option Bits) 256} (h : tooLong p = []) (b : Byte) : (codeIn p b).length ≤ 63 := by
  unfold tooLong at h
  rw [List.filter_eq_nil_iff] at h
  have := h b (mem_allSymbols b)
  simpa using this

theorem setCodes_codeLen (s : State) (p : Vector (Option Bits) 256) (b : Byte) (h : (codeIn p b).length ≤ 63) :
    (tabGet (setCodes s p).codeLen b).toNat = (codeIn p b).length := by
  simp only [setCodes, tabGet_tabulate, BitVec.toNat_ofNat]
  omega

theorem setCodes_codeBits (s : State) (p : Vector (Option Bits) 256) (b : Byte) (h : (codeIn p b).length ≤ 63) :
    (tabGet (setCodes s p).codeBits b).toNat = valOf (codeIn p b) := by
  simp only [setCodes, tabGet_tabulate, BitVec.toNat_ofNat]
  exact Nat.mod_eq_of_lt (lt_of_lt_of_le (valOf_lt _) (Nat.pow_le_pow_right (by omega) h))

theorem setCodes_codeOf (s : State) (p : Vector (Option Bits) 256) (b : Byte) (h : (codeIn p b).length ≤ 63) :
    (setCodes s p).codeOf b = codeIn p b := by
  rw [State.codeOf, setCodes_codeLen s p b h, setCodes_codeBits s p b h, bitsOf_valOf]

theorem setCodes_coded {s : State} {p : Vector (Option Bits) 256} (hne : ∀ b q, tabGet p b = some q → q ≠ []) {b : Byte}
    (h : (codeIn p b).length ≤ 63) : tabGet (setCodes s p).codeLen b ≠ 0 ↔ (tabGet p b).isSome = true := by
  have h1 := setCodes_codeLen s p b h
  cases hp : tabGet p b with
  | none =>
    have h0 : (codeIn p b).length = 0 := by simp [codeIn, hp]
    rw [h0] at h1
    simp only [Option.isSome_none, Bool.false_eq_true, iff_false, not_not]
    exact BitVec.eq_of_toNat_eq (by simpa using h1)
  | some q =>
    have h0 : (codeIn p b) = q := by simp [codeIn, hp]
    simp only [Option.isSome_some, iff_true]
    intro hz
    rw [h0, hz] at h1
    exact hne b q hp (List.length_eq_zero_iff.1 (by simpa using h1.symm))

/-- The table that a tree's codes make keeps 10_state.md R42 and R49. -/
theorem setCodes_codesLegal {s : State} (ht : TreeLegal s) (hv : s.treeValid = true) (hs : tooLong s.assigned = []) :
    CodesLegal (setCodes s s.assigned) := by
  have hlen := tooLong_nil hs
  have hne : ∀ b q, tabGet s.assigned b = some q → q ≠ [] := fun b q h => (State.assigned_sound h).1
  have hcoded : ∀ b, tabGet (setCodes s s.assigned).codeLen b ≠ 0 ↔ (tabGet s.assigned b).isSome = true :=
    fun b => setCodes_coded hne (hlen b)
  refine ⟨fun b => ?_, fun _ => ⟨?_, ?_, ?_, ?_⟩⟩
  · rw [setCodes_codeLen _ _ _ (hlen b), setCodes_codeBits _ _ _ (hlen b)]
    exact valOf_lt _
  · intro b c hbc hb hc
    rw [hcoded, Option.isSome_iff_exists] at hb hc
    obtain ⟨q, hq⟩ := hb
    obtain ⟨r, hr⟩ := hc
    rw [setCodes_codeOf _ _ _ (hlen b), setCodes_codeOf _ _ _ (hlen c)]
    simp only [codeIn, hq, hr, Option.getD_some]
    exact State.assigned_prefix_free hq hr hbc
  · have h1 : (setCodes s s.assigned).codedSymbols.length = allSymbols.countP fun b => (tabGet s.assigned b).isSome := by
      unfold State.codedSymbols
      rw [← List.countP_eq_length_filter]
      refine List.countP_congr fun b _ => ?_
      rw [bne_iff_ne]
      exact hcoded b
    rw [h1]
    have h2 := List.countP_le_length (p := fun b => (tabGet s.assigned b).isSome) (l := allSymbols)
    rw [allSymbols_length] at h2
    simp only [setCodes, BitVec.toNat_ofNat]
    omega
  · obtain ⟨hroot, hshape⟩ := ht hv
    have hm := hshape.1
    obtain ⟨d, b, f, hd⟩ := follow_exists hshape.childrenEarlier (i := s.root.toNat) (by omega)
    have hsome := State.assigned_complete hshape.childrenEarlier (by omega) hshape.2.1 hd
    have h2 := List.countP_le_length (p := fun b => (tabGet s.assigned b).isSome) (l := allSymbols)
    rw [allSymbols_length] at h2
    have h3 : 0 < allSymbols.countP fun b => (tabGet s.assigned b).isSome :=
      List.countP_pos_iff.2 ⟨b, mem_allSymbols b, hsome⟩
    simp only [setCodes, BitVec.toNat_ofNat]
    omega
  · have h1 : (largest fun b => (codeIn s.assigned b).length) ≤ 63 := largest_le.2 hlen
    have h2 : (largest fun b => (tabGet (setCodes s s.assigned).codeLen b).toNat) =
        largest fun b => (codeIn s.assigned b).length := by
      unfold largest
      congr 1
      exact List.map_congr_left fun b _ => setCodes_codeLen _ _ _ (hlen b)
    rw [h2]
    simp only [setCodes, BitVec.toNat_ofNat]
    omega

end Sys2Proof.Machine
end

