-- ==== Sys2Proof/Laws/Memory.lean ====
section
/-! SUPPORT. Laws of host memory: a read after a write, the canonical form, and the free bytes of a destination range. -/

namespace Sys2Proof.Machine

/-! ### The canonical form -/

theorem Mem.wfFrom_nil (lo : Nat) : Mem.wfFrom lo [] = true := rfl

theorem Mem.wfFrom_cons {lo a : Nat} {b : Byte} {r : List Host.Cell} :
    Mem.wfFrom lo ((a, b) :: r) = true ↔ lo ≤ a ∧ a < Config.memSize ∧ b ≠ 0 ∧ Mem.wfFrom (a + 1) r = true := by
  simp [Mem.wfFrom, and_assoc]

theorem Mem.wfFrom_mono {lo lo' : Nat} {m : List Host.Cell} (h : lo' ≤ lo) (hm : Mem.wfFrom lo m = true) :
    Mem.wfFrom lo' m = true := by
  cases m with
  | nil => rfl
  | cons c r =>
    obtain ⟨a, b⟩ := c
    rw [Mem.wfFrom_cons] at hm ⊢
    exact ⟨h.trans hm.1, hm.2⟩

/-- Below the first address a canonical memory reads 0. -/
theorem Mem.read_below {m : List Host.Cell} {lo a : Nat} (hm : Mem.wfFrom lo m = true) (h : a < lo) :
    Mem.read m a = 0 := by
  induction m generalizing lo with
  | nil => rfl
  | cons c r ih =>
    obtain ⟨x, b⟩ := c
    rw [Mem.wfFrom_cons] at hm
    have hx : x ≠ a := by omega
    simp [Mem.read, hx, ih hm.2.2.2 (by omega)]

theorem Mem.wfFrom_write {m : List Host.Cell} {lo a : Nat} {v : Byte} (hm : Mem.wfFrom lo m = true) (hlo : lo ≤ a)
    (ha : a < Config.memSize) : Mem.wfFrom lo (Mem.write m a v) = true := by
  induction m generalizing lo with
  | nil =>
    by_cases hv : v = 0
    · simp [Mem.write, hv, Mem.wfFrom]
    · simp only [Mem.write, hv, if_false]
      exact Mem.wfFrom_cons.2 ⟨hlo, ha, hv, rfl⟩
  | cons c r ih =>
    obtain ⟨x, b⟩ := c
    have h := Mem.wfFrom_cons.1 hm
    simp only [Mem.write]
    split
    · split
      · exact hm
      · next hax hv => exact Mem.wfFrom_cons.2 ⟨hlo, ha, hv, Mem.wfFrom_cons.2 ⟨by omega, h.2⟩⟩
    · split
      · next hax hx =>
        subst hx
        split
        · exact Mem.wfFrom_mono (by omega) h.2.2.2
        · next hv => exact Mem.wfFrom_cons.2 ⟨hlo, ha, hv, h.2.2.2⟩
      · exact Mem.wfFrom_cons.2 ⟨h.1, h.2.1, h.2.2.1, ih h.2.2.2 (by omega)⟩

/-- A write to an address that exists keeps the canonical form. -/
theorem Mem.wf_write {m : List Host.Cell} {a : Nat} {v : Byte} (hm : Mem.wf m = true) (ha : a < Config.memSize) :
    Mem.wf (Mem.write m a v) = true := Mem.wfFrom_write hm (Nat.zero_le a) ha

/-! ### Reads after writes -/

theorem Mem.read_write_from {m : List Host.Cell} {lo a : Nat} {v : Byte} (hm : Mem.wfFrom lo m = true) (b : Nat) :
    Mem.read (Mem.write m a v) b = if b = a then v else Mem.read m b := by
  induction m generalizing lo with
  | nil =>
    by_cases hv : v = 0
    · simp [Mem.write, hv, Mem.read]
    · by_cases hb : b = a
      · simp only [Mem.write, if_neg hv, Mem.read, hb, if_true]
      · simp only [Mem.write, if_neg hv, Mem.read, if_neg hb, if_neg (Ne.symm hb)]
  | cons c r ih =>
    obtain ⟨x, y⟩ := c
    have h := Mem.wfFrom_cons.1 hm
    simp only [Mem.write]
    split
    · next hax =>
      split
      · next hv =>
        split
        · next hb =>
          have hx : x ≠ b := by omega
          simp [Mem.read, hx, hv, Mem.read_below h.2.2.2 (show b < x + 1 by omega)]
        · rfl
      · by_cases hb : b = a
        · simp [Mem.read, hb]
        · simp [Mem.read, hb, Ne.symm hb]
    · split
      · next hax hx =>
        subst hx
        split
        · next hv =>
          by_cases hb : b = a
          · simp [hb, hv, Mem.read_below h.2.2.2 (show a < a + 1 by omega)]
          · simp [Mem.read, hb, Ne.symm hb]
        · by_cases hb : b = a
          · simp [Mem.read, hb]
          · simp [Mem.read, hb, Ne.symm hb]
      · next hax hx =>
        by_cases hb : x = b
        · have : b ≠ a := by omega
          simp [Mem.read, hb, this]
        · simp [Mem.read, hb, ih h.2.2.2]

/-- What a byte reads after one byte was written. -/
theorem Mem.read_write {m : List Host.Cell} {a : Nat} {v : Byte} (hm : Mem.wf m = true) (b : Nat) :
    Mem.read (Mem.write m a v) b = if b = a then v else Mem.read m b := Mem.read_write_from hm b

theorem Mem.read_write_same {m : List Host.Cell} {a : Nat} {v : Byte} (hm : Mem.wf m = true) :
    Mem.read (Mem.write m a v) a = v := by simp [Mem.read_write hm]

theorem Mem.read_write_other {m : List Host.Cell} {a b : Nat} {v : Byte} (hm : Mem.wf m = true) (h : b ≠ a) :
    Mem.read (Mem.write m a v) b = Mem.read m b := by simp [Mem.read_write hm, h]

/-! ### Equal memories are equal lists -/

theorem Mem.ext_from {m m' : List Host.Cell} {lo : Nat} (hm : Mem.wfFrom lo m = true) (hm' : Mem.wfFrom lo m' = true)
    (h : ∀ a, Mem.read m a = Mem.read m' a) : m = m' := by
  induction m generalizing lo m' with
  | nil =>
    cases m' with
    | nil => rfl
    | cons c r =>
      obtain ⟨x, y⟩ := c
      have h2 := (Mem.wfFrom_cons.1 hm').2.2.1
      have := h x
      simp [Mem.read] at this
      exact absurd this.symm h2
  | cons c r ih =>
    obtain ⟨x, y⟩ := c
    have h1 := Mem.wfFrom_cons.1 hm
    cases m' with
    | nil =>
      have := h x
      simp [Mem.read] at this
      exact absurd this h1.2.2.1
    | cons c' r' =>
      obtain ⟨x', y'⟩ := c'
      have h2 := Mem.wfFrom_cons.1 hm'
      have hx : x = x' := by
        by_contra hne
        rcases Nat.lt_or_gt_of_ne hne with hlt | hlt
        · have := h x
          simp only [Mem.read, if_true, if_neg (Ne.symm hne), Mem.read_below h2.2.2.2 (show x < x' + 1 by omega)] at this
          exact h1.2.2.1 this
        · have := h x'
          simp only [Mem.read, if_true, if_neg hne, Mem.read_below h1.2.2.2 (show x' < x + 1 by omega)] at this
          exact h2.2.2.1 this.symm
      subst hx
      have hy : y = y' := by simpa [Mem.read] using h x
      subst hy
      congr 1
      refine ih h1.2.2.2 h2.2.2.2 fun a => ?_
      by_cases ha : x = a
      · subst ha
        rw [Mem.read_below h1.2.2.2 (by omega), Mem.read_below h2.2.2.2 (by omega)]
      · simpa [Mem.read, ha] using h a

/-- Two canonical memories that read the same everywhere are the same list. -/
theorem Mem.ext {m m' : List Host.Cell} (hm : Mem.wf m = true) (hm' : Mem.wf m' = true)
    (h : ∀ a, Mem.read m a = Mem.read m' a) : m = m' := Mem.ext_from hm hm' h

/-! ### Free bytes over a range -/

theorem Mem.scramble_spec {m : List Host.Cell} {k a n : Nat} (hm : Mem.wf m = true) (h : a + n ≤ Config.memSize) :
    Mem.wf (Mem.scramble m k a n) = true ∧
      ∀ b, Mem.read (Mem.scramble m k a n) b =
        if a ≤ b ∧ b < a + n then Config.freeByte (k + (b - a)) else Mem.read m b := by
  induction n generalizing m k a with
  | zero =>
    refine ⟨hm, fun b => ?_⟩
    have : ¬(a ≤ b ∧ b < a + 0) := by omega
    simp only [Mem.scramble, if_neg this]
  | succ n ih =>
    have hw := Mem.wf_write (v := Config.freeByte k) hm (show a < Config.memSize by omega)
    obtain ⟨h1, h2⟩ := ih (k := k + 1) (a := a + 1) hw (by omega)
    refine ⟨h1, fun b => ?_⟩
    simp only [Mem.scramble]
    rw [h2 b, Mem.read_write hm]
    by_cases hb : a + 1 ≤ b ∧ b < a + 1 + n
    · have hb' : a ≤ b ∧ b < a + (n + 1) := by omega
      rw [if_pos hb, if_pos hb']
      congr 1
      omega
    · rw [if_neg hb]
      by_cases hba : b = a
      · subst hba
        have hb' : b ≤ b ∧ b < b + (n + 1) := by omega
        rw [if_pos rfl, if_pos hb']
        simp
      · have hb' : ¬(a ≤ b ∧ b < a + (n + 1)) := by omega
        rw [if_neg hba, if_neg hb']

end Sys2Proof.Machine
end

