-- ==== Sys2Proof/Laws/Sink.lean ====
section
/-! SUPPORT. Laws of a command's destination: the memory after a list of bytes was written, and what `put`, `emit` and the
loops of PACK and SERIALIZE leave. -/

namespace Sys2Proof.Machine

/-! ### A list of bytes written -/

/-- The memory after the bytes of a list are written from `a` on. -/
def Mem.writeAll : List Host.Cell → Nat → List Byte → List Host.Cell
  | m, _, [] => m
  | m, a, v :: vs => Mem.writeAll (Mem.write m a v) (a + 1) vs

theorem Mem.writeAll_append (m : List Host.Cell) (a : Nat) (l r : List Byte) :
    Mem.writeAll m a (l ++ r) = Mem.writeAll (Mem.writeAll m a l) (a + l.length) r := by
  induction l generalizing m a with
  | nil => rfl
  | cons v vs ih =>
    simp only [List.cons_append, Mem.writeAll, ih, List.length_cons]
    congr 1
    omega

theorem Mem.writeAll_spec {m : List Host.Cell} {a : Nat} {l : List Byte} (hm : Mem.wf m = true)
    (h : a + l.length ≤ Config.memSize) :
    Mem.wf (Mem.writeAll m a l) = true ∧
      ∀ b, Mem.read (Mem.writeAll m a l) b = if a ≤ b then (l[b - a]?).getD (Mem.read m b) else Mem.read m b := by
  induction l generalizing m a with
  | nil => exact ⟨hm, fun b => by simp [Mem.writeAll]⟩
  | cons v vs ih =>
    simp only [List.length_cons] at h
    obtain ⟨h1, h2⟩ := ih (a := a + 1) (Mem.wf_write (a := a) (v := v) hm (by omega)) (by omega)
    refine ⟨h1, fun b => ?_⟩
    simp only [Mem.writeAll]
    rw [h2 b]
    simp only [Mem.read_write hm]
    by_cases hb : b = a
    · subst hb
      have h3 : ¬b + 1 ≤ b := by omega
      simp [h3]
    · by_cases hab : a ≤ b
      · have h4 : a + 1 ≤ b := by omega
        have h5 : b - a = (b - (a + 1)) + 1 := by omega
        simp [h4, hab, h5, hb]
      · have h4 : ¬a + 1 ≤ b := by omega
        simp [h4, hab, hb]

theorem Mem.wf_writeAll {m : List Host.Cell} {a : Nat} {l : List Byte} (hm : Mem.wf m = true)
    (h : a + l.length ≤ Config.memSize) : Mem.wf (Mem.writeAll m a l) = true := (Mem.writeAll_spec hm h).1

theorem Mem.read_writeAll_inside {m : List Host.Cell} {a : Nat} {l : List Byte} (hm : Mem.wf m = true)
    (h : a + l.length ≤ Config.memSize) {i : Nat} (hi : i < l.length) :
    Mem.read (Mem.writeAll m a l) (a + i) = l[i] := by
  rw [(Mem.writeAll_spec hm h).2, if_pos (by omega)]
  have e : a + i - a = i := by omega
  simp [e, hi]

theorem Mem.read_writeAll_outside {m : List Host.Cell} {a : Nat} {l : List Byte} (hm : Mem.wf m = true)
    (h : a + l.length ≤ Config.memSize) {b : Nat} (hb : ¬(a ≤ b ∧ b < a + l.length)) :
    Mem.read (Mem.writeAll m a l) b = Mem.read m b := by
  rw [(Mem.writeAll_spec hm h).2]
  by_cases hab : a ≤ b
  · rw [if_pos hab, List.getElem?_eq_none (by omega)]; rfl
  · rw [if_neg hab]

/-! ### The destination after a list of bytes -/

/-- The destination of a command that has written the bytes of a list. -/
def State.sinkOf (s : State) (l : List Byte) : Sink := ⟨Mem.writeAll s.mem s.dstAddr.toNat l, l.length⟩

@[simp] theorem State.sinkOf_out (s : State) (l : List Byte) : (s.sinkOf l).out = l.length := rfl

theorem State.sink_eq (s : State) : s.sink = s.sinkOf [] := rfl

theorem put_sinkOf {s : State} {l : List Byte} {v : Byte} :
    put s (s.sinkOf l) v =
      if s.admits (s.dstAddr.toNat + l.length) .write then .ok (s.sinkOf (l ++ [v]))
      else .error ⟨.busError, BitVec.ofNat 32 (s.dstAddr.toNat + l.length), l.length⟩ := by
  simp only [put, State.sinkOf, Mem.writeAll_append, Mem.writeAll, List.length_append, List.length_singleton]
  rfl

theorem emit_sinkOf {s : State} {l : List Byte} {v : Byte} :
    emit s (s.sinkOf l) v =
      if l.length = s.dstCap.toNat then .error ⟨.capacity, s.dstCap, l.length⟩
      else if s.admits (s.dstAddr.toNat + l.length) .write then .ok (s.sinkOf (l ++ [v]))
      else .error ⟨.busError, BitVec.ofNat 32 (s.dstAddr.toNat + l.length), l.length⟩ := by
  unfold emit
  rw [put_sinkOf, State.sinkOf_out]

/-- A byte emitted leaves the destination one byte longer, still within DST_CAP. -/
theorem emit_ok {s : State} {l : List Byte} {v : Byte} {k : Sink} (h : emit s (s.sinkOf l) v = .ok k)
    (hl : l.length ≤ s.dstCap.toNat) : k = s.sinkOf (l ++ [v]) ∧ (l ++ [v]).length ≤ s.dstCap.toNat := by
  rw [emit_sinkOf] at h
  split at h
  · cases h
  · split at h
    · cases h
      exact ⟨rfl, by simp; omega⟩
    · cases h

theorem emit_room {s : State} {l : List Byte} {v : Byte} (h : l.length < s.dstCap.toNat)
    (ha : s.writesAdmitted (l.length + 1)) : emit s (s.sinkOf l) v = .ok (s.sinkOf (l ++ [v])) := by
  rw [emit_sinkOf, if_neg (by omega), if_pos (ha _ (by omega))]

/-- Byte `o` of the destination cannot be emitted, whatever it is: the attempt ends with the error `r`. -/
def State.stopsAt (s : State) (o : Nat) (r : Raise) : Prop :=
  o ≤ s.dstCap.toNat ∧ s.writesAdmitted o ∧ ∀ (l : List Byte) (v : Byte), l.length = o → emit s (s.sinkOf l) v = .error r

/-- A full destination stops at its end, with CAPACITY(DST_CAP). -/
theorem State.stopsAt_full {s : State} (ha : s.writesAdmitted s.dstCap.toNat) :
    s.stopsAt s.dstCap.toNat ⟨.capacity, s.dstCap, s.dstCap.toNat⟩ :=
  ⟨Nat.le_refl _, ha, fun l v hl => by rw [emit_sinkOf, if_pos hl, hl]⟩

/-- A destination with room stops at the first byte the platform refuses, with BUS_ERROR and its address. -/
theorem State.stopsAt_refused {s : State} {o : Nat} (ho : o < s.dstCap.toNat) (ha : s.writesAdmitted o)
    (hf : s.admits (s.dstAddr.toNat + o) .write = false) :
    s.stopsAt o ⟨.busError, BitVec.ofNat 32 (s.dstAddr.toNat + o), o⟩ :=
  ⟨by omega, ha, fun l v hl => by rw [emit_sinkOf, if_neg (by omega), hl, if_neg (by simp [hf])]⟩

/-- Bytes before the one that stops are emitted. -/
theorem State.stopsAt.emit_before {s : State} {o : Nat} {r : Raise} (h : s.stopsAt o r) {l : List Byte} (hl : l.length < o)
    (v : Byte) : emit s (s.sinkOf l) v = .ok (s.sinkOf (l ++ [v])) :=
  emit_room (by have := h.1; omega) (fun j hj => h.2.1 j (by omega))

/-! ### Bytes made of bits -/

/-- The `n` bytes that the first `8 n` bits of a string make. -/
def groupBytes : Nat → Bits → List Byte
  | 0, _ => []
  | n + 1, q => BitVec.ofNat 8 (valOf (q.take 8)) :: groupBytes n (q.drop 8)

@[simp] theorem groupBytes_length (n : Nat) (q : Bits) : (groupBytes n q).length = n := by
  induction n generalizing q with
  | zero => rfl
  | succ n ih => simp [groupBytes, ih]

theorem groupBytes_add (a b : Nat) (q : Bits) :
    groupBytes (a + b) q = groupBytes a q ++ groupBytes b (q.drop (8 * a)) := by
  induction a generalizing q with
  | zero => simp [groupBytes]
  | succ a ih =>
    have e : a + 1 + b = (a + b) + 1 := by omega
    rw [e]
    simp only [groupBytes, ih, List.cons_append, List.drop_drop]
    congr 4
    omega

theorem groupBytes_append {n : Nat} {q : Bits} (r : Bits) (h : 8 * n ≤ q.length) :
    groupBytes n (q ++ r) = groupBytes n q := by
  induction n generalizing q with
  | zero => rfl
  | succ n ih =>
    simp only [groupBytes]
    rw [List.take_append_of_le_length (by omega), List.drop_append_of_le_length (by omega),
      ih (by simp; omega)]

/-- Bit `k` of the stream is bit `7 - k mod 8` of byte `k div 8` (20_memory.md R63). -/
theorem groupBytes_bit {n : Nat} {q : Bits} (h : 8 * n ≤ q.length) {k : Nat} (hk : k < 8 * n) :
    ((groupBytes n q)[k / 8]'(by simp; omega)).getLsbD (7 - k % 8) = q[k] := by
  induction n generalizing q k with
  | zero => omega
  | succ n ih =>
    by_cases hk8 : k < 8
    · have e : k / 8 = 0 := by omega
      have e2 : k % 8 = k := by omega
      simp only [groupBytes, e, e2, List.getElem_cons_zero]
      rw [byteOf_getLsbD (by simp; omega) hk8]
      simp
    · have e : k / 8 = (k - 8) / 8 + 1 := by omega
      have e2 : k % 8 = (k - 8) % 8 := by omega
      simp only [groupBytes, e, e2, List.getElem_cons_succ]
      rw [ih (by simp; omega) (by omega), List.getElem_drop]
      congr 1
      omega

/-- The bits of the bytes are the bits they were made of. -/
theorem groupBytes_bits {n : Nat} {q : Bits} (h : q.length = 8 * n) :
    (groupBytes n q).flatMap (fun b => bitsOf 8 b.toNat) = q := by
  induction n generalizing q with
  | zero => simp [groupBytes, List.length_eq_zero_iff.1 h]
  | succ n ih =>
    simp only [groupBytes, List.flatMap_cons]
    rw [bitsOf_byteOf (by simp; omega), ih (by simp; omega), List.take_append_drop]

/-! ### The loops of PACK -/

theorem flushLoop_room {s : State} {n : Nat} {q : Bits} {l : List Byte} (h : l.length + n ≤ s.dstCap.toNat)
    (ha : s.writesAdmitted (l.length + n)) :
    flushLoop s n q (s.sinkOf l) = .ok (q.drop (8 * n), s.sinkOf (l ++ groupBytes n q)) := by
  induction n generalizing q l with
  | zero => simp [flushLoop, groupBytes]
  | succ n ih =>
    have he := emit_room (s := s) (l := l) (v := BitVec.ofNat 8 (valOf (q.take 8))) (by omega)
      (fun j hj => ha j (by omega))
    simp only [flushLoop, he]
    rw [ih (by simp; omega) (fun j hj => ha j (by simp at hj; omega))]
    simp only [groupBytes, List.drop_drop, List.append_assoc, List.singleton_append]
    congr 3
    omega

theorem flushLoop_stop {s : State} {o : Nat} {r : Raise} (hs : s.stopsAt o r) {n : Nat} {q : Bits} {l : List Byte}
    (hl : l.length ≤ o) (h : o < l.length + n) : flushLoop s n q (s.sinkOf l) = .error r := by
  induction n generalizing q l with
  | zero => omega
  | succ n ih =>
    by_cases hf : l.length = o
    · simp only [flushLoop, hs.2.2 l _ hf]
    · simp only [flushLoop, hs.emit_before (show l.length < o by omega)]
      exact ih (by simp; omega) (by simp; omega)

/-- Whatever bytes the loop writes stay within DST_CAP. -/
theorem flushLoop_ok {s : State} {n : Nat} {q q' : Bits} {l : List Byte} {k : Sink}
    (h : flushLoop s n q (s.sinkOf l) = .ok (q', k)) (hl : l.length ≤ s.dstCap.toNat) :
    ∃ l', k = s.sinkOf l' ∧ l'.length ≤ s.dstCap.toNat := by
  induction n generalizing q l with
  | zero =>
    simp only [flushLoop, Except.ok.injEq, Prod.mk.injEq] at h
    exact ⟨l, h.2.symm, hl⟩
  | succ n ih =>
    simp only [flushLoop] at h
    split at h
    · cases h
    · next k' he =>
      obtain ⟨rfl, hl'⟩ := emit_ok he hl
      exact ih h hl'

theorem readSrc_ok {s : State} {j w : Nat} {b : Byte} (h : readSrc s j w = .ok b) : b = s.sourceByte j := by
  unfold readSrc at h
  split at h
  · cases h; rfl
  · cases h

theorem readSrc_admitted {s : State} {j w : Nat} (h : s.admits (s.srcAddr.toNat + j) .read = true) :
    readSrc s j w = .ok (s.sourceByte j) := by
  unfold readSrc
  rw [if_pos h]
  rfl

theorem readSrc_refused {s : State} {j w : Nat} (h : s.admits (s.srcAddr.toNat + j) .read = false) :
    readSrc s j w = .error ⟨.busError, BitVec.ofNat 32 (s.srcAddr.toNat + j), w⟩ := by
  unfold readSrc
  rw [if_neg (by simp [h])]

theorem packLoop_ok {s : State} {n j : Nat} {q q' : Bits} {l : List Byte} {k : Sink}
    (h : packLoop s n j q (s.sinkOf l) = .ok (q', k)) (hl : l.length ≤ s.dstCap.toNat) :
    ∃ l', k = s.sinkOf l' ∧ l'.length ≤ s.dstCap.toNat := by
  induction n generalizing j q l with
  | zero =>
    simp only [packLoop, Except.ok.injEq, Prod.mk.injEq] at h
    exact ⟨l, h.2.symm, hl⟩
  | succ n ih =>
    simp only [packLoop] at h
    split at h
    · cases h
    · split at h
      · cases h
      · split at h
        · cases h
        · next hf =>
          obtain ⟨l', rfl, hl'⟩ := flushLoop_ok hf hl
          exact ih h hl'

/-- The code bits of `n` source bytes from offset `j` on. -/
def State.streamFrom (s : State) (j n : Nat) : Bits := ((List.range' j n).map s.sourceByte).flatMap s.codeOf

theorem State.streamFrom_succ (s : State) (j n : Nat) :
    s.streamFrom j (n + 1) = s.codeOf (s.sourceByte j) ++ s.streamFrom (j + 1) n := by
  simp [State.streamFrom, List.range'_succ]

theorem State.streamFrom_zero (s : State) (n : Nat) : s.streamFrom 0 n = s.codeStream (s.sourcePart n) := by
  simp [State.streamFrom, State.codeStream, State.sourcePart, List.range_eq_range']

/-- The loop over source bytes that are all admitted and coded, with room for every whole byte. -/
theorem packLoop_room {s : State} {n j : Nat} {q : Bits} {l : List Byte}
    (hr : ∀ i < n, s.admits (s.srcAddr.toNat + (j + i)) .read = true)
    (hc : ∀ i < n, tabGet s.codeLen (s.sourceByte (j + i)) ≠ 0)
    (hq : q.length < 8)
    (h : l.length + (q ++ s.streamFrom j n).length / 8 ≤ s.dstCap.toNat)
    (ha : s.writesAdmitted (l.length + (q ++ s.streamFrom j n).length / 8)) :
    packLoop s n j q (s.sinkOf l) =
      .ok ((q ++ s.streamFrom j n).drop (8 * ((q ++ s.streamFrom j n).length / 8)),
        s.sinkOf (l ++ groupBytes ((q ++ s.streamFrom j n).length / 8) (q ++ s.streamFrom j n))) := by
  induction n generalizing j q l with
  | zero =>
    have e : (q ++ s.streamFrom j 0).length / 8 = 0 := by
      simp [State.streamFrom]; omega
    rw [e]
    simp [packLoop, groupBytes, State.streamFrom]
  | succ n ih =>
    have h0 := hr 0 (by omega)
    have hc0 := hc 0 (by omega)
    simp only [Nat.add_zero] at h0 hc0
    simp only [packLoop, readSrc_admitted h0, if_neg hc0]
    rw [State.streamFrom_succ, ← List.append_assoc] at h ha ⊢
    generalize hp : q ++ s.codeOf (s.sourceByte j) = p at h ha ⊢
    have hlen : (p ++ s.streamFrom (j + 1) n).length / 8 =
        p.length / 8 + (p.drop (8 * (p.length / 8)) ++ s.streamFrom (j + 1) n).length / 8 := by
      simp only [List.length_append, List.length_drop]; omega
    have hdrop : (p.drop (8 * (p.length / 8)) ++ s.streamFrom (j + 1) n) =
        (p ++ s.streamFrom (j + 1) n).drop (8 * (p.length / 8)) := by
      rw [List.drop_append_of_le_length (by omega)]
    have hlen2 : (l ++ groupBytes (p.length / 8) p).length = l.length + p.length / 8 := by simp
    rw [hlen] at h ha
    rw [flushLoop_room (by omega) (fun i hi => ha i (by omega))]
    simp only
    rw [ih (fun i hi => by have := hr (i + 1) (by omega); rwa [show j + (i + 1) = j + 1 + i by omega] at this)
      (fun i hi => by have := hc (i + 1) (by omega); rwa [show j + (i + 1) = j + 1 + i by omega] at this)
      (by simp only [List.length_drop]; omega) (by rw [hlen2]; omega)
      (fun i hi => ha i (by rw [hlen2] at hi; omega))]
    rw [hlen, groupBytes_add, groupBytes_append (n := p.length / 8) (q := p) _ (by omega), hdrop, List.drop_drop,
      List.append_assoc]
    congr 3
    omega

/-- The loop over such bytes ends at the byte of output that stops it, if it comes to it. -/
theorem packLoop_stop {s : State} {o : Nat} {r : Raise} (hs : s.stopsAt o r) {n j : Nat} {q : Bits} {l : List Byte}
    (hr : ∀ i < n, s.admits (s.srcAddr.toNat + (j + i)) .read = true)
    (hc : ∀ i < n, tabGet s.codeLen (s.sourceByte (j + i)) ≠ 0)
    (hq : q.length < 8) (hl : l.length ≤ o) (h : o < l.length + (q ++ s.streamFrom j n).length / 8) :
    packLoop s n j q (s.sinkOf l) = .error r := by
  have ho := hs.1
  induction n generalizing j q l with
  | zero =>
    have e : (q ++ s.streamFrom j 0).length / 8 = 0 := by
      simp [State.streamFrom]; omega
    omega
  | succ n ih =>
    have h0 := hr 0 (by omega)
    have hc0 := hc 0 (by omega)
    simp only [Nat.add_zero] at h0 hc0
    simp only [packLoop, readSrc_admitted h0, if_neg hc0]
    rw [State.streamFrom_succ, ← List.append_assoc] at h
    generalize hp : q ++ s.codeOf (s.sourceByte j) = p at h ⊢
    have hlen : (p ++ s.streamFrom (j + 1) n).length / 8 =
        p.length / 8 + (p.drop (8 * (p.length / 8)) ++ s.streamFrom (j + 1) n).length / 8 := by
      simp only [List.length_append, List.length_drop]; omega
    by_cases hroom : l.length + p.length / 8 ≤ o
    · rw [flushLoop_room (by omega) (fun i hi => hs.2.1 i (by omega))]
      simp only
      exact ih (fun i hi => by have := hr (i + 1) (by omega); rwa [show j + (i + 1) = j + 1 + i by omega] at this)
        (fun i hi => by have := hc (i + 1) (by omega); rwa [show j + (i + 1) = j + 1 + i by omega] at this)
        (by simp only [List.length_drop]; omega) (by simp only [List.length_append, groupBytes_length]; omega)
        (by simp only [List.length_append, groupBytes_length] at *; omega)
    · rw [flushLoop_stop hs hl (by omega)]

end Sys2Proof.Machine
end

