-- ==== Sys2Proof/Laws/Container.lean ====
section
/-! SUPPORT. What SERIALIZE writes, what DESERIALIZE reads and which containers it accepts (42_container.md). -/

namespace Sys2Proof.Machine

/-! ### SERIALIZE -/

theorem putAll_room {s : State} {v l : List Byte} (ha : s.writesAdmitted (l.length + v.length)) :
    putAll s v (s.sinkOf l) = .ok (s.sinkOf (l ++ v)) := by
  induction v generalizing l with
  | nil => simp [putAll]
  | cons x v ih =>
    simp only [List.length_cons] at ha
    simp only [putAll, put_sinkOf, if_pos (ha l.length (by omega))]
    rw [ih (fun j hj => ha j (by simp at hj; omega))]
    simp

theorem put_refused {s : State} {l : List Byte} {v : Byte} (h : s.admits (s.dstAddr.toNat + l.length) .write = false) :
    put s (s.sinkOf l) v = .error ⟨.busError, BitVec.ofNat 32 (s.dstAddr.toNat + l.length), l.length⟩ := by
  rw [put_sinkOf, if_neg (by simp [h])]

theorem putAll_refused {s : State} {o : Nat} {v l : List Byte} (ha : s.writesAdmitted o)
    (hf : s.admits (s.dstAddr.toNat + o) .write = false) (hl : l.length ≤ o) (h : o < l.length + v.length) :
    putAll s v (s.sinkOf l) = .error ⟨.busError, BitVec.ofNat 32 (s.dstAddr.toNat + o), o⟩ := by
  induction v generalizing l with
  | nil => simp at h; omega
  | cons x v ih =>
    by_cases he : l.length = o
    · subst he
      simp only [putAll, put_refused hf]
    · simp only [putAll, put_sinkOf, if_pos (ha l.length (by omega))]
      exact ih (by simp; omega) (by simp at h ⊢; omega)

theorem putAll_ok {s : State} {v l : List Byte} {k : Sink} (h : putAll s v (s.sinkOf l) = .ok k) :
    k = s.sinkOf (l ++ v) := by
  induction v generalizing l with
  | nil =>
    simp only [putAll, Except.ok.injEq] at h
    simpa using h.symm
  | cons x v ih =>
    simp only [putAll, put_sinkOf] at h
    split at h
    · cases h
    · next k' hp =>
      split at hp
      · cases hp
        rw [ih h]
        simp
      · cases hp

/-- `n` source bytes from offset `j` on. -/
def State.sourceFrom (s : State) (j n : Nat) : List Byte := (List.range' j n).map s.sourceByte

@[simp] theorem State.sourceFrom_length (s : State) (j n : Nat) : (s.sourceFrom j n).length = n := by
  simp [State.sourceFrom]

theorem State.sourceFrom_succ (s : State) (j n : Nat) :
    s.sourceFrom j (n + 1) = s.sourceByte j :: s.sourceFrom (j + 1) n := by simp [State.sourceFrom, List.range'_succ]

theorem State.sourceFrom_zero (s : State) : s.sourceFrom 0 s.srcLen.toNat = s.sourceBytes := by
  simp [State.sourceFrom, State.sourceBytes, State.sourcePart, List.range_eq_range']

theorem State.sourceFrom_eq (s : State) {j n : Nat} (h : j + n ≤ s.srcLen.toNat) :
    s.sourceFrom j n = (s.sourceBytes.drop j).take n := by
  refine List.ext_getElem ?_ fun i h1 h2 => ?_
  · simp [State.sourceBytes, State.sourcePart]; omega
  · simp [State.sourceFrom, State.sourceBytes, State.sourcePart]

theorem copyLoop_room {s : State} {n j : Nat} {l : List Byte}
    (hr : ∀ i < n, s.admits (s.srcAddr.toNat + (j + i)) .read = true) (ha : s.writesAdmitted (l.length + n)) :
    copyLoop s n j (s.sinkOf l) = .ok (s.sinkOf (l ++ s.sourceFrom j n)) := by
  induction n generalizing j l with
  | zero => simp [copyLoop, State.sourceFrom]
  | succ n ih =>
    have h0 := hr 0 (by omega)
    rw [Nat.add_zero] at h0
    simp only [copyLoop, readSrc_admitted h0, put_sinkOf, if_pos (ha l.length (by omega))]
    rw [ih (fun i hi => by have := hr (i + 1) (by omega); rwa [show j + (i + 1) = j + 1 + i by omega] at this)
      (fun i hi => ha i (by simp at hi; omega)), State.sourceFrom_succ]
    simp

/-- The copy ends at the first byte of output the platform refuses. -/
theorem copyLoop_refused {s : State} {o : Nat} {n j : Nat} {l : List Byte} (ha : s.writesAdmitted o)
    (hf : s.admits (s.dstAddr.toNat + o) .write = false) (hl : l.length ≤ o) (h : o < l.length + n)
    (hr : ∀ i ≤ o - l.length, s.admits (s.srcAddr.toNat + (j + i)) .read = true) :
    copyLoop s n j (s.sinkOf l) = .error ⟨.busError, BitVec.ofNat 32 (s.dstAddr.toNat + o), o⟩ := by
  induction n generalizing j l with
  | zero => omega
  | succ n ih =>
    have h0 := hr 0 (by omega)
    rw [Nat.add_zero] at h0
    by_cases he : l.length = o
    · subst he
      simp only [copyLoop, readSrc_admitted h0, put_refused hf]
    · simp only [copyLoop, readSrc_admitted h0, put_sinkOf, if_pos (ha l.length (by omega))]
      exact ih (by simp; omega) (by simp; omega) fun i hi => by
        have := hr (i + 1) (by simp at hi; omega)
        rwa [show j + (i + 1) = j + 1 + i by omega] at this

/-- The copy ends at the first source byte whose read is refused. -/
theorem copyLoop_read_refused {s : State} {n j i : Nat} {l : List Byte} (hi : i < n)
    (hr : ∀ k < i, s.admits (s.srcAddr.toNat + (j + k)) .read = true)
    (hf : s.admits (s.srcAddr.toNat + (j + i)) .read = false) (ha : s.writesAdmitted (l.length + i)) :
    copyLoop s n j (s.sinkOf l) = .error ⟨.busError, BitVec.ofNat 32 (s.srcAddr.toNat + (j + i)), l.length + i⟩ := by
  induction n generalizing j i l with
  | zero => omega
  | succ n ih =>
    cases i with
    | zero =>
      rw [Nat.add_zero] at hf ⊢
      simp only [copyLoop, readSrc_refused hf]
      rfl
    | succ i =>
      have h0 := hr 0 (by omega)
      rw [Nat.add_zero] at h0
      simp only [copyLoop, readSrc_admitted h0, put_sinkOf, if_pos (ha l.length (by omega))]
      have := ih (l := l ++ [s.sourceByte j]) (j := j + 1) (i := i) (by omega) (fun k hk => by
        have := hr (k + 1) (by omega)
        rwa [show j + (k + 1) = j + 1 + k by omega] at this)
        (by rwa [show j + (i + 1) = j + 1 + i by omega] at hf) (fun k hk => ha k (by simp at hk; omega))
      rw [this]
      simp only [List.length_append, List.length_singleton]
      rw [show j + 1 + i = j + (i + 1) by omega, show l.length + 1 + i = l.length + (i + 1) by omega]

theorem copyLoop_ok {s : State} {n j : Nat} {l : List Byte} {k : Sink} (h : copyLoop s n j (s.sinkOf l) = .ok k) :
    k = s.sinkOf (l ++ s.sourceFrom j n) := by
  induction n generalizing j l with
  | zero =>
    simp only [copyLoop, Except.ok.injEq] at h
    simpa [State.sourceFrom] using h.symm
  | succ n ih =>
    simp only [copyLoop] at h
    split at h
    · cases h
    · next v hv =>
      rw [put_sinkOf] at h
      split at h
      · cases h
      · next k' hp =>
        split at hp
        · cases hp
          rw [ih h, readSrc_ok hv, State.sourceFrom_succ]
          simp
        · cases hp

theorem storedFlat_length (s : State) (l : List Byte) :
    (l.flatMap fun b => bytesBE 8 (s.storedCode b)).length = 8 * l.length := by
  induction l with
  | nil => rfl
  | cons b l ih => simp [ih]; omega

theorem State.header_length (s : State) : s.header.length = 5 + 9 * s.entries.length := by
  simp only [State.header, List.length_append, bytesBE_length, storedFlat_length, List.length_singleton]
  omega

theorem State.entries_le (s : State) : s.entries.length ≤ s.symCount.toNat := by
  simp [State.entries]

theorem serializeRun_ok {s : State} {k : Sink} (h : serializeRun s = .ok k) :
    k = s.sinkOf (s.header ++ s.sourceBytes) ∧ (s.header ++ s.sourceBytes).length ≤ s.dstCap.toNat := by
  unfold serializeRun at h
  split at h
  · cases h
  · next hcap =>
    split at h
    · cases h
    · next k' hp =>
      rw [State.sink_eq] at hp
      have := putAll_ok hp
      subst this
      have := copyLoop_ok h
      subst this
      rw [List.nil_append, State.sourceFrom_zero]
      refine ⟨rfl, ?_⟩
      have h1 := s.header_length
      have h2 := s.entries_le
      have h3 : s.sourceBytes.length = s.srcLen.toNat := by simp [State.sourceBytes, State.sourcePart]
      unfold State.containerSize at hcap
      rw [List.length_append]
      omega

theorem serializeRun_room {s : State} (hcap : s.containerSize ≤ s.dstCap.toNat)
    (hr : s.readsAdmitted s.srcLen.toNat) (ha : s.writesAdmitted s.containerSize) :
    serializeRun s = .ok (s.sinkOf (s.header ++ s.sourceBytes)) := by
  have h1 := s.header_length
  have h2 := s.entries_le
  unfold serializeRun
  unfold State.containerSize at hcap ha
  rw [if_neg (by unfold State.containerSize; omega), State.sink_eq,
    putAll_room (fun j hj => ha j (by simp at hj; omega))]
  simp only [List.nil_append]
  rw [copyLoop_room (by simpa [State.readsAdmitted] using hr) (fun j hj => ha j (by omega)), State.sourceFrom_zero]

/-- A container that fits ends at the first byte of output the platform refuses. -/
theorem serializeRun_refused {s : State} {o : Nat} (hcap : s.containerSize ≤ s.dstCap.toNat)
    (ho : o < s.header.length + s.srcLen.toNat) (ha : s.writesAdmitted o)
    (hf : s.admits (s.dstAddr.toNat + o) .write = false) (hr : s.readsAdmitted (o + 1 - s.header.length)) :
    serializeRun s = .error ⟨.busError, BitVec.ofNat 32 (s.dstAddr.toNat + o), o⟩ := by
  unfold serializeRun
  rw [if_neg (by omega), State.sink_eq]
  by_cases hh : o < s.header.length
  · rw [putAll_refused ha hf (by simp) (by simpa using hh)]
  · rw [putAll_room (fun j hj => ha j (by simp at hj; omega))]
    simp only [List.nil_append]
    exact copyLoop_refused ha hf (by omega) ho fun i hi => by
      rw [Nat.zero_add]
      exact hr i (by omega)

/-- A container that fits ends at the first source byte whose read is refused. -/
theorem serializeRun_read_refused {s : State} {j : Nat} (hcap : s.containerSize ≤ s.dstCap.toNat) (hj : j < s.srcLen.toNat)
    (hr : s.readsAdmitted j) (hf : s.admits (s.srcAddr.toNat + j) .read = false)
    (ha : s.writesAdmitted (s.header.length + j)) :
    serializeRun s = .error ⟨.busError, BitVec.ofNat 32 (s.srcAddr.toNat + j), s.header.length + j⟩ := by
  unfold serializeRun
  rw [if_neg (by omega), State.sink_eq, putAll_room (fun j hj => ha j (by simp at hj; omega))]
  simp only [List.nil_append]
  have := copyLoop_read_refused (l := s.header) (j := 0) hj (by simpa [State.readsAdmitted] using hr) (by simpa using hf) ha
  simpa using this

/-! ### Reading a container -/

theorem readSpan_refused {s : State} {n o j : Nat} (hj : j < n)
    (hr : ∀ i < j, s.admits (s.srcAddr.toNat + (o + i)) .read = true)
    (hf : s.admits (s.srcAddr.toNat + (o + j)) .read = false) :
    readSpan s n o = .error ⟨.busError, BitVec.ofNat 32 (s.srcAddr.toNat + (o + j)), 0⟩ := by
  induction n generalizing o j with
  | zero => omega
  | succ n ih =>
    cases j with
    | zero =>
      rw [Nat.add_zero] at hf ⊢
      simp only [readSpan, readSrc_refused hf]
      rfl
    | succ j =>
      have h0 := hr 0 (by omega)
      rw [Nat.add_zero] at h0
      rw [show o + (j + 1) = o + 1 + j by omega] at hf ⊢
      simp only [readSpan, readSrc_admitted h0, ih (o := o + 1) (show j < n by omega) (fun i hi => by
        have := hr (i + 1) (by omega)
        rwa [show o + (i + 1) = o + 1 + i by omega] at this) hf]

theorem readSpan_ok {s : State} {n o : Nat} {l : List Byte} (h : readSpan s n o = .ok l) : l = s.sourceFrom o n := by
  induction n generalizing o l with
  | zero => cases h; rfl
  | succ n ih =>
    simp only [readSpan] at h
    split at h
    · cases h
    · next b hb =>
      split at h
      · cases h
      · next bs hbs =>
        cases h
        rw [ih hbs, readSrc_ok hb, State.sourceFrom_succ]

theorem readSpan_admitted {s : State} {n o : Nat}
    (h : ∀ i < n, s.admits (s.srcAddr.toNat + (o + i)) .read = true) : readSpan s n o = .ok (s.sourceFrom o n) := by
  induction n generalizing o with
  | zero => rfl
  | succ n ih =>
    have h0 := h 0 (by omega)
    rw [Nat.add_zero] at h0
    simp only [readSpan, readSrc_admitted h0]
    rw [ih fun i hi => by have := h (i + 1) (by omega); rwa [show o + (i + 1) = o + 1 + i by omega] at this]
    rw [State.sourceFrom_succ]

@[simp] theorem storedValues_length (n : Nat) (l : List Byte) : (storedValues n l).length = n := by
  induction n generalizing l with
  | zero => rfl
  | succ n ih => simp [storedValues, ih]

theorem storedValues_lt {n : Nat} {l : List Byte} : ∀ v ∈ storedValues n l, v < 2 ^ 64 := by
  induction n generalizing l with
  | zero => simp [storedValues]
  | succ n ih =>
    intro v hv
    simp only [storedValues, List.mem_cons] at hv
    rcases hv with rfl | hv
    · have h1 := valBE_lt (l.take 8)
      have h2 : (l.take 8).length ≤ 8 := by simp
      have h3 : 256 ^ (l.take 8).length ≤ 256 ^ 8 := Nat.pow_le_pow_right (by omega) h2
      have h4 : (256 : Nat) ^ 8 = 2 ^ 64 := by norm_num
      omega
    · exact ih v hv

/-- The stored values are those whose bytes stand there. -/
theorem storedValues_flat {vals : List Nat} (h : ∀ v ∈ vals, v < 2 ^ 64) (r : List Byte) :
    storedValues vals.length (vals.flatMap (bytesBE 8) ++ r) = vals := by
  induction vals with
  | nil => rfl
  | cons v vals ih =>
    have h1 : v < 256 ^ 8 := by have := h v (by simp); norm_num at this ⊢; exact this
    simp only [List.flatMap_cons, List.length_cons, storedValues, List.append_assoc]
    rw [List.take_left' (by simp), List.drop_left' (by simp), valBE_bytesBE h1, ih fun x hx => h x (by simp [hx])]

/-- Bytes read as values give back the bytes. -/
theorem flat_storedValues {n : Nat} {l : List Byte} (h : 8 * n ≤ l.length) :
    (storedValues n l).flatMap (bytesBE 8) = l.take (8 * n) := by
  induction n generalizing l with
  | zero => simp [storedValues]
  | succ n ih =>
    have h8 : (l.take 8).length = 8 := by simp; omega
    have e := bytesBE_valBE (l.take 8)
    rw [h8] at e
    simp only [storedValues, List.flatMap_cons, e]
    rw [ih (by simp; omega), show 8 * (n + 1) = 8 + 8 * n by omega, List.take_add]

theorem firstRepeat_none {seen l : List Byte} {k : Nat} :
    firstRepeat seen k l = none ↔ l.Nodup ∧ ∀ b ∈ l, b ∉ seen := by
  induction l generalizing seen k with
  | nil => simp [firstRepeat]
  | cons b l ih =>
    simp only [firstRepeat, List.contains_iff_mem]
    split
    · next h => simp [h]
    · next h =>
      rw [ih, List.nodup_cons]
      simp only [List.mem_cons, not_or]
      constructor
      · rintro ⟨h1, h2⟩
        refine ⟨⟨fun hc => (h2 b hc).1 rfl, h1⟩, ?_⟩
        rintro x (rfl | hx)
        · exact h
        · exact (h2 x hx).2
      · rintro ⟨⟨h1, h2⟩, h3⟩
        exact ⟨h2, fun x hx => ⟨fun e => h1 (e ▸ hx), h3 x (Or.inr hx)⟩⟩

theorem firstShort_none {l : List Nat} {k : Nat} : firstShort k l = none ↔ ∀ v ∈ l, 2 ≤ v := by
  induction l generalizing k with
  | nil => simp [firstShort]
  | cons v l ih =>
    simp only [firstShort]
    split
    · next h => simp [h]
    · next h => simp [ih]; omega

theorem clashes_comm (c d : Bits) : clashes c d = clashes d c := by simp [clashes, Bool.or_comm]

theorem firstClash_none {seen l : List Bits} {k : Nat} :
    firstClash seen k l = none ↔
      l.Pairwise (fun c d => clashes c d = false) ∧ ∀ c ∈ l, ∀ d ∈ seen, clashes c d = false := by
  induction l generalizing seen k with
  | nil => simp [firstClash]
  | cons c l ih =>
    simp only [firstClash]
    split
    · next h =>
      rw [List.any_eq_true] at h
      obtain ⟨d, hd, hcd⟩ := h
      simp only [reduceCtorEq, false_iff]
      rintro ⟨-, h2⟩
      rw [h2 c (by simp) d hd] at hcd
      cases hcd
    · next h =>
      simp only [List.any_eq_true, not_exists, not_and, Bool.not_eq_true] at h
      rw [ih, List.pairwise_cons]
      simp only [List.mem_cons, forall_eq_or_imp]
      constructor
      · rintro ⟨h1, h2⟩
        exact ⟨⟨fun d hd => by rw [clashes_comm]; exact (h2 d hd).1, h1⟩, h, fun d hd => (h2 d hd).2⟩
      · rintro ⟨⟨h1, h2⟩, -, h3⟩
        exact ⟨h2, fun d hd => ⟨by rw [clashes_comm]; exact h1 d hd, h3 d hd⟩⟩

/-- Checks 5 to 9 pass exactly on the tables they describe (42_container.md R181). -/
theorem firstRepeat_some {seen l : List Byte} {k j : Nat} {b : Byte} (hb : l[j]? = some b)
    (hm : b ∈ seen ∨ b ∈ l.take j) (hn : (l.take j).Nodup) (hd : ∀ c ∈ l.take j, c ∉ seen) :
    firstRepeat seen k l = some (k + j) := by
  induction l generalizing seen k j with
  | nil => simp at hb
  | cons c l ih =>
    cases j with
    | zero =>
      simp only [List.getElem?_cons_zero, Option.some.injEq] at hb
      subst hb
      have : seen.contains c = true := by simpa using hm
      simp only [firstRepeat, if_pos this, Nat.add_zero]
    | succ j =>
      simp only [List.take_succ_cons, List.mem_cons, forall_eq_or_imp, List.nodup_cons] at hm hn hd
      have : ¬seen.contains c = true := by simpa using hd.1
      simp only [firstRepeat, if_neg this]
      rw [ih (j := j) (by simpa using hb) (by simp only [List.mem_cons]; tauto) hn.2 fun d hd' => ?_]
      · congr 1; omega
      · simp only [List.mem_cons, not_or]
        exact ⟨fun e => hn.1 (e ▸ hd'), hd.2 d hd'⟩

theorem firstShort_some {l : List Nat} {k j v : Nat} (hv : l[j]? = some v) (h2 : v < 2)
    (hn : ∀ w ∈ l.take j, 2 ≤ w) : firstShort k l = some (k + j) := by
  induction l generalizing k j with
  | nil => simp at hv
  | cons w l ih =>
    cases j with
    | zero =>
      simp only [List.getElem?_cons_zero, Option.some.injEq] at hv
      subst hv
      simp [firstShort, h2]
    | succ j =>
      simp only [List.take_succ_cons, List.mem_cons, forall_eq_or_imp] at hn
      have : ¬w < 2 := by omega
      simp only [firstShort, if_neg this]
      rw [ih (j := j) (by simpa using hv) hn.2]
      congr 1; omega

theorem firstClash_some {seen l : List Bits} {k j : Nat} {q : Bits} (hq : l[j]? = some q)
    (hm : ∃ r, (r ∈ seen ∨ r ∈ l.take j) ∧ clashes q r = true)
    (hn : (l.take j).Pairwise fun q r => clashes q r = false) (hd : ∀ r ∈ l.take j, ∀ u ∈ seen, clashes r u = false) :
    firstClash seen k l = some (k + j) := by
  induction l generalizing seen k j with
  | nil => simp at hq
  | cons u l ih =>
    cases j with
    | zero =>
      simp only [List.getElem?_cons_zero, Option.some.injEq] at hq
      subst hq
      have : seen.any (clashes u) = true := by simpa using hm
      simp [firstClash, this]
    | succ j =>
      simp only [List.take_succ_cons, List.mem_cons, forall_eq_or_imp, List.pairwise_cons] at hm hn hd
      have : ¬seen.any (clashes u) = true := by simpa using hd.1
      simp only [firstClash, if_neg this]
      obtain ⟨r, hr, hc⟩ := hm
      rw [ih (j := j) (by simpa using hq) ⟨r, by simp only [List.mem_cons]; tauto, hc⟩ hn.2 fun d hd' w hw => ?_]
      · congr 1; omega
      · simp only [List.mem_cons] at hw
        rcases hw with rfl | hw
        · rw [clashes_comm]; exact hn.1 d hd'
        · exact hd.2 d hd' w hw

theorem tableFault_none {len n : Nat} {t : List Byte} : tableFault len n t = none ↔
    (containerSymbols n t).Nodup ∧ (∀ v ∈ containerValues n t, 2 ≤ v) ∧
      ((containerValues n t).map sentinelCode).Pairwise (fun c d => clashes c d = false) ∧
      (containerPad n t).toNat ≤ 7 ∧ (len = 5 + 9 * n → containerPad n t = 0) := by
  unfold tableFault
  cases h5 : firstRepeat [] 0 (containerSymbols n t) with
  | some k =>
    simp only [reduceCtorEq, false_iff]
    rintro ⟨h, -⟩
    have := (firstRepeat_none (seen := []) (k := 0)).2 ⟨h, by simp⟩
    rw [h5] at this
    cases this
  | none =>
    have h5' := (firstRepeat_none.1 h5).1
    cases h6 : firstShort 0 (containerValues n t) with
    | some k =>
      simp only [reduceCtorEq, false_iff]
      rintro ⟨-, h, -⟩
      have := (firstShort_none (k := 0)).2 h
      rw [h6] at this
      cases this
    | none =>
      have h6' := firstShort_none.1 h6
      cases h7 : firstClash [] 0 ((containerValues n t).map sentinelCode) with
      | some k =>
        simp only [reduceCtorEq, false_iff]
        rintro ⟨-, -, h, -⟩
        have := (firstClash_none (seen := []) (k := 0)).2 ⟨h, by simp⟩
        rw [h7] at this
        cases this
      | none =>
        have h7' := (firstClash_none.1 h7).1
        simp only
        split
        · next h8 =>
          simp only [reduceCtorEq, false_iff]
          rintro ⟨-, -, -, h, -⟩
          omega
        · next h8 =>
          split
          · next h9 =>
            simp only [reduceCtorEq, false_iff]
            rintro ⟨-, -, -, -, h⟩
            exact h9.2 (h h9.1)
          · next h9 =>
            simp only [true_iff]
            refine ⟨h5', h6', h7', by omega, fun hl => ?_⟩
            by_contra hc
            exact h9 ⟨hl, hc⟩

theorem alphabet_eq : Config.alphabet = 256 := rfl

/-- What DESERIALIZE has read and checked when it goes on (42_container.md R180, R181). -/
theorem parseContainer_ok {s : State} {n : Nat} {t : List Byte} (h : parseContainer s = .ok (n, t)) :
    s.srcFits = true ∧ 5 + 9 * n ≤ s.srcLen.toNat ∧ 1 ≤ n ∧ n ≤ 256 ∧ n = valBE (s.sourceFrom 0 4) ∧
      t = s.sourceFrom 4 (1 + 9 * n) ∧ tableFault s.srcLen.toNat n t = none := by
  unfold parseContainer at h
  split at h
  · next hfit =>
    split at h
    · cases h
    · split at h
      · cases h
      · next hd hhd =>
        have := readSpan_ok hhd
        subst this
        unfold parseTable at h
        split at h
        · cases h
        · split at h
          · cases h
          · split at h
            · cases h
            · split at h
              · cases h
              · next tt htt =>
                have := readSpan_ok htt
                subst this
                split at h
                · cases h
                · next hnone =>
                  cases h
                  have := alphabet_eq
                  exact ⟨hfit, by omega, by omega, by omega, rfl, rfl, hnone⟩
  · cases h

theorem parseContainer_of {s : State} {n : Nat} (hfit : s.srcFits = true) (hlen : 5 + 9 * n ≤ s.srcLen.toNat)
    (h1 : 1 ≤ n) (h2 : n ≤ 256) (hn : n = valBE (s.sourceFrom 0 4))
    (hf : tableFault s.srcLen.toNat n (s.sourceFrom 4 (1 + 9 * n)) = none) (hr : s.readsAdmitted (5 + 9 * n)) :
    parseContainer s = .ok (n, s.sourceFrom 4 (1 + 9 * n)) := by
  unfold parseContainer
  rw [if_pos hfit, if_neg (by omega), readSpan_admitted fun i hi => hr _ (by omega)]
  simp only [← hn]
  unfold parseTable
  rw [if_neg (by omega), if_neg (by rw [alphabet_eq]; omega), if_neg (by omega), readSpan_admitted fun i hi => hr _ (by omega)]
  simp only [hf]

/-! ### The parts of a container -/

/-- The first read that is refused, of the entry count or of the table behind it, ends the parse with BUS_ERROR. -/
theorem parseContainer_refused {s : State} {j : Nat} (hfit : s.srcFits = true) (h4 : 4 ≤ s.srcLen.toNat)
    (hr : s.readsAdmitted j) (hf : s.admits (s.srcAddr.toNat + j) .read = false)
    (hj : j < 4 ∨ (1 ≤ valBE (s.sourceFrom 0 4) ∧ valBE (s.sourceFrom 0 4) ≤ 256 ∧
      5 + 9 * valBE (s.sourceFrom 0 4) ≤ s.srcLen.toNat ∧ j < 5 + 9 * valBE (s.sourceFrom 0 4))) :
    parseContainer s = .error ⟨.busError, BitVec.ofNat 32 (s.srcAddr.toNat + j), 0⟩ := by
  unfold parseContainer
  rw [if_pos hfit, if_neg (by omega)]
  by_cases hj4 : j < 4
  · have := readSpan_refused (o := 0) hj4 (by simpa [State.readsAdmitted] using hr) (by simpa using hf)
    rw [this, Nat.zero_add]
  · obtain ⟨h1, h2, h3, h5⟩ := hj.resolve_left hj4
    rw [readSpan_admitted fun i hi => hr _ (by omega)]
    simp only
    unfold parseTable
    rw [if_neg (by omega), if_neg (by rw [alphabet_eq]; omega), if_neg (by omega)]
    have := readSpan_refused (o := 4) (j := j - 4) (n := 1 + 9 * valBE (s.sourceFrom 0 4)) (by omega)
      (fun i hi => hr _ (by omega)) (by rwa [show 4 + (j - 4) = j by omega])
    rw [this, show 4 + (j - 4) = j by omega]

theorem flatBE_length (vals : List Nat) : (vals.flatMap (bytesBE 8)).length = 8 * vals.length := by
  induction vals with
  | nil => rfl
  | cons v vals ih => simp [ih]; omega

theorem containerOf_length (syms : List Byte) (vals : List Nat) (pad : Byte) (payload : List Byte)
    (h : vals.length = syms.length) :
    (containerOf syms vals pad payload).length = 5 + 9 * syms.length + payload.length := by
  simp only [containerOf, List.length_append, bytesBE_length, flatBE_length, List.length_singleton, h]
  omega

/-- The parts of the bytes from offset 4 on are the entries and the pad byte. -/
theorem containerParts {syms : List Byte} {vals : List Nat} {pad : Byte} (h : vals.length = syms.length)
    (hv : ∀ v ∈ vals, v < 2 ^ 64) :
    containerSymbols syms.length (syms ++ vals.flatMap (bytesBE 8) ++ [pad]) = syms ∧
      containerValues syms.length (syms ++ vals.flatMap (bytesBE 8) ++ [pad]) = vals ∧
      containerPad syms.length (syms ++ vals.flatMap (bytesBE 8) ++ [pad]) = pad := by
  refine ⟨?_, ?_, ?_⟩
  · rw [containerSymbols, List.append_assoc, List.take_left' rfl]
  · rw [containerValues, List.append_assoc, List.drop_left' rfl, ← h, storedValues_flat hv]
  · have hl : (syms ++ vals.flatMap (bytesBE 8)).length = 9 * syms.length := by
      rw [List.length_append, flatBE_length, h]; omega
    rw [containerPad, List.getD_eq_getElem?_getD, List.getElem?_append_right (by omega), hl]
    simp

theorem ContainerLegal.tableFault {syms : List Byte} {vals : List Nat} {pad : Byte} {payload : List Byte}
    (h : ContainerLegal syms vals pad payload) :
    tableFault (5 + 9 * syms.length + payload.length) syms.length (syms ++ vals.flatMap (bytesBE 8) ++ [pad]) = none := by
  obtain ⟨h1, h2, h3, h4, h5, h6, h7, h8⟩ := h
  obtain ⟨e1, e2, e3⟩ := containerParts (pad := pad) h1 fun v hv => (h5 v hv).2
  rw [tableFault_none, e1, e2, e3]
  exact ⟨h4, fun v hv => (h5 v hv).1, h6, h7, fun hl => h8 (List.length_eq_zero_iff.1 (by omega))⟩

/-- A legal container parses (42_container.md R180, R181). -/
theorem parseContainer_legal {s : State} {syms : List Byte} {vals : List Nat} {pad : Byte} {payload : List Byte}
    (h : ContainerLegal syms vals pad payload) (hs : s.sourceBytes = containerOf syms vals pad payload)
    (hfit : s.srcFits = true) (hr : s.readsAdmitted (5 + 9 * syms.length)) :
    parseContainer s = .ok (syms.length, syms ++ vals.flatMap (bytesBE 8) ++ [pad]) := by
  have hlen := containerOf_length syms vals pad payload h.1
  have hsl : s.srcLen.toNat = 5 + 9 * syms.length + payload.length := by
    rw [← hlen, ← hs]; simp [State.sourceBytes, State.sourcePart]
  have hb : (syms ++ vals.flatMap (bytesBE 8) ++ [pad]).length = 1 + 9 * syms.length := by
    simp only [List.length_append, flatBE_length, List.length_singleton, h.1]; omega
  have e1 : s.sourceFrom 0 4 = bytesBE 4 syms.length := by
    rw [State.sourceFrom_eq s (by omega), hs, containerOf, List.append_assoc, List.drop_zero, List.take_left' (by simp)]
  have e2 : s.sourceFrom 4 (1 + 9 * syms.length) = syms ++ vals.flatMap (bytesBE 8) ++ [pad] := by
    rw [State.sourceFrom_eq s (by omega), hs, containerOf, List.append_assoc, List.drop_left' (by simp),
      List.take_left' hb]
  have h1 := h.2.1
  have h2 := h.2.2.1
  have := parseContainer_of (n := syms.length) hfit (by omega) h1 h2
    (by rw [e1, valBE_bytesBE (by norm_num; omega)]) (by rw [e2, hsl]; exact h.tableFault) hr
  rwa [e2] at this

/-- A source with the layout of a container is read whole, and its table checked (42_container.md R180, R181). -/
theorem parseContainer_table {s : State} {syms : List Byte} {vals : List Nat} {pad : Byte} {payload : List Byte}
    (hl : vals.length = syms.length) (h1 : 1 ≤ syms.length) (h2 : syms.length ≤ 256)
    (hs : s.sourceBytes = containerOf syms vals pad payload) (hfit : s.srcFits = true)
    (hr : s.readsAdmitted (5 + 9 * syms.length)) :
    parseContainer s =
      match Machine.tableFault s.srcLen.toNat syms.length (syms ++ vals.flatMap (bytesBE 8) ++ [pad]) with
      | some e => .error (malformed e)
      | none => .ok (syms.length, syms ++ vals.flatMap (bytesBE 8) ++ [pad]) := by
  have hlen := containerOf_length syms vals pad payload hl
  have hsl : s.srcLen.toNat = 5 + 9 * syms.length + payload.length := by
    rw [← hlen, ← hs]; simp [State.sourceBytes, State.sourcePart]
  have hb : (syms ++ vals.flatMap (bytesBE 8) ++ [pad]).length = 1 + 9 * syms.length := by
    simp only [List.length_append, flatBE_length, List.length_singleton, hl]; omega
  have e1 : s.sourceFrom 0 4 = bytesBE 4 syms.length := by
    rw [State.sourceFrom_eq s (by omega), hs, containerOf, List.append_assoc, List.drop_zero, List.take_left' (by simp)]
  have e2 : s.sourceFrom 4 (1 + 9 * syms.length) = syms ++ vals.flatMap (bytesBE 8) ++ [pad] := by
    rw [State.sourceFrom_eq s (by omega), hs, containerOf, List.append_assoc, List.drop_left' (by simp),
      List.take_left' hb]
  unfold parseContainer
  rw [if_pos hfit, if_neg (by omega), readSpan_admitted fun i hi => hr _ (by omega)]
  simp only
  rw [e1, valBE_bytesBE (by norm_num; omega)]
  unfold parseTable
  rw [if_neg (by omega), if_neg (by rw [alphabet_eq]; omega), if_neg (by omega),
    readSpan_admitted fun i hi => hr _ (by omega)]
  simp only
  rw [e2]
  all_goals cases Machine.tableFault s.srcLen.toNat syms.length (syms ++ vals.flatMap (bytesBE 8) ++ [pad]) <;> rfl

/-- A byte string that parses is a legal container. -/
theorem parseContainer_sound {s : State} {n : Nat} {t : List Byte} (h : parseContainer s = .ok (n, t)) :
    ∃ syms vals pad payload, ContainerLegal syms vals pad payload ∧
      s.sourceBytes = containerOf syms vals pad payload ∧ n = syms.length ∧
      t = syms ++ vals.flatMap (bytesBE 8) ++ [pad] := by
  obtain ⟨-, hlen, h1, h2, hn, ht, hf⟩ := parseContainer_ok h
  have htl : t.length = 1 + 9 * n := by rw [ht]; simp
  obtain ⟨c5, c6, c7, c8, c9⟩ := tableFault_none.1 hf
  have hsl : s.sourceBytes.length = s.srcLen.toNat := by simp [State.sourceBytes, State.sourcePart]
  have hsym : (containerSymbols n t).length = n := by simp [containerSymbols]; omega
  have hparts : t = containerSymbols n t ++ (containerValues n t).flatMap (bytesBE 8) ++ [containerPad n t] := by
    have hp : t.drop (9 * n) = [containerPad n t] := by
      refine List.ext_getElem (by simp; omega) fun i hi1 hi2 => ?_
      have hi0 : i = 0 := by simp at hi2; omega
      subst hi0
      simp [containerPad, List.getD_eq_getElem?_getD, show 9 * n < t.length by omega]
    rw [containerValues, flat_storedValues (by simp; omega), ← hp, containerSymbols, ← List.take_add,
      show n + 8 * n = 9 * n by omega, List.take_append_drop]
  refine ⟨containerSymbols n t, containerValues n t, containerPad n t, s.sourceBytes.drop (5 + 9 * n),
    ⟨?_, ?_, ?_, c5, fun v hv => ⟨c6 v hv, storedValues_lt v hv⟩, c7, c8, fun he => c9 ?_⟩, ?_, hsym.symm, hparts⟩
  · rw [hsym, containerValues, storedValues_length]
  · omega
  · omega
  · have := congrArg List.length he
    simp only [List.length_drop, List.length_nil] at this
    omega
  · rw [containerOf, ← hparts, hsym]
    have e1 : bytesBE 4 n = s.sourceFrom 0 4 := by
      have := bytesBE_valBE (s.sourceFrom 0 4)
      rw [State.sourceFrom_length, ← hn] at this
      exact this
    rw [e1, ht, State.sourceFrom_eq s (by omega), State.sourceFrom_eq s (by omega), List.drop_zero, ← List.take_add,
      show 4 + (1 + 9 * n) = 5 + 9 * n by omega, List.take_append_drop]

/-! ### The container of a code table -/

/-- The symbols with a code ascend (42_container.md R171). -/
theorem State.codedSymbols_ascend (s : State) : s.codedSymbols.Pairwise fun b c => b.toNat < c.toNat := by
  refine List.Pairwise.filter _ (List.pairwise_map.2 (List.Pairwise.imp_of_mem (fun ha hb hab => ?_) List.pairwise_lt_range))
  simp only [List.mem_range] at ha hb
  simp only [BitVec.toNat_ofNat]
  omega

theorem State.entries_eq {s : State} (hc : CodesLegal s) (hv : s.codesValid = true) : s.entries = s.codedSymbols := by
  unfold State.entries
  rw [(hc.2 hv).2.1, List.take_length]

/-- What SERIALIZE writes is the container of the code table, PAD and the source bytes (20_memory.md R66). -/
theorem State.header_container {s : State} (hc : CodesLegal s) (hv : s.codesValid = true) :
    s.header ++ s.sourceBytes =
      containerOf s.codedSymbols
        (s.codedSymbols.map fun b => 2 ^ (tabGet s.codeLen b).toNat + (tabGet s.codeBits b).toNat) (s.pad.setWidth 8)
        s.sourceBytes := by
  unfold State.header containerOf
  rw [State.entries_eq hc hv, (hc.2 hv).2.1]
  simp only [List.flatMap_map, List.append_assoc]
  rfl

theorem State.mem_codedSymbols {s : State} {b : Byte} : b ∈ s.codedSymbols ↔ tabGet s.codeLen b ≠ 0 := by
  simp [State.codedSymbols]

/-- The container of a code table is a legal one, if it has a payload or PAD is 0 (42_container.md R183). -/
theorem State.container_legal {s : State} (hc : CodesLegal s) (hv : s.codesValid = true)
    (hp : s.srcLen ≠ 0 ∨ s.pad = 0) :
    ContainerLegal s.codedSymbols
      (s.codedSymbols.map fun b => 2 ^ (tabGet s.codeLen b).toNat + (tabGet s.codeBits b).toNat) (s.pad.setWidth 8)
      s.sourceBytes := by
  obtain ⟨hpf, hn, h1, -⟩ := hc.2 hv
  refine ⟨by simp, by omega, ?_, List.Nodup.filter _ allSymbols_nodup, fun v hvm => ?_, ?_, ?_, fun he => ?_⟩
  · have := List.length_filter_le (fun b => tabGet s.codeLen b != 0) allSymbols
    rw [allSymbols_length] at this
    exact this
  · obtain ⟨b, hb, rfl⟩ := List.mem_map.1 hvm
    rw [State.mem_codedSymbols] at hb
    have hb0 : (tabGet s.codeLen b).toNat ≠ 0 := fun e => hb (BitVec.eq_of_toNat_eq (by simpa using e))
    have hlt := hc.1 b
    have h63 := (tabGet s.codeLen b).isLt
    have hlo : 2 ^ 1 ≤ 2 ^ (tabGet s.codeLen b).toNat := Nat.pow_le_pow_right (by omega) (by omega)
    have hhi : 2 ^ (tabGet s.codeLen b).toNat ≤ 2 ^ 63 := Nat.pow_le_pow_right (by omega) (by omega)
    omega
  · rw [List.map_map, List.pairwise_map]
    refine List.Pairwise.imp_of_mem (fun {b c} hb hb' hlt => ?_) s.codedSymbols_ascend
    rw [State.mem_codedSymbols] at hb hb'
    have hne : b ≠ c := fun e => by rw [e] at hlt; omega
    have hs : ∀ b, sentinelCode (2 ^ (tabGet s.codeLen b).toNat + (tabGet s.codeBits b).toNat) = s.codeOf b := fun b =>
      sentinelCode_sentinel (hc.1 b)
    simp only [Function.comp, hs]
    rw [Bool.eq_false_iff]
    intro hcl
    rcases clashes_iff.1 hcl with h | h
    · exact hpf b c hne hb hb' h
    · exact hpf c b (Ne.symm hne) hb' hb h
  · have := s.pad.isLt
    simp only [BitVec.toNat_setWidth]
    omega
  · rcases hp with hp | hp
    · exfalso
      have := congrArg List.length he
      simp only [State.sourceBytes, State.sourcePart, List.length_map, List.length_range, List.length_nil] at this
      exact hp (BitVec.eq_of_toNat_eq (by simpa using this))
    · rw [hp]; rfl

/-! ### Loading the table -/

theorem loadLens_spec {l : List (Byte × Nat)} (hnd : (l.map Prod.fst).Nodup) (t : Vector (BitVec 6) 256) (b : Byte) :
    (∀ v, (b, v) ∈ l → tabGet (loadLens t l) b = BitVec.ofNat 6 (Nat.log2 v)) ∧
      (b ∉ l.map Prod.fst → tabGet (loadLens t l) b = tabGet t b) := by
  induction l generalizing t with
  | nil => exact ⟨by simp, fun _ => rfl⟩
  | cons p l ih =>
    obtain ⟨c, w⟩ := p
    simp only [List.map_cons, List.nodup_cons] at hnd
    obtain ⟨h1, h2⟩ := ih hnd.2 (tabSet t c (BitVec.ofNat 6 (Nat.log2 w)))
    simp only [loadLens, List.map_cons, List.mem_cons, Prod.mk.injEq, not_or]
    refine ⟨fun v hv => ?_, fun hb => ?_⟩
    · rcases hv with ⟨rfl, rfl⟩ | hv
      · rw [h2 hnd.1, tabGet_tabSet_same]
      · exact h1 v hv
    · rw [h2 hb.2, tabGet_tabSet_other hb.1]

theorem loadBits_spec {l : List (Byte × Nat)} (hnd : (l.map Prod.fst).Nodup) (t : Vector (BitVec 63) 256) (b : Byte) :
    (∀ v, (b, v) ∈ l → tabGet (loadBits t l) b = BitVec.ofNat 63 (v - 2 ^ Nat.log2 v)) ∧
      (b ∉ l.map Prod.fst → tabGet (loadBits t l) b = tabGet t b) := by
  induction l generalizing t with
  | nil => exact ⟨by simp, fun _ => rfl⟩
  | cons p l ih =>
    obtain ⟨c, w⟩ := p
    simp only [List.map_cons, List.nodup_cons] at hnd
    obtain ⟨h1, h2⟩ := ih hnd.2 (tabSet t c (BitVec.ofNat 63 (w - 2 ^ Nat.log2 w)))
    simp only [loadBits, List.map_cons, List.mem_cons, Prod.mk.injEq, not_or]
    refine ⟨fun v hv => ?_, fun hb => ?_⟩
    · rcases hv with ⟨rfl, rfl⟩ | hv
      · rw [h2 hnd.1, tabGet_tabSet_same]
      · exact h1 v hv
    · rw [h2 hb.2, tabGet_tabSet_other hb.1]

/-- A stored value's length and bits fit their registers. -/
theorem stored_fits {v : Nat} (h2 : 2 ≤ v) (h64 : v < 2 ^ 64) :
    1 ≤ Nat.log2 v ∧ Nat.log2 v ≤ 63 ∧ v - 2 ^ Nat.log2 v < 2 ^ Nat.log2 v := by
  have hne : v ≠ 0 := by omega
  have h1 : 2 ^ Nat.log2 v ≤ v := Nat.log2_self_le hne
  have h3 : v < 2 ^ (Nat.log2 v + 1) := Nat.lt_log2_self
  rw [pow_succ] at h3
  refine ⟨(Nat.le_log2 hne).2 (by omega), ?_, by omega⟩
  have := (Nat.log2_lt hne).2 h64
  omega

section
variable {s : State} {syms : List Byte} {vals : List Nat} {pad : Byte} {payload : List Byte}

theorem ContainerLegal.zip_fst (h : ContainerLegal syms vals pad payload) : (syms.zip vals).map Prod.fst = syms := by
  rw [List.map_fst_zip]
  exact h.1.symm.le

/-- The code a legal container gives the symbol of an entry. -/
theorem ContainerLegal.loaded (h : ContainerLegal syms vals pad payload) {b : Byte} {v : Nat} (hb : (b, v) ∈ syms.zip vals) :
    let u := setContainer s syms.length (syms ++ vals.flatMap (bytesBE 8) ++ [pad])
    (tabGet u.codeLen b).toNat = Nat.log2 v ∧ (tabGet u.codeBits b).toNat = v - 2 ^ Nat.log2 v ∧
      u.codeOf b = sentinelCode v := by
  obtain ⟨e1, e2, -⟩ := containerParts (pad := pad) h.1 fun v hv => (h.2.2.2.2.1 v hv).2
  obtain ⟨h2, h64⟩ := h.2.2.2.2.1 v (List.of_mem_zip hb).2
  obtain ⟨f1, f2, f3⟩ := stored_fits h2 h64
  have hnd : ((syms.zip vals).map Prod.fst).Nodup := by rw [h.zip_fst]; exact h.2.2.2.1
  have hl : (tabGet (setContainer s syms.length (syms ++ vals.flatMap (bytesBE 8) ++ [pad])).codeLen b).toNat =
      Nat.log2 v := by
    simp only [setContainer, e1, e2, (loadLens_spec hnd _ b).1 v hb, BitVec.toNat_ofNat]
    omega
  have hbits : (tabGet (setContainer s syms.length (syms ++ vals.flatMap (bytesBE 8) ++ [pad])).codeBits b).toNat =
      v - 2 ^ Nat.log2 v := by
    simp only [setContainer, e1, e2, (loadBits_spec hnd _ b).1 v hb, BitVec.toNat_ofNat]
    exact Nat.mod_eq_of_lt (lt_of_lt_of_le f3 (Nat.pow_le_pow_right (by omega) f2))
  refine ⟨hl, hbits, ?_⟩
  rw [State.codeOf, hl, hbits]
  rfl

/-- Any other symbol has no code. -/
theorem ContainerLegal.unloaded (h : ContainerLegal syms vals pad payload) {b : Byte} (hb : b ∉ syms) :
    let u := setContainer s syms.length (syms ++ vals.flatMap (bytesBE 8) ++ [pad])
    tabGet u.codeLen b = 0 ∧ tabGet u.codeBits b = 0 := by
  obtain ⟨e1, e2, -⟩ := containerParts (pad := pad) h.1 fun v hv => (h.2.2.2.2.1 v hv).2
  have hnd : ((syms.zip vals).map Prod.fst).Nodup := by rw [h.zip_fst]; exact h.2.2.2.1
  have hb' : b ∉ (syms.zip vals).map Prod.fst := by rw [h.zip_fst]; exact hb
  simp only [setContainer, e1, e2]
  rw [(loadLens_spec hnd _ b).2 hb', (loadBits_spec hnd _ b).2 hb']
  simp

/-- Each symbol of the container stands beside one stored value. -/
theorem ContainerLegal.entry (h : ContainerLegal syms vals pad payload) {b : Byte} (hb : b ∈ syms) :
    ∃ v ∈ vals, (b, v) ∈ syms.zip vals := by
  rw [← h.zip_fst, List.mem_map] at hb
  obtain ⟨⟨c, v⟩, hm, rfl⟩ := hb
  exact ⟨v, (List.of_mem_zip hm).2, hm⟩

/-- Codes of two entries: neither is a prefix of the other. -/
theorem ContainerLegal.no_clash (h : ContainerLegal syms vals pad payload) {b c : Byte} {v w : Nat}
    (hb : (b, v) ∈ syms.zip vals) (hc : (c, w) ∈ syms.zip vals) (hne : b ≠ c) :
    clashes (sentinelCode v) (sentinelCode w) = false := by
  obtain ⟨i, hi, ei⟩ := List.getElem_of_mem hb
  obtain ⟨j, hj, ej⟩ := List.getElem_of_mem hc
  rw [List.getElem_zip, Prod.mk.injEq] at ei ej
  have hpw := h.2.2.2.2.2.1
  rw [List.pairwise_iff_getElem] at hpw
  simp only [List.length_zip] at hi hj
  have hij : i ≠ j := fun e => hne (by subst e; rw [← ei.1, ← ej.1])
  rcases Nat.lt_or_gt_of_ne hij with hlt | hlt
  · have := hpw i j (by simp; omega) (by simp; omega) hlt
    rwa [List.getElem_map, List.getElem_map, ei.2, ej.2] at this
  · have := hpw j i (by simp; omega) (by simp; omega) hlt
    rw [List.getElem_map, List.getElem_map, ei.2, ej.2] at this
    rw [clashes_comm]
    exact this

/-- The table a legal container loads keeps 10_state.md R42 and R49. -/
theorem ContainerLegal.codesLegal (h : ContainerLegal syms vals pad payload) :
    CodesLegal (setContainer s syms.length (syms ++ vals.flatMap (bytesBE 8) ++ [pad])) := by
  obtain ⟨e1, e2, -⟩ := containerParts (pad := pad) h.1 fun v hv => (h.2.2.2.2.1 v hv).2
  have hcoded : ∀ b, tabGet (setContainer s syms.length (syms ++ vals.flatMap (bytesBE 8) ++ [pad])).codeLen b ≠ 0 ↔
      b ∈ syms := by
    intro b
    constructor
    · intro hb
      by_contra hc
      exact hb (h.unloaded hc).1
    · intro hb hz
      obtain ⟨v, hv, hm⟩ := h.entry hb
      have hl := (h.loaded (s := s) hm).1
      have := stored_fits (h.2.2.2.2.1 v hv).1 (h.2.2.2.2.1 v hv).2
      rw [hz] at hl
      simp at hl
      omega
  refine ⟨fun b => ?_, fun _ => ⟨fun b c hbc hb hc hp => ?_, ?_, ?_, ?_⟩⟩
  · by_cases hb : b ∈ syms
    · obtain ⟨v, hv, hm⟩ := h.entry hb
      obtain ⟨l1, l2, -⟩ := h.loaded (s := s) hm
      rw [l1, l2]
      exact (stored_fits (h.2.2.2.2.1 v hv).1 (h.2.2.2.2.1 v hv).2).2.2
    · rw [(h.unloaded hb).1, (h.unloaded hb).2]
      simp
  · obtain ⟨v, -, hv⟩ := h.entry ((hcoded b).1 hb)
    obtain ⟨w, -, hw⟩ := h.entry ((hcoded c).1 hc)
    have hcl := h.no_clash hv hw hbc
    rw [(h.loaded (s := s) hv).2.2, (h.loaded (s := s) hw).2.2] at hp
    rw [clashes_iff.2 (Or.inl hp)] at hcl
    cases hcl
  · have hperm : (setContainer s syms.length (syms ++ vals.flatMap (bytesBE 8) ++ [pad])).codedSymbols.Perm syms := by
      refine (List.perm_ext_iff_of_nodup (List.Nodup.filter _ allSymbols_nodup) h.2.2.2.1).2 fun b => ?_
      rw [List.mem_filter, bne_iff_ne, hcoded b]
      simp
    rw [hperm.length_eq]
    have := h.2.2.1
    simp only [setContainer_symCount, BitVec.toNat_ofNat]
    omega
  · have h1 := h.2.1
    have h2 := h.2.2.1
    simp only [setContainer_symCount, BitVec.toNat_ofNat]
    omega
  · have hle : (vals.map Nat.log2).foldl max 0 ≤ 63 := by
      rw [foldl_max_le]
      refine ⟨by omega, fun x hx => ?_⟩
      obtain ⟨v, hv, rfl⟩ := List.mem_map.1 hx
      exact (stored_fits (h.2.2.2.2.1 v hv).1 (h.2.2.2.2.1 v hv).2).2.1
    have hm : (setContainer s syms.length (syms ++ vals.flatMap (bytesBE 8) ++ [pad])).maxLen.toNat =
        (vals.map Nat.log2).foldl max 0 := by
      simp only [setContainer, e2, BitVec.toNat_ofNat]
      omega
    rw [hm]
    refine Nat.le_antisymm ?_ (largest_le.2 fun b => ?_)
    · rw [foldl_max_le]
      refine ⟨Nat.zero_le _, fun x hx => ?_⟩
      obtain ⟨v, hv, rfl⟩ := List.mem_map.1 hx
      obtain ⟨i, hi, ei⟩ := List.getElem_of_mem hv
      have hz : (syms[i]'(by have := h.1; omega), v) ∈ syms.zip vals := by
        have hi' : i < (syms.zip vals).length := by rw [List.length_zip]; have := h.1; omega
        have := List.getElem_mem hi'
        rwa [List.getElem_zip, ei] at this
      rw [← (h.loaded (s := s) hz).1]
      exact le_largest (fun b => (tabGet (setContainer s syms.length
        (syms ++ vals.flatMap (bytesBE 8) ++ [pad])).codeLen b).toNat) _
    · by_cases hb : b ∈ syms
      · obtain ⟨v, hv, hz⟩ := h.entry hb
        rw [(h.loaded (s := s) hz).1]
        exact (foldl_max_le.1 (Nat.le_refl _)).2 _ (List.mem_map_of_mem hv)
      · rw [(h.unloaded hb).1]
        simp

end

end Sys2Proof.Machine
end

