-- ==== Sys2Proof/Laws/Count.lean ====
section
/-! SUPPORT. What COUNT_FREQ's loop leaves: the counts of the bytes it has processed, and where it stops
(40_table_build.md R102). -/

namespace Sys2Proof.Machine

theorem State.sourceFrom_add (s : State) (j m n : Nat) :
    s.sourceFrom j (m + n) = s.sourceFrom j m ++ s.sourceFrom (j + m) n := by
  unfold State.sourceFrom
  rw [← List.map_append, List.range'_append_1]

theorem State.sourceFrom_zero_eq (s : State) (n : Nat) : s.sourceFrom 0 n = s.sourcePart n := by
  simp [State.sourceFrom, State.sourcePart, List.range_eq_range']

/-- The table with the counts of some bytes added, one by one. -/
def addCounts (f : Vector Word 256) : List Byte → Vector Word 256
  | [] => f
  | b :: l => addCounts (tabSet f b (tabGet f b + 1)) l

/-- As long as no count passes 2^32 - 1 the table holds the sums. -/
theorem addCounts_spec {f : Vector Word 256} {l : List Byte} (h : ∀ b, (tabGet f b).toNat + l.count b ≤ 2 ^ 32 - 1)
    (b : Byte) : (tabGet (addCounts f l) b).toNat = (tabGet f b).toNat + l.count b := by
  induction l generalizing f with
  | nil => simp [addCounts]
  | cons c l ih =>
    have hc := h c
    rw [List.count_cons_self] at hc
    have hinc : (tabGet f c + 1).toNat = (tabGet f c).toNat + 1 := by
      rw [BitVec.toNat_add, Nat.mod_eq_of_lt (by simp; omega)]
      rfl
    simp only [addCounts]
    rw [ih fun d => ?_, tabGet_tabSet]
    · by_cases hb : b = c
      · subst hb
        rw [if_pos rfl, hinc, List.count_cons_self]
        omega
      · rw [if_neg hb, List.count_cons_of_ne (Ne.symm hb)]
    · have hd := h d
      rw [tabGet_tabSet]
      by_cases hdc : d = c
      · subst hdc
        rw [if_pos rfl, hinc]
        omega
      · rw [if_neg hdc]
        rw [List.count_cons_of_ne (Ne.symm hdc)] at hd
        exact hd

/-- The loop goes through bytes that are admitted and overflow nothing, adding their counts. -/
theorem countLoop_prefix {s : State} {m n j : Nat} {f : Vector Word 256}
    (hr : ∀ i < m, s.admits (s.srcAddr.toNat + (j + i)) .read = true)
    (hc : ∀ b, (tabGet f b).toNat + (s.sourceFrom j m).count b ≤ 2 ^ 32 - 1) :
    countLoop s (m + n) j f = countLoop s n (j + m) (addCounts f (s.sourceFrom j m)) := by
  induction m generalizing j f with
  | zero => simp [State.sourceFrom, addCounts]
  | succ m ih =>
    have h0 := hr 0 (by omega)
    rw [Nat.add_zero] at h0
    rw [State.sourceFrom_succ] at hc ⊢
    have hb := hc (s.sourceByte j)
    rw [List.count_cons_self] at hb
    have hne : ¬tabGet f (s.sourceByte j) = BitVec.allOnes 32 := by
      intro e
      have := congrArg BitVec.toNat e
      simp only [BitVec.toNat_allOnes] at this
      omega
    have hinc : (tabGet f (s.sourceByte j) + 1).toNat = (tabGet f (s.sourceByte j)).toNat + 1 := by
      rw [BitVec.toNat_add, Nat.mod_eq_of_lt (by simp; omega)]
      rfl
    rw [show m + 1 + n = (m + n) + 1 by omega]
    simp only [countLoop, readSrc_admitted h0, if_neg hne, addCounts]
    rw [ih (fun i hi => by have := hr (i + 1) (by omega); rwa [show j + (i + 1) = j + 1 + i by omega] at this)
      fun d => ?_, show j + 1 + m = j + (m + 1) by omega]
    have hd := hc d
    rw [tabGet_tabSet]
    by_cases hdb : d = s.sourceByte j
    · subst hdb
      rw [if_pos rfl, hinc]
      omega
    · rw [if_neg hdb]
      rw [List.count_cons_of_ne (Ne.symm hdb)] at hd
      exact hd

/-- An error of the loop comes before any write. -/
theorem countLoop_error {s : State} {n j : Nat} {f f' : Vector Word 256} {r : Raise}
    (h : countLoop s n j f = (f', some r)) : r.written = 0 := by
  induction n generalizing j f with
  | zero => cases h
  | succ n ih =>
    simp only [countLoop] at h
    split at h
    · next he =>
      unfold readSrc at he
      split at he
      · cases he
      · cases he; cases h; rfl
    · split at h
      · cases h; rfl
      · exact ih h

end Sys2Proof.Machine
end

