-- ==== Sys2Proof/Laws/Depth.lean ====
section
/-! SUPPORT. How deep a leaf of a Huffman tree can lie: a node with a leaf `d` below it has at least the frequency `fib (d + 2)`
(40_table_build.md R123). -/

namespace Sys2Proof.Machine

variable {L : List Node} {t : Vector Node 511} {act : List Nat} {nx : Nat}

theorem Node.freq_internal (f : BitVec 40) (l r : BitVec 9) : (Node.internal f l r).freq = f := rfl

/-- A node made after node `v`, or active then, is at least as frequent as either child of `v`: the merge that made `v` took
the least two. -/
theorem Merging.later (hm : Merging L t act nx) (hnx : nx ≤ 511) {v : Nat} (h1 : L.length ≤ v) (h2 : v < nx)
    {f : BitVec 40} {l r : BitVec 9} (hv : nodeAt t v = .internal f l r) {k x : Nat} (hvk : v < k) (hk : k ≤ nx)
    (hx : x ∈ activeBefore t L.length k) :
    (nodeAt t l.toNat).freq.toNat ≤ (nodeAt t x).freq.toNat ∧ (nodeAt t r.toNat).freq.toNat ≤ (nodeAt t x).freq.toNat := by
  induction x using Nat.strong_induction_on generalizing k with
  | _ x ih =>
    obtain ⟨hxk, hxp⟩ := mem_activeBefore.1 hx
    obtain ⟨a, ha, b, hb, hab, he, hla, hlb⟩ := hm.made v h1 h2
    have hak := (mem_activeBefore.1 ha).1
    have hbk := (mem_activeBefore.1 hb).1
    rw [hv] at he
    injection he with e1 e2 e3
    subst e2 e3
    have ea : (BitVec.ofNat 9 a).toNat = a := by simp only [BitVec.toNat_ofNat]; omega
    have eb : (BitVec.ofNat 9 b).toNat = b := by simp only [BitVec.toNat_ofNat]; omega
    rw [ea, eb]
    have hle : (nodeAt t a).freq.toNat ≤ (nodeAt t b).freq.toNat := by
      have := keyLess_iff.1 (hla b hb (Ne.symm hab))
      omega
    suffices h : (nodeAt t b).freq.toNat ≤ (nodeAt t x).freq.toNat from ⟨by omega, h⟩
    rcases Nat.lt_trichotomy x v with hlt | rfl | hgt
    · have hxv : x ∈ activeBefore t L.length v :=
        mem_activeBefore.2 ⟨hlt, fun m hmv hLm => hxp m (by omega) hLm⟩
      have hch := hxp v hvk h1
      unfold isChild at hch
      rw [hv] at hch
      simp only [ea, eb, Bool.or_eq_false_iff, beq_eq_false_iff_ne] at hch
      have := keyLess_iff.1 (hlb x hxv (Ne.symm hch.1) (Ne.symm hch.2))
      omega
    · have := hm.exact x h1 h2 _ _ _ hv
      rw [ea, eb] at this
      rw [hv, Node.freq_internal]
      omega
    · obtain ⟨c, hc, d, -, -, hec, -⟩ := hm.made x (by omega) (by omega)
      have hcx := (mem_activeBefore.1 hc).1
      have := (ih c hcx hgt (by omega) hc).2
      rw [eb] at this
      have hsum := hm.exact x (by omega) (by omega) _ _ _ hec
      have ec : (BitVec.ofNat 9 c).toNat = c := by simp only [BitVec.toNat_ofNat]; omega
      rw [ec] at hsum
      rw [hec, Node.freq_internal]
      omega

/-- A node with a leaf `d` levels below it has at least the frequency `fib (d + 2)`, if no leaf has the frequency 0. -/
theorem Merging.fib_le (hm : Merging L t act nx) (hnx : nx ≤ 511) (hleaf : ∀ x ∈ L, 1 ≤ x.freq.toNat ∧ ∃ b f, x = .leaf b f)
    (q : Bits) {k : Nat} (hk : k < nx) {b : Byte} {f : BitVec 40} (h : follow t k q = some (.leaf b f)) :
    Nat.fib (q.length + 2) ≤ (nodeAt t k).freq.toNat := by
  have hlow : ∀ i < L.length, 1 ≤ (nodeAt t i).freq.toNat ∧ ∃ b f, nodeAt t i = .leaf b f := fun i hi => by
    rw [hm.leaf i hi]
    exact hleaf _ (List.getElem_mem hi)
  have hpos : ∀ i < nx, 1 ≤ (nodeAt t i).freq.toNat := by
    intro i hi
    induction i using Nat.strong_induction_on with
    | _ i ih =>
      by_cases hiL : i < L.length
      · exact (hlow i hiL).1
      · obtain ⟨a, ha, b, -, -, he, -⟩ := hm.made i (by omega) hi
        have hai := (mem_activeBefore.1 ha).1
        have := ih a hai (by omega)
        have hs := hm.exact i (by omega) hi _ _ _ he
        have ea : (BitVec.ofNat 9 a).toNat = a := by simp only [BitVec.toNat_ofNat]; omega
        rw [ea] at hs
        rw [he, Node.freq_internal]
        omega
  have hint : ∀ {k : Nat} {f : BitVec 40} {l r : BitVec 9}, k < nx → nodeAt t k = .internal f l r → L.length ≤ k := by
    intro k f l r _ he
    by_contra hc
    obtain ⟨-, b, g, hb⟩ := hlow k (by omega)
    rw [he] at hb
    cases hb
  induction hn : q.length using Nat.strong_induction_on generalizing q k with
  | _ n ih =>
    cases q with
    | nil =>
      subst hn
      exact hpos k hk
    | cons d q =>
      cases hkn : nodeAt t k with
      | leaf b' f' => rw [follow_leaf hkn] at h; cases h
      | internal g l r =>
        rw [follow_internal hkn] at h
        have hLk := hint hk hkn
        obtain ⟨a, ha, c, hc, hac, he, -⟩ := hm.made k hLk hk
        have hak := (mem_activeBefore.1 ha).1
        have hck := (mem_activeBefore.1 hc).1
        rw [hkn] at he
        injection he with e1 e2 e3
        have ea : l.toNat = a := by rw [e2]; simp only [BitVec.toNat_ofNat]; omega
        have ec : r.toNat = c := by rw [e3]; simp only [BitVec.toNat_ofNat]; omega
        have hs := hm.exact k hLk hk _ _ _ hkn
        rw [ea, ec] at hs
        rw [Node.freq_internal]
        rw [ea, ec] at h
        simp only [List.length_cons] at hn
        obtain ⟨v, w, hv, hw, hvk, hwk, hvw⟩ : ∃ v w, (if d then c else a) = v ∧ w ∈ activeBefore t L.length k ∧ v < k ∧ w < k ∧
            g.toNat = (nodeAt t v).freq.toNat + (nodeAt t w).freq.toNat := by
          cases d with
          | true => exact ⟨c, a, rfl, ha, hck, hak, by omega⟩
          | false => exact ⟨a, c, rfl, hc, hak, hck, by omega⟩
        rw [hv] at h
        have h1 := ih q.length (by omega) q (by omega) h rfl
        subst hn
        rw [hvw]
        cases q with
        | nil =>
          have h2 := hpos w (by omega)
          simp only [List.length_nil] at h1 ⊢
          have e3 : Nat.fib (0 + 1 + 2) = 2 := by decide
          have e2 : Nat.fib (0 + 2) = 1 := by decide
          omega
        | cons d' q =>
          cases hvn : nodeAt t v with
          | leaf b' f' => rw [follow_leaf hvn] at h; cases h
          | internal g' l' r' =>
            rw [follow_internal hvn] at h
            have hLv := hint (by omega) hvn
            have hvc := hm.made v hLv (by omega)
            obtain ⟨a', ha', c', hc', -, he', -⟩ := hvc
            have hav := (mem_activeBefore.1 ha').1
            have hcv := (mem_activeBefore.1 hc').1
            rw [hvn] at he'
            injection he' with e1' e2' e3'
            have ea' : l'.toNat = a' := by rw [e2']; simp only [BitVec.toNat_ofNat]; omega
            have ec' : r'.toNat = c' := by rw [e3']; simp only [BitVec.toNat_ofNat]; omega
            obtain ⟨hl1, hl2⟩ := hm.later hnx hLv (by omega) hvn hvk (by omega) hw
            have h2 : Nat.fib (q.length + 2) ≤ (nodeAt t w).freq.toNat := by
              have hlen : q.length < (d' :: q).length + 1 := by simp
              cases d' with
              | true => exact Nat.le_trans (ih q.length hlen q (by rw [if_pos rfl, ec']; omega) h rfl) hl2
              | false =>
                simp only [Bool.false_eq_true, if_false] at h
                exact Nat.le_trans (ih q.length hlen q (by omega) h rfl) hl1
            simp only [List.length_cons] at h1 ⊢
            have e := Nat.fib_add_two (n := q.length + 1 + 1)
            rw [hvn] at h1
            have e2 : q.length + 1 + 1 = q.length + 2 := rfl
            have e3 : q.length + 1 + 1 + 1 = q.length + 1 + 2 := rfl
            rw [e2, e3] at e
            rw [show q.length + 1 + 1 + 2 = q.length + 2 + 2 by omega, e]
            omega

end Sys2Proof.Machine
end

