-- ==== Sys2Proof/Laws/Pack.lean ====
section
/-! SUPPORT. What PACK's run leaves: the bytes of the padded stream when there is room, and the error that ends it otherwise. -/

namespace Sys2Proof.Machine

/-- The pad length of a stream of `t` bits (41_bit_pack.md R142). -/
def padFor (t : Nat) : Nat := (8 - t % 8) % 8

/-- The bytes a stream packs into, its last byte filled with zero bits (41_bit_pack.md R141, R142). -/
def packedBytes (q : Bits) : List Byte := groupBytes ((q.length + 7) / 8) (q ++ List.replicate (padFor q.length) false)

@[simp] theorem packedBytes_length (q : Bits) : (packedBytes q).length = (q.length + 7) / 8 := by simp [packedBytes]

/-- The last, partial byte after the whole ones. -/
theorem packedBytes_eq (q : Bits) :
    packedBytes q = groupBytes (q.length / 8) q ++
      (if q.drop (8 * (q.length / 8)) = [] then []
       else [BitVec.ofNat 8 (valOf (q.drop (8 * (q.length / 8)) ++
          List.replicate (8 - (q.drop (8 * (q.length / 8))).length) false))]) := by
  have hd : (q.drop (8 * (q.length / 8))).length = q.length % 8 := by simp; omega
  unfold packedBytes
  by_cases h : q.length % 8 = 0
  · have hn : q.drop (8 * (q.length / 8)) = [] := List.length_eq_zero_iff.1 (by omega)
    have e : (q.length + 7) / 8 = q.length / 8 := by omega
    rw [if_pos hn, e, groupBytes_append _ (by omega)]
    simp
  · have hn : q.drop (8 * (q.length / 8)) ≠ [] := by intro hc; rw [hc] at hd; simp at hd; omega
    have e : (q.length + 7) / 8 = q.length / 8 + 1 := by omega
    rw [if_neg hn, e, groupBytes_add, groupBytes_append _ (by omega)]
    congr 1
    simp only [groupBytes]
    have hp : padFor q.length = 8 - q.length % 8 := by unfold padFor; omega
    rw [List.drop_append_of_le_length (by omega), hd, hp, List.take_of_length_le (by simp; omega)]

theorem packTail_room {s : State} {q : Bits} {l : List Byte} (hq : q.length < 8)
    (h : l.length + (if q = [] then 0 else 1) ≤ s.dstCap.toNat)
    (ha : s.writesAdmitted (l.length + (if q = [] then 0 else 1))) :
    packTail s q (s.sinkOf l) =
      .ok (s.sinkOf (l ++ if q = [] then [] else [BitVec.ofNat 8 (valOf (q ++ List.replicate (8 - q.length) false))]),
        padFor q.length) := by
  unfold packTail
  by_cases hn : q = []
  · subst hn
    simp [padFor]
  · have h1 : 1 ≤ q.length := by
      rcases q with _ | ⟨b, r⟩
      · exact absurd rfl hn
      · simp
    rw [if_neg hn] at h ha
    simp only [if_neg hn]
    rw [emit_room (by omega) ha]
    have : padFor q.length = 8 - q.length := by unfold padFor; omega
    simp only [this]

/-- The source bytes are admitted and coded. -/
def State.packable (s : State) : Prop :=
  s.readsAdmitted s.srcLen.toNat ∧ ∀ j < s.srcLen.toNat, tabGet s.codeLen (s.sourceByte j) ≠ 0

theorem packRun_room {s : State} (hp : s.packable)
    (h : ((s.codeStream s.sourceBytes).length + 7) / 8 ≤ s.dstCap.toNat)
    (ha : s.writesAdmitted (((s.codeStream s.sourceBytes).length + 7) / 8)) :
    packRun s = .ok (s.sinkOf (packedBytes (s.codeStream s.sourceBytes)), padFor (s.codeStream s.sourceBytes).length) := by
  have hs : s.streamFrom 0 s.srcLen.toNat = s.codeStream s.sourceBytes := s.streamFrom_zero _
  unfold packRun
  rw [State.sink_eq, packLoop_room (by simpa [State.readsAdmitted] using hp.1) (by simpa using hp.2) (by simp)
    (by simp only [List.nil_append, List.length_nil, hs]; omega)
    (fun i hi => ha i (by simp only [List.nil_append, List.length_nil, hs] at hi; omega))]
  simp only [List.nil_append, hs]
  generalize s.codeStream s.sourceBytes = q at h ha
  have hd : (q.drop (8 * (q.length / 8))).length = q.length % 8 := by simp; omega
  have hone : q.length / 8 + (if q.drop (8 * (q.length / 8)) = [] then 0 else 1) = (q.length + 7) / 8 := by
    split
    · next hn => rw [hn] at hd; simp at hd; omega
    · next hn =>
      have : q.length % 8 ≠ 0 := fun hc => hn (List.length_eq_zero_iff.1 (by omega))
      omega
  rw [packTail_room (by omega) (by rw [groupBytes_length, hone]; exact h) (by rw [groupBytes_length, hone]; exact ha),
    ← packedBytes_eq, hd]
  simp [padFor]

/-- The loop over `m + n` bytes is the loop over `m`, then the loop over the `n` next ones. -/
theorem packLoop_add (s : State) (m n j : Nat) (q : Bits) (k : Sink) :
    packLoop s (m + n) j q k =
      match packLoop s m j q k with
      | .error r => .error r
      | .ok (q', k') => packLoop s n (j + m) q' k' := by
  induction m generalizing j q k with
  | zero => simp [packLoop]
  | succ m ih =>
    rw [show m + 1 + n = (m + n) + 1 by omega]
    simp only [packLoop]
    cases readSrc s j k.out with
    | error r => rfl
    | ok b =>
      by_cases hb : tabGet s.codeLen b = 0
      · simp only [if_pos hb]
      · simp only [if_neg hb]
        cases flushLoop s ((q ++ s.codeOf b).length / 8) (q ++ s.codeOf b) k with
        | error r => rfl
        | ok x =>
          simp only
          rw [ih, show j + 1 + m = j + (m + 1) by omega]

/-- A run that comes to the byte of output that stops it ends there: with the first `j` source bytes, or with all of them and
the padding. -/
theorem packRun_stop {s : State} {j o : Nat} {r : Raise} (hj : j ≤ s.srcLen.toNat) (hr : s.readsAdmitted j)
    (hc : ∀ i < j, tabGet s.codeLen (s.sourceByte i) ≠ 0) (hs : s.stopsAt o r)
    (h : o < (s.codeStream (s.sourcePart j)).length / 8 ∨
      (j = s.srcLen.toNat ∧ o < ((s.codeStream (s.sourcePart j)).length + 7) / 8)) : packRun s = .error r := by
  have hz : s.streamFrom 0 j = s.codeStream (s.sourcePart j) := s.streamFrom_zero _
  have ho := hs.1
  unfold packRun
  rw [State.sink_eq, show s.srcLen.toNat = j + (s.srcLen.toNat - j) by omega, packLoop_add]
  by_cases hw : o < (s.codeStream (s.sourcePart j)).length / 8
  · rw [packLoop_stop hs (fun i hi => by simpa using hr i hi) (fun i hi => by simpa using hc i hi) (by simp) (by simp)
      (by simp only [List.nil_append, List.length_nil, hz]; omega)]
  · obtain ⟨rfl, h⟩ := h.resolve_left hw
    rw [packLoop_room (fun i hi => by simpa using hr i hi) (fun i hi => by simpa using hc i hi) (by simp)
      (by simp only [List.nil_append, List.length_nil, hz]; omega)
      (fun i hi => hs.2.1 i (by simp only [List.nil_append, List.length_nil, hz] at hi; omega)), Nat.sub_self]
    simp only [packLoop, List.nil_append, hz]
    generalize s.codeStream (s.sourcePart s.srcLen.toNat) = q at h hw
    have hd : (q.drop (8 * (q.length / 8))).length = q.length % 8 := by simp; omega
    have hn : q.drop (8 * (q.length / 8)) ≠ [] := by
      intro hc
      rw [hc] at hd
      simp at hd
      omega
    unfold packTail
    rw [if_neg hn, hs.2.2 _ _ (by simp; omega)]

/-- The first byte without a code ends the run with UNCODED_SYMBOL at its offset, after the whole bytes before it. -/
theorem packRun_uncoded {s : State} {j : Nat} (hj : j < s.srcLen.toNat) (hr : s.readsAdmitted (j + 1))
    (hc : ∀ i < j, tabGet s.codeLen (s.sourceByte i) ≠ 0) (h0 : tabGet s.codeLen (s.sourceByte j) = 0)
    (h : (s.codeStream (s.sourcePart j)).length / 8 ≤ s.dstCap.toNat)
    (ha : s.writesAdmitted ((s.codeStream (s.sourcePart j)).length / 8)) :
    packRun s =
      .error ⟨.uncodedSymbol, BitVec.ofNat 32 j, (s.codeStream (s.sourcePart j)).length / 8⟩ := by
  have hs : s.streamFrom 0 j = s.codeStream (s.sourcePart j) := s.streamFrom_zero _
  unfold packRun
  rw [State.sink_eq, show s.srcLen.toNat = j + ((s.srcLen.toNat - j - 1) + 1) by omega, packLoop_add,
    packLoop_room (fun i hi => by simpa using hr i (by omega)) (fun i hi => by simpa using hc i hi) (by simp)
      (by simp only [List.nil_append, List.length_nil, hs]; omega)
      (fun i hi => ha i (by simp only [List.nil_append, List.length_nil, hs] at hi; omega))]
  simp only [packLoop, Nat.zero_add, List.nil_append, hs]
  rw [readSrc_admitted (hr j (by omega))]
  simp only [h0, if_true, State.sinkOf_out, groupBytes_length]

/-- The first source byte whose read is refused ends the run with BUS_ERROR at its address, after the whole bytes before it. -/
theorem packRun_read_refused {s : State} {j : Nat} (hj : j < s.srcLen.toNat) (hr : s.readsAdmitted j)
    (hf : s.admits (s.srcAddr.toNat + j) .read = false) (hc : ∀ i < j, tabGet s.codeLen (s.sourceByte i) ≠ 0)
    (h : (s.codeStream (s.sourcePart j)).length / 8 ≤ s.dstCap.toNat)
    (ha : s.writesAdmitted ((s.codeStream (s.sourcePart j)).length / 8)) :
    packRun s =
      .error ⟨.busError, BitVec.ofNat 32 (s.srcAddr.toNat + j), (s.codeStream (s.sourcePart j)).length / 8⟩ := by
  have hs : s.streamFrom 0 j = s.codeStream (s.sourcePart j) := s.streamFrom_zero _
  unfold packRun
  rw [State.sink_eq, show s.srcLen.toNat = j + ((s.srcLen.toNat - j - 1) + 1) by omega, packLoop_add,
    packLoop_room (fun i hi => by simpa using hr i (by omega)) (fun i hi => by simpa using hc i hi) (by simp)
      (by simp only [List.nil_append, List.length_nil, hs]; omega)
      (fun i hi => ha i (by simp only [List.nil_append, List.length_nil, hs] at hi; omega))]
  simp only [packLoop, Nat.zero_add, List.nil_append, hs]
  rw [readSrc_refused hf]
  simp only [State.sinkOf_out, groupBytes_length]

/-- A flush that succeeds has written the whole bytes of the pending bits. -/
theorem flushLoop_inv {s : State} {n : Nat} {q q' : Bits} {l : List Byte} {k : Sink}
    (h : flushLoop s n q (s.sinkOf l) = .ok (q', k)) (hl : l.length ≤ s.dstCap.toNat) :
    q' = q.drop (8 * n) ∧ k = s.sinkOf (l ++ groupBytes n q) := by
  induction n generalizing q l with
  | zero => cases h; simp [groupBytes]
  | succ n ih =>
    simp only [flushLoop] at h
    split at h
    · cases h
    · next k' he =>
      obtain ⟨rfl, hl'⟩ := emit_ok he hl
      obtain ⟨h1, h2⟩ := ih h hl'
      refine ⟨?_, ?_⟩
      · rw [h1, List.drop_drop]; congr 1; omega
      · rw [h2]; simp [groupBytes]

/-- A loop that succeeds has met only coded bytes, and has written the whole bytes of their stream. -/
theorem packLoop_inv {s : State} {n j : Nat} {q q' : Bits} {l : List Byte} {k : Sink} (hq : q.length < 8)
    (h : packLoop s n j q (s.sinkOf l) = .ok (q', k)) (hl : l.length ≤ s.dstCap.toNat) :
    (∀ i < n, tabGet s.codeLen (s.sourceByte (j + i)) ≠ 0) ∧
      q' = (q ++ s.streamFrom j n).drop (8 * ((q ++ s.streamFrom j n).length / 8)) ∧
      k = s.sinkOf (l ++ groupBytes ((q ++ s.streamFrom j n).length / 8) (q ++ s.streamFrom j n)) := by
  induction n generalizing j q l with
  | zero =>
    have e : (q ++ s.streamFrom j 0).length / 8 = 0 := by
      simp [State.streamFrom]; omega
    simp only [packLoop, Except.ok.injEq, Prod.mk.injEq] at h
    rw [e]
    obtain ⟨rfl, rfl⟩ := h
    simp [groupBytes, State.streamFrom]
  | succ n ih =>
    simp only [packLoop] at h
    split at h
    · cases h
    · next b hb =>
      have hb' := readSrc_ok hb
      subst hb'
      split at h
      · cases h
      · next hc =>
        split at h
        · cases h
        · next q1 k1 hf =>
          obtain ⟨rfl, rfl⟩ := flushLoop_inv hf hl
          obtain ⟨l1, hl1, hle⟩ := flushLoop_ok hf hl
          have hlen1 : (l ++ groupBytes ((q ++ s.codeOf (s.sourceByte j)).length / 8)
              (q ++ s.codeOf (s.sourceByte j))).length ≤ s.dstCap.toNat := by
            have := congrArg Sink.out hl1
            simp only [State.sinkOf_out] at this
            omega
          obtain ⟨i1, i2, i3⟩ := ih (by simp only [List.length_drop]; omega) h hlen1
          rw [State.streamFrom_succ, ← List.append_assoc]
          generalize hp : q ++ s.codeOf (s.sourceByte j) = p at i2 i3 ⊢
          have hlen : (p ++ s.streamFrom (j + 1) n).length / 8 =
              p.length / 8 + (p.drop (8 * (p.length / 8)) ++ s.streamFrom (j + 1) n).length / 8 := by
            simp only [List.length_append, List.length_drop]; omega
          have hdrop : (p.drop (8 * (p.length / 8)) ++ s.streamFrom (j + 1) n) =
              (p ++ s.streamFrom (j + 1) n).drop (8 * (p.length / 8)) := by
            rw [List.drop_append_of_le_length (by omega)]
          refine ⟨fun i hi => ?_, ?_, ?_⟩
          · cases i with
            | zero => exact hc
            | succ i =>
              have := i1 i (by omega)
              rwa [show j + 1 + i = j + (i + 1) by omega] at this
          · rw [i2, hlen, hdrop, List.drop_drop]
            congr 1
            omega
          · rw [i3, hlen, groupBytes_add, groupBytes_append (n := p.length / 8) (q := p) _ (by omega), hdrop,
              List.append_assoc]

/-- A run that succeeds has met only coded bytes, and has written the padded stream. -/
theorem packRun_inv {s : State} {k : Sink} {p : Nat} (h : packRun s = .ok (k, p)) :
    (∀ j < s.srcLen.toNat, tabGet s.codeLen (s.sourceByte j) ≠ 0) ∧
      k = s.sinkOf (packedBytes (s.codeStream s.sourceBytes)) ∧ p = padFor (s.codeStream s.sourceBytes).length ∧
      (packedBytes (s.codeStream s.sourceBytes)).length ≤ s.dstCap.toNat := by
  have hs : s.streamFrom 0 s.srcLen.toNat = s.codeStream s.sourceBytes := s.streamFrom_zero _
  unfold packRun at h
  split at h
  · cases h
  · next q k' hl =>
    rw [State.sink_eq] at hl
    obtain ⟨l, hl1, hle⟩ := packLoop_ok hl (by simp)
    obtain ⟨i1, i2, i3⟩ := packLoop_inv (by simp) hl (by simp)
    simp only [List.nil_append, hs, Nat.zero_add] at i1 i2 i3
    have hle' : (groupBytes ((s.codeStream s.sourceBytes).length / 8) (s.codeStream s.sourceBytes)).length ≤
        s.dstCap.toNat := by
      have := congrArg Sink.out (i3.symm.trans hl1)
      simp only [State.sinkOf_out] at this
      omega
    have hd : ((s.codeStream s.sourceBytes).drop (8 * ((s.codeStream s.sourceBytes).length / 8))).length =
        (s.codeStream s.sourceBytes).length % 8 := by simp; omega
    refine ⟨i1, ?_⟩
    subst i2 i3
    unfold packTail at h
    have hpk := packedBytes_eq (s.codeStream s.sourceBytes)
    split at h
    · next hn =>
      cases h
      rw [if_pos hn, List.append_nil] at hpk
      rw [hn] at hd
      refine ⟨by rw [hpk], ?_, by rw [hpk]; exact hle'⟩
      simp only [List.length_nil] at hd
      unfold padFor
      omega
    · next hn =>
      split at h
      · cases h
      · next k2 he =>
        obtain ⟨rfl, hle2⟩ := emit_ok he hle'
        cases h
        rw [if_neg hn] at hpk
        refine ⟨by rw [hpk], ?_, by rw [hpk]; exact hle2⟩
        have : (s.codeStream s.sourceBytes).length % 8 ≠ 0 := fun e => hn (List.length_eq_zero_iff.1 (by omega))
        unfold padFor
        omega

theorem packRun_ok {s : State} {k : Sink} {p : Nat} (h : packRun s = .ok (k, p)) :
    ∃ l, k = s.sinkOf l ∧ l.length ≤ s.dstCap.toNat := by
  unfold packRun at h
  split at h
  · cases h
  · next q k' hl =>
    rw [State.sink_eq] at hl
    obtain ⟨l, rfl, hle⟩ := packLoop_ok hl (by simp)
    unfold packTail at h
    split at h
    · cases h
      exact ⟨l, rfl, hle⟩
    · split at h
      · cases h
      · next he =>
        obtain ⟨rfl, hle'⟩ := emit_ok he hle
        cases h
        exact ⟨_, rfl, hle'⟩

end Sys2Proof.Machine
end

