-- ==== Sys2Proof/Laws/Unpack.lean ====
section
/-! SUPPORT. What UNPACK's run leaves: with a prefix-free table it decodes a stream of codes symbol by symbol, and raises
CORRUPT_DATA where the stream goes on with bits no code is a prefix of. -/

namespace Sys2Proof.Machine

/-! ### The inverse code table -/

theorem State.codeOf_length (s : State) (b : Byte) : (s.codeOf b).length = (tabGet s.codeLen b).toNat := by
  simp [State.codeOf]

theorem State.inverse_sound {s : State} {q : Bits} {b : Byte} (h : s.inverse q = some b) : s.codeOf b = q := by
  have := List.find?_some h
  simp only [Bool.and_eq_true, beq_iff_eq] at this
  rw [State.codeOf, this.1, this.2, bitsOf_valOf]

theorem State.inverse_none {s : State} {q : Bits}
    (h : ∀ b, s.codeOf b ≠ q) : s.inverse q = none := by
  rw [State.inverse, List.find?_eq_none]
  intro b _ hc
  simp only [Bool.and_eq_true, beq_iff_eq] at hc
  exact h b (by rw [State.codeOf, hc.1, hc.2, bitsOf_valOf])

/-- With a prefix-free table the inverse of a code is its symbol. -/
theorem State.inverse_codeOf {s : State} (hb : ∀ b, (tabGet s.codeBits b).toNat < 2 ^ (tabGet s.codeLen b).toNat)
    (hp : PrefixFree s) {b : Byte} (hn : tabGet s.codeLen b ≠ 0) : s.inverse (s.codeOf b) = some b := by
  cases hi : s.inverse (s.codeOf b) with
  | none =>
    rw [State.inverse, List.find?_eq_none] at hi
    refine absurd ?_ (hi b (mem_allSymbols b))
    rw [State.codeOf_length, State.codeOf, valOf_bitsOf (hb b)]
    simp
  | some c =>
    have hc := State.inverse_sound hi
    by_contra hne
    have hne' : c ≠ b := fun e => hne (by rw [e])
    have hcn : tabGet s.codeLen c ≠ 0 := by
      intro h0
      have h1 := s.codeOf_length c
      rw [hc, s.codeOf_length b, h0] at h1
      exact hn (BitVec.eq_of_toNat_eq (by simpa using h1))
    exact hp c b hne' hcn hn (by rw [hc])

/-- A part of the data no code is a prefix of matches nothing. -/
theorem State.inverse_of_no_prefix {s : State} {q r : Bits}
    (hno : ∀ b, tabGet s.codeLen b ≠ 0 → ¬s.codeOf b <+: q) (hr : r <+: q) (hne : r ≠ []) : s.inverse r = none := by
  refine State.inverse_none fun b hc => ?_
  refine hno b ?_ (hc ▸ hr)
  intro h0
  have h1 := s.codeOf_length b
  rw [hc, h0] at h1
  exact hne (List.length_eq_zero_iff.1 (by simpa using h1))

/-! ### The data bits -/

/-- Data bit `i`: bit `7 - i mod 8` of source byte `i div 8` (20_memory.md R63). -/
def State.dataBit (s : State) (i : Nat) : Bool := (s.sourceByte (i / 8)).getLsbD (7 - i % 8)

theorem byteBits_getElem? (l : List Byte) (k : Nat) :
    (l.flatMap fun b => bitsOf 8 b.toNat)[k]? = (l[k / 8]?).map fun b => b.getLsbD (7 - k % 8) := by
  induction l generalizing k with
  | nil => simp
  | cons b l ih =>
    simp only [List.flatMap_cons]
    by_cases hk : k < 8
    · rw [List.getElem?_append_left (by simpa using hk)]
      have e : k / 8 = 0 := by omega
      have e2 : k % 8 = k := by omega
      simp [e, e2, bitsOf_byte, hk]
    · rw [List.getElem?_append_right (by simp; omega), bitsOf_length, ih]
      have e : k / 8 = (k - 8) / 8 + 1 := by omega
      have e2 : k % 8 = (k - 8) % 8 := by omega
      rw [e, e2, List.getElem?_cons_succ]

theorem byteBits_length (l : List Byte) : (l.flatMap fun b => bitsOf 8 b.toNat).length = 8 * l.length := by
  induction l with
  | nil => rfl
  | cons b l ih => simp [List.flatMap_cons, ih]; omega

theorem State.sourceBytes_length (s : State) : s.sourceBytes.length = s.srcLen.toNat := by
  simp [State.sourceBytes, State.sourcePart]

theorem State.dataStream_length (s : State) : s.dataStream.length = s.dataBits := by
  simp only [State.dataStream, List.length_take, byteBits_length, State.sourceBytes_length, State.dataBits]
  omega

theorem State.dataStream_getElem? {s : State} {i : Nat} (h : i < s.dataBits) : s.dataStream[i]? = some (s.dataBit i) := by
  have h8 : i / 8 < s.srcLen.toNat := by unfold State.dataBits at h; omega
  rw [State.dataStream, List.getElem?_take_of_lt h, byteBits_getElem?]
  have : s.sourceBytes[i / 8]? = some (s.sourceByte (i / 8)) := by
    simp [State.sourceBytes, State.sourcePart, h8]
  rw [this]
  rfl

/-- The bits of `q` stand in the data from bit `i` on. -/
def State.bitsAt (s : State) (i : Nat) (q : Bits) : Prop := ∀ k (h : k < q.length), s.dataBit (i + k) = q[k]

theorem State.bitsAt_append {s : State} {i : Nat} {q r : Bits} (h : s.bitsAt i (q ++ r)) :
    s.bitsAt i q ∧ s.bitsAt (i + q.length) r := by
  refine ⟨fun k hk => ?_, fun k hk => ?_⟩
  · rw [h k (by simp; omega), List.getElem_append_left hk]
  · have := h (q.length + k) (by simp; omega)
    rw [List.getElem_append_right (by omega)] at this
    simpa [Nat.add_assoc] using this

theorem State.bitsAt_dataStream (s : State) : s.bitsAt 0 s.dataStream := by
  intro k hk
  have h := State.dataStream_getElem? (s := s) (by rwa [State.dataStream_length] at hk)
  rw [List.getElem?_eq_getElem hk, Option.some.injEq] at h
  simpa using h.symm

/-! ### The loop -/

/-- The byte at hand is the one that holds the bit before, while that byte is not used up. -/
def State.byteAtHand (s : State) (i : Nat) (x : Byte) : Prop := i % 8 ≠ 0 → x = s.sourceByte (i / 8)

theorem dataByte_eq {s : State} {i w : Nat} {x : Byte} (hx : s.byteAtHand i x)
    (ha : s.admits (s.srcAddr.toNat + i / 8) .read = true) : dataByte s i x w = .ok (s.sourceByte (i / 8)) := by
  unfold dataByte
  split
  · exact readSrc_admitted ha
  · next h => rw [hx h]

theorem State.byteAtHand_succ (s : State) (i : Nat) : s.byteAtHand (i + 1) (s.sourceByte (i / 8)) := by
  intro h
  congr 1
  omega

/-- The bits of one code, the candidate so far being the rest of it, decode to its symbol, which is emitted. -/
theorem unpackLoop_code {s : State} (hc : CodesLegal s) (hv : s.codesValid = true) {b : Byte}
    (hb : tabGet s.codeLen b ≠ 0) {r q : Bits} (hr : r ≠ []) (hq : s.codeOf b = q ++ r) {i n z : Nat} {x : Byte}
    {k : Sink} (hbits : s.bitsAt i r) (hx : s.byteAtHand i x) (hra : s.readsAdmitted z)
    (hi : i + r.length ≤ 8 * z) :
    ∃ y, s.byteAtHand (i + r.length) y ∧
      unpackLoop s (r.length + n) i x q k =
        match emit s k b with
        | .error e => .error e
        | .ok k' => unpackLoop s n (i + r.length) y [] k' := by
  induction r generalizing q i x with
  | nil => exact absurd rfl hr
  | cons d r ih =>
    have h8 : i / 8 < z := by simp at hi; omega
    have hd : (s.sourceByte (i / 8)).getLsbD (7 - i % 8) = d := hbits 0 (by simp)
    have e : (d :: r).length + n = (r.length + n) + 1 := by simp; omega
    rw [e]
    simp only [unpackLoop, dataByte_eq hx (hra _ h8), hd]
    by_cases hrn : r = []
    · subst hrn
      rw [← hq, State.inverse_codeOf hc.1 (hc.2 hv).1 hb]
      refine ⟨_, s.byteAtHand_succ i, ?_⟩
      simp only
      cases emit s k b with
      | error e => rfl
      | ok k' => simp
    · have hpre : s.inverse (q ++ [d]) = none := by
        cases hi' : s.inverse (q ++ [d]) with
        | none => rfl
        | some c =>
          have hcode := State.inverse_sound hi'
          have hne : c ≠ b := by
            intro ec
            rw [ec, hq] at hcode
            have := congrArg List.length hcode
            simp at this
            exact hrn this
          have hcn : tabGet s.codeLen c ≠ 0 := by
            intro h0
            have h1 := s.codeOf_length c
            rw [hcode, h0] at h1
            simp at h1
          refine absurd ⟨r, ?_⟩ ((hc.2 hv).1 c b hne hcn hb)
          rw [hcode, hq]
          simp
      rw [hpre]
      have hlen : ¬s.maxLen.toNat ≤ q.length + 1 := by
        have h1 := le_largest (fun b => (tabGet s.codeLen b).toNat) b
        have h2 := s.codeOf_length b
        have h3 : 1 ≤ r.length := by
          rcases r with _ | ⟨_, _⟩
          · exact absurd rfl hrn
          · simp
        rw [hq] at h2
        simp only [List.length_append, List.length_cons] at h2
        have h4 := (hc.2 hv).2.2.2
        omega
      simp only [if_neg hlen]
      obtain ⟨y, hy1, hy2⟩ := ih (q := q ++ [d]) (i := i + 1) (x := s.sourceByte (i / 8)) hrn (by simp [hq])
        (fun k hk => by
          have := hbits (k + 1) (by simpa using hk)
          rw [show i + (k + 1) = i + 1 + k by omega] at this
          simpa using this)
        (s.byteAtHand_succ i) (by simp at hi ⊢; omega)
      refine ⟨y, ?_, ?_⟩
      · rw [show i + (d :: r).length = i + 1 + r.length by simp; omega]; exact hy1
      · rw [show i + (d :: r).length = i + 1 + r.length by simp; omega]; exact hy2

theorem State.codeOf_ne_nil {s : State} {b : Byte} (h : tabGet s.codeLen b ≠ 0) : s.codeOf b ≠ [] := by
  intro h0
  have h1 := s.codeOf_length b
  rw [h0] at h1
  exact h (BitVec.eq_of_toNat_eq (by simpa using h1.symm))

theorem State.codeStream_append (s : State) (l m : List Byte) :
    s.codeStream (l ++ m) = s.codeStream l ++ s.codeStream m := by simp [State.codeStream]

/-- A stream of codes decodes to their symbols. -/
theorem unpackLoop_codes {s : State} (hc : CodesLegal s) (hv : s.codesValid = true) {m : List Byte}
    (hm : ∀ b ∈ m, tabGet s.codeLen b ≠ 0) {i n z : Nat} {x : Byte} {l : List Byte}
    (hbits : s.bitsAt i (s.codeStream m)) (hx : s.byteAtHand i x) (hra : s.readsAdmitted z)
    (hi : i + (s.codeStream m).length ≤ 8 * z) (hl : l.length + m.length ≤ s.dstCap.toNat)
    (hwa : s.writesAdmitted (l.length + m.length)) :
    ∃ y, s.byteAtHand (i + (s.codeStream m).length) y ∧
      unpackLoop s ((s.codeStream m).length + n) i x [] (s.sinkOf l) =
        unpackLoop s n (i + (s.codeStream m).length) y [] (s.sinkOf (l ++ m)) := by
  induction m generalizing i x l with
  | nil => exact ⟨x, by simpa [State.codeStream] using hx, by simp [State.codeStream]⟩
  | cons b m ih =>
    have hcs : s.codeStream (b :: m) = s.codeOf b ++ s.codeStream m := by simp [State.codeStream]
    rw [hcs] at hbits hi ⊢
    obtain ⟨hb1, hb2⟩ := State.bitsAt_append hbits
    have hbn := hm b (by simp)
    simp only [List.length_append, List.length_cons] at hi hl hwa ⊢
    obtain ⟨y, hy1, hy2⟩ := unpackLoop_code (n := (s.codeStream m).length + n) (k := s.sinkOf l) hc hv hbn (q := [])
      (State.codeOf_ne_nil hbn) (by simp) hb1 hx hra (by omega)
    rw [emit_room (by omega) (fun j hj => hwa j (by omega))] at hy2
    simp only at hy2
    obtain ⟨z, hz1, hz2⟩ := ih (l := l ++ [b]) (fun c h => hm c (by simp [h])) hb2 hy1 (by omega) (by simp; omega)
      (fun j hj => hwa j (by simp at hj; omega))
    refine ⟨z, by rw [← Nat.add_assoc]; exact hz1, ?_⟩
    rw [show (s.codeOf b).length + (s.codeStream m).length + n = (s.codeOf b).length + ((s.codeStream m).length + n) by omega,
      hy2, hz2]
    simp [Nat.add_assoc]

/-- A stream of codes ends the loop at the byte of output that stops it, if it comes to it. -/
theorem unpackLoop_stop {s : State} (hc : CodesLegal s) (hv : s.codesValid = true) {o : Nat} {r : Raise}
    (hs : s.stopsAt o r) {m : List Byte} (hm : ∀ b ∈ m, tabGet s.codeLen b ≠ 0) (ho : o < m.length) {n z : Nat}
    (hbits : s.bitsAt 0 (s.codeStream m)) (hra : s.readsAdmitted z) (hi : (s.codeStream m).length ≤ 8 * z) :
    unpackLoop s ((s.codeStream m).length + n) 0 0 [] (s.sinkOf []) = .error r := by
  have hcs : s.codeStream m = s.codeStream (m.take o) ++ (s.codeOf m[o] ++ s.codeStream (m.drop (o + 1))) := by
    conv_lhs => rw [← List.take_append_drop o m, List.drop_eq_getElem_cons ho, State.codeStream_append]
    rfl
  rw [hcs] at hbits hi ⊢
  obtain ⟨hb1, hb2⟩ := State.bitsAt_append hbits
  obtain ⟨hb3, -⟩ := State.bitsAt_append hb2
  have hbn := hm m[o] (List.getElem_mem ho)
  have hlt : (m.take o).length = o := by simp; omega
  have h1 := hs.1
  simp only [List.length_append] at hi ⊢
  obtain ⟨y, hy1, hy2⟩ := unpackLoop_codes (l := []) (i := 0) (x := 0)
    (n := (s.codeOf m[o]).length + ((s.codeStream (m.drop (o + 1))).length + n)) hc hv
    (fun b h => hm b (List.mem_of_mem_take h)) hb1 (fun h => absurd rfl h) hra (by omega) (by simp; omega)
    (fun j hj => hs.2.1 j (by simp at hj; omega))
  obtain ⟨_, -, hw⟩ := unpackLoop_code (k := s.sinkOf (m.take o)) (n := (s.codeStream (m.drop (o + 1))).length + n) hc hv hbn
    (q := []) (State.codeOf_ne_nil hbn) (by simp) hb3 hy1 hra (by omega)
  rw [hs.2.2 _ _ hlt] at hw
  rw [show (s.codeStream (m.take o)).length + ((s.codeOf m[o]).length + (s.codeStream (m.drop (o + 1))).length) + n =
    (s.codeStream (m.take o)).length + ((s.codeOf m[o]).length + ((s.codeStream (m.drop (o + 1))).length + n)) by omega, hy2]
  exact hw

/-- Bits no code is a prefix of, fewer than MAX_LEN with the candidate, lengthen the candidate. -/
theorem unpackLoop_unmatched {s : State}
    {r q : Bits} (hno : ∀ b, tabGet s.codeLen b ≠ 0 → ¬s.codeOf b <+: q ++ r) (hlen : (q ++ r).length < s.maxLen.toNat)
    {i n z : Nat} {x : Byte} {k : Sink} (hbits : s.bitsAt i r) (hx : s.byteAtHand i x)
    (hra : s.readsAdmitted z) (hi : i + r.length ≤ 8 * z) :
    ∃ y, s.byteAtHand (i + r.length) y ∧
      unpackLoop s (r.length + n) i x q k = unpackLoop s n (i + r.length) y (q ++ r) k := by
  induction r generalizing q i x with
  | nil => exact ⟨x, by simpa using hx, by simp⟩
  | cons d r ih =>
    have h8 : i / 8 < z := by simp at hi; omega
    have hd : (s.sourceByte (i / 8)).getLsbD (7 - i % 8) = d := hbits 0 (by simp)
    have e : (d :: r).length + n = (r.length + n) + 1 := by simp; omega
    have hpre : s.inverse (q ++ [d]) = none :=
      State.inverse_of_no_prefix hno ⟨r, by simp⟩ (by simp)
    have hm : ¬s.maxLen.toNat ≤ q.length + 1 := by simp at hlen; omega
    rw [e]
    simp only [unpackLoop, dataByte_eq hx (hra _ h8), hd, hpre, if_neg hm]
    obtain ⟨y, hy1, hy2⟩ := ih (q := q ++ [d]) (i := i + 1) (x := s.sourceByte (i / 8)) (by simpa using hno)
      (by simpa using hlen)
      (fun k hk => by
        have := hbits (k + 1) (by simpa using hk)
        rw [show i + (k + 1) = i + 1 + k by omega] at this
        simpa using this)
      (s.byteAtHand_succ i) (by simp at hi ⊢; omega)
    refine ⟨y, ?_, ?_⟩
    · rw [show i + (d :: r).length = i + 1 + r.length by simp; omega]; exact hy1
    · rw [show i + (d :: r).length = i + 1 + r.length by simp; omega, hy2]; simp

/-- MAX_LEN such bits are CORRUPT_DATA at the last of them (41_bit_pack.md R152 (a)). -/
theorem unpackLoop_corrupt {s : State}
    {r : Bits} (hno : ∀ b, tabGet s.codeLen b ≠ 0 → ¬s.codeOf b <+: r) (hlen : r.length = s.maxLen.toNat) (hr : r ≠ [])
    {i n z : Nat} {x : Byte} {k : Sink} (hbits : s.bitsAt i r) (hx : s.byteAtHand i x)
    (hra : s.readsAdmitted z) (hi : i + r.length ≤ 8 * z) :
    unpackLoop s (r.length + n) i x [] k = .error ⟨.corruptData, BitVec.ofNat 32 (i + r.length - 1), k.out⟩ := by
  obtain ⟨q, d, rfl⟩ : ∃ q d, r = q ++ [d] := ⟨r.dropLast, r.getLast hr, (List.dropLast_append_getLast hr).symm⟩
  obtain ⟨hb1, hb2⟩ := State.bitsAt_append hbits
  simp only [List.length_append, List.length_singleton] at hlen hi ⊢
  obtain ⟨y, hy1, hy2⟩ := unpackLoop_unmatched (q := []) (r := q) (n := n + 1) (k := k)
    (fun b h0 hp => hno b h0 (by simpa using hp.trans (List.prefix_append _ _))) (by simp; omega) hb1 hx hra (by omega)
  rw [show q.length + 1 + n = q.length + (n + 1) by omega, hy2]
  have h8 : (i + q.length) / 8 < z := by omega
  have hd : (s.sourceByte ((i + q.length) / 8)).getLsbD (7 - (i + q.length) % 8) = d := hb2 0 (by simp)
  have hpre : s.inverse (q ++ [d]) = none := State.inverse_of_no_prefix hno (List.prefix_refl _) (by simp)
  have hm : s.maxLen.toNat ≤ q.length + 1 := by omega
  simp only [unpackLoop, List.nil_append, dataByte_eq hy1 (hra _ h8), hd, hpre, if_pos hm]
  rfl

/-- Whatever symbols the loop writes stay within DST_CAP. -/
theorem unpackLoop_ok {s : State} {n i : Nat} {x : Byte} {q q' : Bits} {l : List Byte} {k : Sink}
    (h : unpackLoop s n i x q (s.sinkOf l) = .ok (q', k)) (hl : l.length ≤ s.dstCap.toNat) :
    ∃ l', k = s.sinkOf l' ∧ l'.length ≤ s.dstCap.toNat := by
  induction n generalizing i x q l with
  | zero =>
    simp only [unpackLoop, Except.ok.injEq, Prod.mk.injEq] at h
    exact ⟨l, h.2.symm, hl⟩
  | succ n ih =>
    simp only [unpackLoop] at h
    split at h
    · cases h
    · split at h
      · split at h
        · cases h
        · next he =>
          obtain ⟨rfl, hl'⟩ := emit_ok he hl
          exact ih h hl'
      · split at h
        · cases h
        · exact ih h hl

theorem unpackRun_ok {s : State} {k : Sink} (h : unpackRun s = .ok k) :
    ∃ l, k = s.sinkOf l ∧ l.length ≤ s.dstCap.toNat := by
  unfold unpackRun at h
  split at h
  · cases h
  · split at h
    · cases h
    · next hl =>
      rw [State.sink_eq] at hl
      obtain ⟨l, rfl, hle⟩ := unpackLoop_ok hl (by simp)
      split at h
      · cases h
        exact ⟨l, rfl, hle⟩
      · cases h

/-- A run over data bits that are the codes of `m` writes `m`. -/
theorem unpackRun_codes {s : State} (hc : CodesLegal s) (hv : s.codesValid = true) {m : List Byte}
    (hm : ∀ b ∈ m, tabGet s.codeLen b ≠ 0) (hd : s.dataStream = s.codeStream m)
    (hpad : s.pad.toNat ≤ 8 * s.srcLen.toNat) (hra : s.readsAdmitted s.srcLen.toNat) (hl : m.length ≤ s.dstCap.toNat)
    (hwa : s.writesAdmitted m.length) : unpackRun s = .ok (s.sinkOf m) := by
  have hlen : (s.codeStream m).length = s.dataBits := by rw [← hd, State.dataStream_length]
  have hbits : s.bitsAt 0 (s.codeStream m) := hd ▸ s.bitsAt_dataStream
  obtain ⟨y, -, hy⟩ := unpackLoop_codes (n := 0) (x := 0) (l := []) hc hv hm hbits (fun h => absurd rfl h) hra
    (by rw [hlen]; unfold State.dataBits; omega) (by simpa using hl) (by simpa using hwa)
  unfold unpackRun
  rw [if_neg (by omega), State.sink_eq, ← hlen, ← Nat.add_zero (s.codeStream m).length, hy]
  simp [unpackLoop]

/-- A run over data that begin with the codes of `m` ends at the byte of output that stops it, if `m` comes to it. -/
theorem unpackRun_stop {s : State} (hc : CodesLegal s) (hv : s.codesValid = true) {o : Nat} {r : Raise} (hs : s.stopsAt o r)
    {m : List Byte} (hm : ∀ b ∈ m, tabGet s.codeLen b ≠ 0) (ho : o < m.length) (hd : s.codeStream m <+: s.dataStream)
    (hpad : s.pad.toNat ≤ 8 * s.srcLen.toNat) (hra : s.readsAdmitted (((s.codeStream m).length + 7) / 8)) :
    unpackRun s = .error r := by
  have hlen := hd.length_le
  rw [State.dataStream_length] at hlen
  obtain ⟨q, hq⟩ := hd
  have hbits : s.bitsAt 0 (s.codeStream m) := (State.bitsAt_append (hq ▸ s.bitsAt_dataStream)).1
  unfold unpackRun
  rw [if_neg (by omega), State.sink_eq, show s.dataBits = (s.codeStream m).length + (s.dataBits - (s.codeStream m).length) by
    omega, unpackLoop_stop hc hv hs hm ho hbits hra (by omega)]

/-- The first source byte whose read is refused ends the run with BUS_ERROR at its address, after the symbols whose codes
stand whole before it. -/
theorem unpackRun_read_refused {s : State} (hc : CodesLegal s) (hv : s.codesValid = true) {m : List Byte} {q : Bits} {j : Nat}
    (hm : ∀ b ∈ m, tabGet s.codeLen b ≠ 0) (hno : ∀ b, tabGet s.codeLen b ≠ 0 → ¬s.codeOf b <+: q)
    (hq : q.length < s.maxLen.toNat) (hd : s.codeStream m ++ q = s.dataStream.take (8 * j)) (hj : 8 * j < s.dataBits)
    (hpad : s.pad.toNat ≤ 8 * s.srcLen.toNat) (hr : s.readsAdmitted j)
    (hf : s.admits (s.srcAddr.toNat + j) .read = false) (hl : m.length ≤ s.dstCap.toNat) (hwa : s.writesAdmitted m.length) :
    unpackRun s = .error ⟨.busError, BitVec.ofNat 32 (s.srcAddr.toNat + j), m.length⟩ := by
  have hlen : (s.codeStream m).length + q.length = 8 * j := by
    rw [← List.length_append, hd, List.length_take, State.dataStream_length]; omega
  have hbits : s.bitsAt 0 (s.codeStream m ++ q) := by
    rw [hd]
    exact (State.bitsAt_append (q := s.dataStream.take (8 * j)) (r := s.dataStream.drop (8 * j))
      (by rw [List.take_append_drop]; exact s.bitsAt_dataStream)).1
  obtain ⟨hb1, hb2⟩ := State.bitsAt_append hbits
  obtain ⟨y, hy1, hy2⟩ := unpackLoop_codes (n := q.length + (s.dataBits - 8 * j)) (x := 0) (l := []) hc hv hm hb1
    (fun h => absurd rfl h) hr (by omega) (by simpa using hl) (by simpa using hwa)
  obtain ⟨w, -, hw⟩ := unpackLoop_unmatched (q := []) (r := q) (n := s.dataBits - 8 * j) (k := s.sinkOf m) hno
    (by simpa using hq) hb2 hy1 hr (by omega)
  unfold unpackRun
  rw [if_neg (by omega), State.sink_eq, show s.dataBits = (s.codeStream m).length + (q.length + (s.dataBits - 8 * j)) by omega,
    hy2, List.nil_append, hw, show s.dataBits - 8 * j = (s.dataBits - 8 * j - 1) + 1 by omega,
    show 0 + (s.codeStream m).length + q.length = 8 * j by omega]
  simp only [unpackLoop, dataByte]
  rw [if_pos (by omega), show 8 * j / 8 = j by omega, readSrc_refused hf]
  rfl

end Sys2Proof.Machine
end

