-- ==== Sys2Proof/Laws/Exec.lean ====
section
/-! SUPPORT. What each command can answer, said once: every command answers a next state, which is a completed success or a
completed error (60_exceptions.md R200, R204, R206). -/

namespace Sys2Proof.Machine

/-! ### Errors and memory -/

theorem State.dstSpan_fits (s : State) : s.dstAddr.toNat + s.dstSpan ≤ Config.memSize := by
  have h := s.dstAddr.isLt
  have : Config.memSize = 2 ^ 32 := rfl
  unfold State.dstSpan
  omega

theorem State.scrambleDst_spec {s : State} (hm : Mem.wf s.mem = true) :
    Mem.wf s.scrambleDst.mem = true ∧
      ∀ a, s.inDst a = false → Mem.read s.scrambleDst.mem a = Mem.read s.mem a := by
  obtain ⟨h1, h2⟩ := Mem.scramble_spec (k := s.draws) hm s.dstSpan_fits
  refine ⟨h1, fun a ha => ?_⟩
  have := h2 a
  rw [if_neg] at this
  · exact this
  · unfold State.inDst at ha
    simp only [Bool.and_eq_false_iff, decide_eq_false_iff_not] at ha
    unfold State.dstSpan
    omega

/-- An error leaves memory canonical, and every byte outside the destination range as it was. -/
theorem State.fail_mem_spec {s : State} {r : Raise} (hm : Mem.wf s.mem = true) :
    Mem.wf (s.fail r).mem = true ∧ ∀ a, s.inDst a = false → Mem.read (s.fail r).mem a = Mem.read s.mem a := by
  by_cases h : r.written = 0
  · rw [State.fail_mem_unwritten h]
    exact ⟨hm, fun _ _ => rfl⟩
  · rw [State.fail_mem_written h]
    exact State.scrambleDst_spec hm

theorem State.rangesOk_iff {s : State} :
    s.rangesOk = true ↔ s.srcFits = true ∧ s.dstFits = true ∧ s.rangesOverlap = false := by
  simp [State.rangesOk, and_assoc]

theorem State.dstFits_iff {s : State} : s.dstFits = true ↔ s.dstAddr.toNat + s.dstCap.toNat ≤ Config.memSize := by
  simp [State.dstFits]

/-- Bytes written within DST_CAP leave memory canonical, and every byte outside the destination range as it was. -/
theorem State.sinkOf_mem_spec {s : State} {l : List Byte} (hm : Mem.wf s.mem = true) (hf : s.dstFits = true)
    (hl : l.length ≤ s.dstCap.toNat) :
    Mem.wf (s.sinkOf l).mem = true ∧ ∀ a, s.inDst a = false → Mem.read (s.sinkOf l).mem a = Mem.read s.mem a := by
  rw [State.dstFits_iff] at hf
  refine ⟨Mem.wf_writeAll hm (by omega), fun a ha => Mem.read_writeAll_outside hm (by omega) ?_⟩
  unfold State.inDst at ha
  simp only [Bool.and_eq_false_iff, decide_eq_false_iff_not] at ha
  omega

/-- What an error writes, memory and the count of draws aside. -/
theorem State.fail_eq (s : State) (r : Raise) :
    s.fail r =
      { s with
        mem := (s.fail r).mem, draws := (s.fail r).draws, errCode := r.name.code, errInfo := r.info, outLen := 0,
        busy := false, done := true } := by
  unfold State.fail
  split <;> rfl

/-- What an error leaves, in the terms of the statements. -/
theorem State.fail_raised (s : State) (r : Raise) : RaisedFrom s r.name.code r.info r.written (s.fail r) :=
  ⟨s.fail_eq r, fun hm => (State.fail_mem_spec hm).2, fun hw => by
    rw [State.fail_mem_unwritten hw]
    exact ⟨rfl, by unfold State.fail; rw [if_pos hw]; rfl⟩⟩

/-! ### Each command's answers -/

/-- PACK past its state and range checks. -/
theorem execPack_run {s : State} (hv : s.codesValid = true) (hr : s.rangesOk = true) :
    execPack s =
      match packRun s with
      | .error r => .next (s.fail r)
      | .ok (k, p) => .next (setPacked s k p).complete := by
  unfold execPack
  rw [if_pos hv, if_pos hr]
  all_goals rfl

/-- UNPACK past its state and range checks. -/
theorem execUnpack_run {s : State} (hv : s.codesValid = true) (hr : s.rangesOk = true) :
    execUnpack s =
      match unpackRun s with
      | .error r => .next (s.fail r)
      | .ok k => .next (setUnpacked s k).complete := by
  unfold execUnpack
  rw [if_pos hv, if_pos hr]
  all_goals rfl

/-- SERIALIZE past its state and range checks. -/
theorem execSerialize_run {s : State} (hv : s.codesValid = true) (hr : s.rangesOk = true) :
    execSerialize s =
      match serializeRun s with
      | .error r => .next (s.fail r)
      | .ok k => .next (setSerialized s k).complete := by
  unfold execSerialize
  rw [if_pos hv, if_pos hr]
  all_goals rfl

theorem execCountFreq_cases (s : State) :
    (∃ f, execCountFreq s = .next { s with freq := f }.complete) ∨
      ∃ f r, r.written = 0 ∧ execCountFreq s = .next ({ s with freq := f }.fail r) := by
  unfold execCountFreq
  split
  · split
    · next f _ => exact Or.inl ⟨f, rfl⟩
    · next f r h => exact Or.inr ⟨f, r, countLoop_error h, rfl⟩
  · exact Or.inr ⟨s.freq, ⟨.range, 0, 0⟩, rfl, rfl⟩

theorem execBuildTree_empty {s : State} (h : s.symbolsPresent = 0) :
    execBuildTree s = .next ((dropTree s).fail ⟨.emptyInput, 0, 0⟩) := by
  unfold execBuildTree
  rw [if_pos (by rw [State.leaves_length]; exact h)]

theorem execBuildTree_tree {s : State} (h : s.symbolsPresent ≠ 0) :
    ∃ t, Merging s.leaves t [2 * s.symbolsPresent - 2] (2 * s.symbolsPresent - 1) ∧
      TreeShape t (2 * s.symbolsPresent - 1) ∧
      execBuildTree s =
        .next (setTree s t [2 * s.symbolsPresent - 2] (2 * s.symbolsPresent - 1)).complete := by
  obtain ⟨t, h1, h2, h3⟩ := s.merged_spec h
  refine ⟨t, h2, h3, ?_⟩
  unfold execBuildTree
  rw [if_neg (by rw [State.leaves_length]; exact h), h1]

theorem execAssignCodes_cases (s : State) :
    (s.treeValid = true ∧ tooLong s.assigned = [] ∧ execAssignCodes s = .next (setCodes s s.assigned).complete) ∨
      ∃ r, r.written = 0 ∧ execAssignCodes s = .next (s.fail r) := by
  unfold execAssignCodes
  split
  · next hv =>
    split
    · exact Or.inr ⟨_, rfl, rfl⟩
    · next h => exact Or.inl ⟨hv, h, rfl⟩
  · exact Or.inr ⟨_, rfl, rfl⟩

theorem execPack_cases (s : State) :
    (∃ l p, s.dstFits = true ∧ l.length ≤ s.dstCap.toNat ∧ execPack s = .next (setPacked s (s.sinkOf l) p).complete) ∨
      ∃ r, execPack s = .next (s.fail r) := by
  unfold execPack
  split
  · split
    · next hr =>
      have hf := (State.rangesOk_iff.1 hr).2.1
      split
      · next r _ => exact Or.inr ⟨r, rfl⟩
      · next k p h =>
        obtain ⟨l, rfl, hl⟩ := packRun_ok h
        exact Or.inl ⟨l, p, hf, hl, rfl⟩
    · exact Or.inr ⟨_, rfl⟩
  · exact Or.inr ⟨_, rfl⟩

theorem execUnpack_cases (s : State) :
    (∃ l, s.dstFits = true ∧ l.length ≤ s.dstCap.toNat ∧ execUnpack s = .next (setUnpacked s (s.sinkOf l)).complete) ∨
      ∃ r, execUnpack s = .next (s.fail r) := by
  unfold execUnpack
  split
  · split
    · next hr =>
      have hf := (State.rangesOk_iff.1 hr).2.1
      split
      · next r _ => exact Or.inr ⟨r, rfl⟩
      · next k h =>
        obtain ⟨l, rfl, hl⟩ := unpackRun_ok h
        exact Or.inl ⟨l, hf, hl, rfl⟩
    · exact Or.inr ⟨_, rfl⟩
  · exact Or.inr ⟨_, rfl⟩

theorem execSerialize_cases (s : State) :
    (s.dstFits = true ∧ (s.header ++ s.sourceBytes).length ≤ s.dstCap.toNat ∧
        execSerialize s = .next (setSerialized s (s.sinkOf (s.header ++ s.sourceBytes))).complete) ∨
      ∃ r, execSerialize s = .next (s.fail r) := by
  unfold execSerialize
  split
  · split
    · next hr =>
      have hf := (State.rangesOk_iff.1 hr).2.1
      split
      · next r _ => exact Or.inr ⟨r, rfl⟩
      · next k h =>
        obtain ⟨rfl, hl⟩ := serializeRun_ok h
        exact Or.inl ⟨hf, hl, rfl⟩
    · exact Or.inr ⟨_, rfl⟩
  · exact Or.inr ⟨_, rfl⟩

theorem readSrc_error {s : State} {j w : Nat} {r : Raise} (h : readSrc s j w = .error r) : r.written = w := by
  unfold readSrc at h
  split at h
  · cases h
  · cases h; rfl

theorem readSpan_error {s : State} {n o : Nat} {r : Raise} (h : readSpan s n o = .error r) : r.written = 0 := by
  induction n generalizing o with
  | zero => cases h
  | succ n ih =>
    simp only [readSpan] at h
    split at h
    · next he => cases h; exact readSrc_error he
    · split at h
      · next he => cases h; exact ih he
      · cases h

theorem parseContainer_error {s : State} {r : Raise} (h : parseContainer s = .error r) : r.written = 0 := by
  unfold parseContainer at h
  split at h
  · split at h
    · cases h; rfl
    · split at h
      · next he => cases h; exact readSpan_error he
      · unfold parseTable at h
        split at h
        · cases h; rfl
        · split at h
          · cases h; rfl
          · split at h
            · cases h; rfl
            · split at h
              · next he => cases h; exact readSpan_error he
              · split at h
                · cases h; rfl
                · cases h
  · cases h; rfl

theorem execDeserialize_cases (s : State) :
    (∃ syms vals pad payload, ContainerLegal syms vals pad payload ∧
        s.sourceBytes = containerOf syms vals pad payload ∧
        execDeserialize s =
          .next (setContainer s syms.length (syms ++ vals.flatMap (bytesBE 8) ++ [pad])).complete) ∨
      ∃ r, r.written = 0 ∧ execDeserialize s = .next ((dropCodes s).fail r) := by
  unfold execDeserialize
  split
  · next r h => exact Or.inr ⟨r, parseContainer_error h, rfl⟩
  · next n t h =>
    obtain ⟨syms, vals, pad, payload, hl, hs, rfl, rfl⟩ := parseContainer_sound h
    exact Or.inl ⟨syms, vals, pad, payload, hl, hs, rfl⟩

end Sys2Proof.Machine
end

