-- ==== Sys2Proof/Laws/Ends.lean ====
section
/-! SUPPORT. Every state a command can end in, as one closed list, and that every command ends in one of them: a proof about
all commands is a case analysis over `Ends`. -/

namespace Sys2Proof.Machine

/-- `t` is a state in which the command `i`, run at `s`, can end. -/
inductive Ends (s : State) : Instr → State → Prop
  | nop : Ends s .nop s.complete
  | clear : Ends s .clear (clearTables s).complete
  | counted (f : Vector Word 256) : Ends s .countFreq { s with freq := f }.complete
  | countError (f : Vector Word 256) (r : Raise) (hr : r.written = 0) : Ends s .countFreq ({ s with freq := f }.fail r)
  | noTree (h : s.symbolsPresent = 0) : Ends s .buildTree ((dropTree s).fail ⟨.emptyInput, 0, 0⟩)
  | tree (t : Vector Node 511) (h : s.symbolsPresent ≠ 0)
      (hm : Merging s.leaves t [2 * s.symbolsPresent - 2] (2 * s.symbolsPresent - 1))
      (hs : TreeShape t (2 * s.symbolsPresent - 1)) :
      Ends s .buildTree (setTree s t [2 * s.symbolsPresent - 2] (2 * s.symbolsPresent - 1)).complete
  | codes (hv : s.treeValid = true) (h : tooLong s.assigned = []) :
      Ends s .assignCodes (setCodes s s.assigned).complete
  | codesError (r : Raise) (hr : r.written = 0) : Ends s .assignCodes (s.fail r)
  | packed (l : List Byte) (p : Nat) (hf : s.dstFits = true) (hl : l.length ≤ s.dstCap.toNat) :
      Ends s .pack (setPacked s (s.sinkOf l) p).complete
  | packError (r : Raise) : Ends s .pack (s.fail r)
  | unpacked (l : List Byte) (hf : s.dstFits = true) (hl : l.length ≤ s.dstCap.toNat) :
      Ends s .unpack (setUnpacked s (s.sinkOf l)).complete
  | unpackError (r : Raise) : Ends s .unpack (s.fail r)
  | serialized (hf : s.dstFits = true) (hl : (s.header ++ s.sourceBytes).length ≤ s.dstCap.toNat) :
      Ends s .serialize (setSerialized s (s.sinkOf (s.header ++ s.sourceBytes))).complete
  | serializeError (r : Raise) : Ends s .serialize (s.fail r)
  | loaded (syms : List Byte) (vals : List Nat) (pad : Byte) (payload : List Byte)
      (h : ContainerLegal syms vals pad payload) (hs : s.sourceBytes = containerOf syms vals pad payload) :
      Ends s .deserialize (setContainer s syms.length (syms ++ vals.flatMap (bytesBE 8) ++ [pad])).complete
  | loadError (r : Raise) (hr : r.written = 0) : Ends s .deserialize ((dropCodes s).fail r)

/-- Every command ends in one of these states. -/
theorem exec_ends (i : Instr) (s : State) : ∃ t, exec i s = .next t ∧ Ends s i t := by
  cases i with
  | nop => exact ⟨_, rfl, .nop⟩
  | clear => exact ⟨_, rfl, .clear⟩
  | countFreq =>
    rcases execCountFreq_cases s with ⟨f, h⟩ | ⟨f, r, hr, h⟩
    · exact ⟨_, h, .counted f⟩
    · exact ⟨_, h, .countError f r hr⟩
  | buildTree =>
    by_cases h : s.symbolsPresent = 0
    · exact ⟨_, execBuildTree_empty h, .noTree h⟩
    · obtain ⟨t, hm, hs, he⟩ := execBuildTree_tree h
      exact ⟨_, he, .tree t h hm hs⟩
  | assignCodes =>
    rcases execAssignCodes_cases s with ⟨hv, hl, h⟩ | ⟨r, hr, h⟩
    · exact ⟨_, h, .codes hv hl⟩
    · exact ⟨_, h, .codesError r hr⟩
  | pack =>
    rcases execPack_cases s with ⟨l, p, hf, hl, h⟩ | ⟨r, h⟩
    · exact ⟨_, h, .packed l p hf hl⟩
    · exact ⟨_, h, .packError r⟩
  | unpack =>
    rcases execUnpack_cases s with ⟨l, hf, hl, h⟩ | ⟨r, h⟩
    · exact ⟨_, h, .unpacked l hf hl⟩
    · exact ⟨_, h, .unpackError r⟩
  | serialize =>
    rcases execSerialize_cases s with ⟨hf, hl, h⟩ | ⟨r, h⟩
    · exact ⟨_, h, .serialized hf hl⟩
    · exact ⟨_, h, .serializeError r⟩
  | deserialize =>
    rcases execDeserialize_cases s with ⟨syms, vals, pad, payload, hl, hs, h⟩ | ⟨r, hr, h⟩
    · exact ⟨_, h, .loaded syms vals pad payload hl hs⟩
    · exact ⟨_, h, .loadError r hr⟩

/-- The same, of a state already known to be the answer. -/
theorem ends_of_exec {i : Instr} {s t : State} (h : exec i s = .next t) : Ends s i t := by
  obtain ⟨u, hu, he⟩ := exec_ends i s
  rw [h] at hu
  cases hu
  exact he

/-- Whatever a command ends in, host memory stays canonical. -/
theorem Ends.mem_wf {i : Instr} {s t : State} (he : Ends s i t) (hm : Mem.wf s.mem = true) : Mem.wf t.mem = true := by
  cases he with
  | packError r | unpackError r | serializeError r => exact (State.fail_mem_spec hm).1
  | countError f r hr => simp [State.fail_mem_unwritten hr, hm]
  | codesError r hr => simp [State.fail_mem_unwritten hr, hm]
  | noTree h => simp [State.fail_mem_unwritten, hm]
  | loadError r hr => simp [State.fail_mem_unwritten hr, hm]
  | packed l p hf hl => exact (State.sinkOf_mem_spec hm hf hl).1
  | unpacked l hf hl => exact (State.sinkOf_mem_spec hm hf hl).1
  | serialized hf hl => exact (State.sinkOf_mem_spec hm hf hl).1
  | _ => simp [hm]

/-- The codes of 60_exceptions.md R201 are legal contents of ERRCODE, and none is 0. -/
theorem ErrorName.code_legal (n : ErrorName) : n.code ∈ legalErrCodes ∧ n.code ≠ 0 := by cases n <;> decide

/-- CodesLegal looks at five fields only. -/
theorem codesLegal_congr {s t : State} (h1 : t.codeLen = s.codeLen) (h2 : t.codeBits = s.codeBits)
    (h3 : t.codesValid = s.codesValid) (h4 : t.symCount = s.symCount) (h5 : t.maxLen = s.maxLen) (hc : CodesLegal s) :
    CodesLegal t := by
  have hco : t.codeOf = s.codeOf := by funext b; simp [State.codeOf, h1, h2]
  unfold CodesLegal PrefixFree State.codedSymbols at hc ⊢
  rw [h1, h2, h3, h4, h5, hco]
  exact hc

end Sys2Proof.Machine
end

