-- ==== Sys2Proof/Laws/Independence.lean ====
section
/-! SUPPORT. A command's run depends on no byte of memory outside its source range: two states that differ only in such bytes
run alike, read alike and write alike. -/

namespace Sys2Proof.Machine

/-- `u` is `s` but for bytes of memory outside the source range. -/
structure SameSource (s u : State) : Prop where
  rest : u = { s with mem := u.mem }
  bytes : ∀ j < s.srcLen.toNat, u.sourceByte j = s.sourceByte j

/-- Two runs that fail alike, or succeed with the same answer and the same bytes written. -/
def AlikeRuns {α : Type} (s u : State) (x y : Except Raise (α × Sink)) : Prop :=
  (∃ r, x = .error r ∧ y = .error r) ∨ ∃ a l, x = .ok (a, s.sinkOf l) ∧ y = .ok (a, u.sinkOf l)

/-- The same of runs that answer a destination alone. -/
def AlikeSinks (s u : State) (x y : Except Raise Sink) : Prop :=
  (∃ r, x = .error r ∧ y = .error r) ∨ ∃ l, x = .ok (s.sinkOf l) ∧ y = .ok (u.sinkOf l)

variable {s u : State}

theorem SameSource.readSrc (h : SameSource s u) {j w : Nat} (hj : j < s.srcLen.toNat) :
    Machine.readSrc u j w = Machine.readSrc s j w := by
  have hb := h.bytes j hj
  have hr := h.rest
  unfold Machine.readSrc State.admits
  unfold State.sourceByte at hb
  rw [hb, hr]

theorem SameSource.put (h : SameSource s u) (l : List Byte) (v : Byte) :
    AlikeSinks s u (Machine.put s (s.sinkOf l) v) (Machine.put u (u.sinkOf l) v) := by
  have ha : u.admits = s.admits := by funext a k; rw [h.rest]; rfl
  have hd : u.dstAddr = s.dstAddr := by rw [h.rest]
  rw [put_sinkOf, put_sinkOf, ha, hd]
  split
  · exact Or.inr ⟨_, rfl, rfl⟩
  · exact Or.inl ⟨_, rfl, rfl⟩

theorem SameSource.emit (h : SameSource s u) (l : List Byte) (v : Byte) :
    AlikeSinks s u (Machine.emit s (s.sinkOf l) v) (Machine.emit u (u.sinkOf l) v) := by
  have hc : u.dstCap = s.dstCap := by rw [h.rest]
  unfold Machine.emit
  rw [State.sinkOf_out, State.sinkOf_out, hc]
  split
  · exact Or.inl ⟨_, rfl, rfl⟩
  · exact h.put l v

/-! ### COUNT_FREQ -/

theorem SameSource.countLoop (h : SameSource s u) {n j : Nat} (hj : j + n ≤ s.srcLen.toNat) (f : Vector Word 256) :
    Machine.countLoop u n j f = Machine.countLoop s n j f := by
  induction n generalizing j f with
  | zero => rfl
  | succ n ih =>
    simp only [Machine.countLoop]
    rw [h.readSrc (by omega)]
    cases Machine.readSrc s j 0 with
    | error r => rfl
    | ok b =>
      simp only
      split
      · rfl
      · exact ih (by omega) _

/-! ### PACK -/

theorem SameSource.flushLoop (h : SameSource s u) (n : Nat) (q : Bits) (l : List Byte) :
    AlikeRuns s u (Machine.flushLoop s n q (s.sinkOf l)) (Machine.flushLoop u n q (u.sinkOf l)) := by
  induction n generalizing q l with
  | zero => exact Or.inr ⟨_, _, rfl, rfl⟩
  | succ n ih =>
    simp only [Machine.flushLoop]
    rcases h.emit l (BitVec.ofNat 8 (valOf (q.take 8))) with ⟨r, hx, hy⟩ | ⟨l', hx, hy⟩
    · rw [hx, hy]; exact Or.inl ⟨r, rfl, rfl⟩
    · rw [hx, hy]; exact ih _ _

theorem SameSource.codeOf (h : SameSource s u) : u.codeOf = s.codeOf := by
  funext b
  rw [h.rest]
  rfl

theorem SameSource.packLoop (h : SameSource s u) {n j : Nat} (hj : j + n ≤ s.srcLen.toNat) (q : Bits) (l : List Byte) :
    AlikeRuns s u (Machine.packLoop s n j q (s.sinkOf l)) (Machine.packLoop u n j q (u.sinkOf l)) := by
  have hl : u.codeLen = s.codeLen := by rw [h.rest]
  induction n generalizing j q l with
  | zero => exact Or.inr ⟨_, _, rfl, rfl⟩
  | succ n ih =>
    simp only [Machine.packLoop, State.sinkOf_out]
    rw [h.readSrc (by omega), hl, h.codeOf]
    cases Machine.readSrc s j l.length with
    | error r => exact Or.inl ⟨r, rfl, rfl⟩
    | ok b =>
      simp only
      by_cases hb : tabGet s.codeLen b = 0
      · rw [if_pos hb, if_pos hb]; exact Or.inl ⟨_, rfl, rfl⟩
      · rw [if_neg hb, if_neg hb]
        rcases h.flushLoop ((q ++ s.codeOf b).length / 8) (q ++ s.codeOf b) l with ⟨r, hx, hy⟩ | ⟨a, l', hx, hy⟩
        · rw [hx, hy]; exact Or.inl ⟨r, rfl, rfl⟩
        · rw [hx, hy]; exact ih (by omega) _ _

/-- The two runs of PACK: they fail alike, or write the same bytes and the same PAD. -/
theorem SameSource.packRun (h : SameSource s u) :
    (∃ r, Machine.packRun s = .error r ∧ Machine.packRun u = .error r) ∨
      ∃ l p, Machine.packRun s = .ok (s.sinkOf l, p) ∧ Machine.packRun u = .ok (u.sinkOf l, p) := by
  have hn : u.srcLen = s.srcLen := by rw [h.rest]
  unfold Machine.packRun
  rw [State.sink_eq, State.sink_eq, hn]
  rcases h.packLoop (n := s.srcLen.toNat) (j := 0) (by omega) [] [] with ⟨r, hx, hy⟩ | ⟨q, l, hx, hy⟩
  · rw [hx, hy]; exact Or.inl ⟨r, rfl, rfl⟩
  · rw [hx, hy]
    simp only [packTail]
    split
    · exact Or.inr ⟨_, _, rfl, rfl⟩
    · rcases h.emit l (BitVec.ofNat 8 (valOf (q ++ List.replicate (8 - q.length) false))) with ⟨r, hx, hy⟩ | ⟨l', hx, hy⟩
      · rw [hx, hy]; exact Or.inl ⟨r, rfl, rfl⟩
      · rw [hx, hy]; exact Or.inr ⟨_, _, rfl, rfl⟩

/-! ### UNPACK -/

theorem SameSource.inverse (h : SameSource s u) : u.inverse = s.inverse := by
  funext q
  rw [h.rest]
  rfl

theorem SameSource.unpackLoop (h : SameSource s u) {n i : Nat} (hi : i + n ≤ 8 * s.srcLen.toNat) (x : Byte) (q : Bits)
    (l : List Byte) :
    AlikeRuns s u (Machine.unpackLoop s n i x q (s.sinkOf l)) (Machine.unpackLoop u n i x q (u.sinkOf l)) := by
  have hm : u.maxLen = s.maxLen := by rw [h.rest]
  induction n generalizing i x q l with
  | zero => exact Or.inr ⟨_, _, rfl, rfl⟩
  | succ n ih =>
    have hd : dataByte u i x l.length = dataByte s i x l.length := by
      unfold dataByte
      rw [h.readSrc (by omega)]
    simp only [Machine.unpackLoop, State.sinkOf_out]
    rw [hd, hm, h.inverse]
    cases dataByte s i x l.length with
    | error r => exact Or.inl ⟨r, rfl, rfl⟩
    | ok y =>
      simp only
      cases s.inverse (q ++ [y.getLsbD (7 - i % 8)]) with
      | some b =>
        simp only
        rcases h.emit l b with ⟨r, hx, hy⟩ | ⟨l', hx, hy⟩
        · rw [hx, hy]; exact Or.inl ⟨r, rfl, rfl⟩
        · rw [hx, hy]; exact ih (by omega) _ _ _
      | none =>
        simp only
        by_cases hc : s.maxLen.toNat ≤ q.length + 1
        · rw [if_pos hc, if_pos hc]; exact Or.inl ⟨_, rfl, rfl⟩
        · rw [if_neg hc, if_neg hc]; exact ih (by omega) _ _ _

theorem SameSource.unpackRun (h : SameSource s u) :
    AlikeSinks s u (Machine.unpackRun s) (Machine.unpackRun u) := by
  have hn : u.srcLen = s.srcLen := by rw [h.rest]
  have hp : u.pad = s.pad := by rw [h.rest]
  have hb : u.dataBits = s.dataBits := by rw [h.rest]; rfl
  unfold Machine.unpackRun
  rw [State.sink_eq, State.sink_eq, hn, hp, hb]
  split
  · exact Or.inl ⟨_, rfl, rfl⟩
  · rcases h.unpackLoop (n := s.dataBits) (i := 0) (by unfold State.dataBits; omega) 0 [] [] with
      ⟨r, hx, hy⟩ | ⟨q, l, hx, hy⟩
    · rw [hx, hy]; exact Or.inl ⟨r, rfl, rfl⟩
    · rw [hx, hy]
      simp only
      split
      · exact Or.inr ⟨_, rfl, rfl⟩
      · exact Or.inl ⟨_, rfl, rfl⟩

/-! ### SERIALIZE -/

theorem SameSource.putAll (h : SameSource s u) (vs l : List Byte) :
    AlikeSinks s u (Machine.putAll s vs (s.sinkOf l)) (Machine.putAll u vs (u.sinkOf l)) := by
  induction vs generalizing l with
  | nil => exact Or.inr ⟨_, rfl, rfl⟩
  | cons v vs ih =>
    simp only [Machine.putAll]
    rcases h.put l v with ⟨r, hx, hy⟩ | ⟨l', hx, hy⟩
    · rw [hx, hy]; exact Or.inl ⟨r, rfl, rfl⟩
    · rw [hx, hy]; exact ih _

theorem SameSource.copyLoop (h : SameSource s u) {n j : Nat} (hj : j + n ≤ s.srcLen.toNat) (l : List Byte) :
    AlikeSinks s u (Machine.copyLoop s n j (s.sinkOf l)) (Machine.copyLoop u n j (u.sinkOf l)) := by
  induction n generalizing j l with
  | zero => exact Or.inr ⟨_, rfl, rfl⟩
  | succ n ih =>
    simp only [Machine.copyLoop, State.sinkOf_out]
    rw [h.readSrc (by omega)]
    cases Machine.readSrc s j l.length with
    | error r => exact Or.inl ⟨r, rfl, rfl⟩
    | ok v =>
      simp only
      rcases h.put l v with ⟨r, hx, hy⟩ | ⟨l', hx, hy⟩
      · rw [hx, hy]; exact Or.inl ⟨r, rfl, rfl⟩
      · rw [hx, hy]; exact ih (by omega) _

theorem SameSource.serializeRun (h : SameSource s u) :
    AlikeSinks s u (Machine.serializeRun s) (Machine.serializeRun u) := by
  have hn : u.srcLen = s.srcLen := by rw [h.rest]
  have hc : u.dstCap = s.dstCap := by rw [h.rest]
  have hz : u.containerSize = s.containerSize := by rw [h.rest]; rfl
  have hh : u.header = s.header := by rw [h.rest]; rfl
  unfold Machine.serializeRun
  rw [State.sink_eq, State.sink_eq, hn, hc, hz, hh]
  split
  · exact Or.inl ⟨_, rfl, rfl⟩
  · rcases h.putAll s.header [] with ⟨r, hx, hy⟩ | ⟨l, hx, hy⟩
    · rw [hx, hy]; exact Or.inl ⟨r, rfl, rfl⟩
    · rw [hx, hy]; exact h.copyLoop (by omega) _

/-! ### DESERIALIZE -/

theorem SameSource.readSpan (h : SameSource s u) {n o : Nat} (ho : o + n ≤ s.srcLen.toNat) :
    Machine.readSpan u n o = Machine.readSpan s n o := by
  induction n generalizing o with
  | zero => rfl
  | succ n ih =>
    simp only [Machine.readSpan]
    rw [h.readSrc (by omega), ih (by omega)]

theorem SameSource.parseContainer (h : SameSource s u) : Machine.parseContainer u = Machine.parseContainer s := by
  have hn : u.srcLen = s.srcLen := by rw [h.rest]
  have hf : u.srcFits = s.srcFits := by rw [h.rest]; rfl
  unfold Machine.parseContainer
  rw [hn, hf]
  by_cases hfit : s.srcFits = true
  · rw [if_pos hfit, if_pos hfit]
    by_cases h4 : s.srcLen.toNat < 4
    · rw [if_pos h4, if_pos h4]
    · rw [if_neg h4, if_neg h4, h.readSpan (by omega)]
      cases Machine.readSpan s 4 0 with
      | error r => rfl
      | ok l =>
        simp only
        unfold parseTable
        rw [hn]
        by_cases h0 : valBE l = 0
        · rw [if_pos h0, if_pos h0]
        · rw [if_neg h0, if_neg h0]
          by_cases h1 : Config.alphabet < valBE l
          · rw [if_pos h1, if_pos h1]
          · rw [if_neg h1, if_neg h1]
            by_cases h2 : s.srcLen.toNat < 5 + 9 * valBE l
            · rw [if_pos h2, if_pos h2]
            · rw [if_neg h2, if_neg h2, h.readSpan (by omega)]
  · rw [if_neg hfit, if_neg hfit]

/-! ### What is written -/

/-- An error writes alike: at every address neither memory changes, or both then hold the same byte. -/
theorem SameSource.fail (h : SameSource s u) (hm : Mem.wf s.mem = true) (hu : Mem.wf u.mem = true) (r : Raise) :
    u.fail r = { s.fail r with mem := (u.fail r).mem } ∧
      ∀ a, (Mem.read (s.fail r).mem a = Mem.read s.mem a ∧ Mem.read (u.fail r).mem a = Mem.read u.mem a) ∨
        Mem.read (u.fail r).mem a = Mem.read (s.fail r).mem a := by
  have hr := h.rest
  refine ⟨?_, fun a => ?_⟩
  · rw [hr]; unfold State.fail; split <;> rfl
  · by_cases hw : r.written = 0
    · rw [State.fail_mem_unwritten hw, State.fail_mem_unwritten hw]
      exact Or.inl ⟨rfl, rfl⟩
    · rw [State.fail_mem_written hw, State.fail_mem_written hw]
      have e1 : u.draws = s.draws := by rw [hr]
      have e2 : u.dstAddr = s.dstAddr := by rw [hr]
      have e3 : u.dstSpan = s.dstSpan := by rw [hr]; rfl
      simp only [State.scrambleDst, e1, e2, e3]
      rw [(Mem.scramble_spec hm s.dstSpan_fits).2 a, (Mem.scramble_spec hu s.dstSpan_fits).2 a]
      split
      · exact Or.inr rfl
      · exact Or.inl ⟨rfl, rfl⟩

/-- The same of bytes written. -/
theorem SameSource.written (h : SameSource s u) (hm : Mem.wf s.mem = true) (hu : Mem.wf u.mem = true) {l : List Byte}
    (hl : s.dstAddr.toNat + l.length ≤ Config.memSize) (a : Nat) :
    (Mem.read (s.sinkOf l).mem a = Mem.read s.mem a ∧ Mem.read (u.sinkOf l).mem a = Mem.read u.mem a) ∨
      Mem.read (u.sinkOf l).mem a = Mem.read (s.sinkOf l).mem a := by
  have e : u.dstAddr = s.dstAddr := by rw [h.rest]
  simp only [State.sinkOf, e]
  rw [(Mem.writeAll_spec hm hl).2, (Mem.writeAll_spec hu hl).2]
  by_cases h1 : s.dstAddr.toNat ≤ a
  · simp only [if_pos h1]
    by_cases h2 : a - s.dstAddr.toNat < l.length
    · right; simp [h2]
    · left; rw [List.getElem?_eq_none (by omega)]; simp
  · simp [h1]

end Sys2Proof.Machine
end

