-- ==== Sys2Proof/Laws/Kraft.lean ====
section
/-! SUPPORT. In a tree of the right shape every node has one path from the root, so the codes its leaves get are complete: the
Kraft sum of the codes below a node is the share of the node's own depth (40_table_build.md R122). -/

namespace Sys2Proof.Machine

variable {t : Vector Node 511} {m : Nat}

/-! ### Paths -/

/-- The index of the node a path from node `i` ends at. -/
def pathEnd (t : Vector Node 511) : Nat → Bits → Option Nat
  | i, [] => some i
  | i, d :: ds =>
    match nodeAt t i with
    | .leaf _ _ => none
    | .internal _ l r => pathEnd t (if d then r.toNat else l.toNat) ds

theorem pathEnd_leaf {i : Nat} {b : Byte} {f : BitVec 40} (h : nodeAt t i = .leaf b f) (d : Bool) (q : Bits) :
    pathEnd t i (d :: q) = none := by simp only [pathEnd, h]

theorem pathEnd_internal {i : Nat} {f : BitVec 40} {l r : BitVec 9} (h : nodeAt t i = .internal f l r) (d : Bool)
    (q : Bits) : pathEnd t i (d :: q) = pathEnd t (if d then r.toNat else l.toNat) q := by simp only [pathEnd, h]

theorem follow_eq_pathEnd (i : Nat) (q : Bits) : follow t i q = (pathEnd t i q).map (nodeAt t) := by
  induction q generalizing i with
  | nil => rfl
  | cons d q ih =>
    cases h : nodeAt t i with
    | leaf b f => rw [follow_leaf h, pathEnd_leaf h]; rfl
    | internal f l r => rw [follow_internal h, pathEnd_internal h, ih]

theorem pathEnd_append (i : Nat) (q r : Bits) : pathEnd t i (q ++ r) = (pathEnd t i q).bind fun j => pathEnd t j r := by
  induction q generalizing i with
  | nil => rfl
  | cons d q ih =>
    cases h : nodeAt t i with
    | leaf b f => rw [List.cons_append, pathEnd_leaf h, pathEnd_leaf h]; rfl
    | internal f l r => rw [List.cons_append, pathEnd_internal h, pathEnd_internal h, ih]

/-- A path leads to an earlier node, unless it is empty. -/
theorem pathEnd_lt (hc : childrenEarlier t m) {i j : Nat} (hi : i < m) {q : Bits} (h : pathEnd t i q = some j) :
    j + q.length ≤ i := by
  induction q generalizing i with
  | nil => cases h; simp
  | cons d q ih =>
    cases hn : nodeAt t i with
    | leaf b f => rw [pathEnd_leaf hn] at h; cases h
    | internal f l r =>
      rw [pathEnd_internal hn] at h
      obtain ⟨h1, h2⟩ := hc i hi f l r hn
      have hlt : (if d then r.toNat else l.toNat) < i := by cases d <;> simp <;> assumption
      have := ih (by omega) h
      simp only [List.length_cons]
      omega

/-- The last step of a path that is not empty. -/
theorem pathEnd_concat {i j : Nat} {q : Bits} {d : Bool} (h : pathEnd t i (q ++ [d]) = some j) :
    ∃ k f l r, pathEnd t i q = some k ∧ nodeAt t k = .internal f l r ∧ (if d then r.toNat else l.toNat) = j := by
  rw [pathEnd_append] at h
  cases hk : pathEnd t i q with
  | none => rw [hk] at h; cases h
  | some k =>
    rw [hk, Option.bind_some] at h
    cases hn : nodeAt t k with
    | leaf b f => rw [pathEnd_leaf hn] at h; cases h
    | internal f l r =>
      rw [pathEnd_internal hn] at h
      cases h
      exact ⟨k, f, l, r, rfl, hn, rfl⟩

/-- In a tree two paths from one node to one node are the same. -/
theorem TreeShape.path_unique (h : TreeShape t m) {i j : Nat} (hi : i < m) {q r : Bits} (hq : pathEnd t i q = some j)
    (hr : pathEnd t i r = some j) : q = r := by
  have hc := h.childrenEarlier
  induction q using List.reverseRecOn generalizing r j with
  | nil =>
    have h1 := pathEnd_lt hc hi hr
    cases hq
    exact (List.length_eq_zero_iff.1 (by omega)).symm
  | append_singleton q d ih =>
    have h1 := pathEnd_lt hc hi hq
    simp only [List.length_append, List.length_singleton] at h1
    rcases List.eq_nil_or_concat r with rfl | ⟨r', e, rfl⟩
    · cases hr; omega
    · rw [List.concat_eq_append] at hr ⊢
      obtain ⟨k, f, l, r, hk, hn, he⟩ := pathEnd_concat hq
      obtain ⟨k', f', l', s', hk', hn', he'⟩ := pathEnd_concat hr
      have hkm := pathEnd_lt hc hi hk
      have hkm' := pathEnd_lt hc hi hk'
      obtain ⟨k0, -, -, huniq⟩ := h.2.2.2.1 j (by omega)
      have c1 : isChild t k j = true := by
        unfold isChild
        rw [hn]
        cases d <;> simp at he <;> simp [he]
      have c2 : isChild t k' j = true := by
        unfold isChild
        rw [hn']
        cases e <;> simp at he' <;> simp [he']
      have hkk : k = k' := (huniq k (by omega) c1).trans (huniq k' (by omega) c2).symm
      subst hkk
      rw [hn] at hn'
      cases hn'
      have hleg := h.2.2.1 k (by omega)
      unfold nodeLegal at hleg
      rw [hn] at hleg
      have hne : l.toNat ≠ r.toNat := fun e => hleg.2.2.1 (BitVec.eq_of_toNat_eq e)
      have hde : d = e := by
        cases d <;> cases e <;> simp at he he' <;> first | rfl | omega
      rw [hde, ih hk hk']

/-- In a tree two paths from one node to leaves of one symbol are the same. -/
theorem TreeShape.leaf_path_unique (h : TreeShape t m) {i : Nat} (hi : i < m) {q r : Bits} {b : Byte} {f g : BitVec 40}
    (hq : follow t i q = some (.leaf b f)) (hr : follow t i r = some (.leaf b g)) : q = r := by
  rw [follow_eq_pathEnd, Option.map_eq_some_iff] at hq hr
  obtain ⟨j, hj, hjn⟩ := hq
  obtain ⟨k, hk, hkn⟩ := hr
  have h1 := pathEnd_lt h.childrenEarlier hi hj
  have h2 := pathEnd_lt h.childrenEarlier hi hk
  have := h.2.2.2.2 j (by omega) k (by omega) b f g hjn hkn
  subst this
  exact h.path_unique hi hj hk

/-- Every node is at the end of a path from the root. -/
theorem TreeShape.reached (h : TreeShape t m) {j : Nat} (hj : j < m) : ∃ q, pathEnd t (m - 1) q = some j := by
  induction hd : m - 1 - j using Nat.strong_induction_on generalizing j with
  | _ n ih =>
    by_cases hr : j = m - 1
    · exact ⟨[], by rw [hr]; rfl⟩
    · obtain ⟨k, hk, hch, -⟩ := h.2.2.2.1 j (by omega)
      have hch' := hch
      unfold isChild at hch
      cases hn : nodeAt t k with
      | leaf b f => rw [hn] at hch; cases hch
      | internal f l r =>
        rw [hn] at hch
        have hlt := h.childrenEarlier k hk f l r hn
        simp only [Bool.or_eq_true, beq_iff_eq] at hch
        obtain ⟨q, hq⟩ := ih (m - 1 - k) (by omega) hk rfl
        rcases hch with e | e
        · refine ⟨q ++ [false], ?_⟩
          rw [pathEnd_append, hq, Option.bind_some, pathEnd_internal hn]
          simp [pathEnd, e]
        · refine ⟨q ++ [true], ?_⟩
          rw [pathEnd_append, hq, Option.bind_some, pathEnd_internal hn]
          simp [pathEnd, e]

/-! ### The Kraft sum -/

/-- The share of a code: `2^(63 - length)`, nothing for a symbol without a code. -/
def codeShare : Option Bits → Nat
  | none => 0
  | some q => 2 ^ (63 - q.length)

/-- The sum of the shares over all symbols. -/
def shareSum (p : Vector (Option Bits) 256) : Nat := (allSymbols.map fun b => codeShare (tabGet p b)).sum

/-- A symbol that gets its first code adds that code's share. -/
theorem shareSum_tabSet {p : Vector (Option Bits) 256} {b : Byte} {q : Bits} (h : tabGet p b = none) :
    shareSum (tabSet p b (some q)) = shareSum p + 2 ^ (63 - q.length) := by
  have key : ∀ l : List Byte, l.Nodup → (l.map fun c => codeShare (tabGet (tabSet p b (some q)) c)).sum =
      (l.map fun c => codeShare (tabGet p c)).sum + if b ∈ l then 2 ^ (63 - q.length) else 0 := by
    intro l hl
    induction l with
    | nil => simp
    | cons c l ih =>
      simp only [List.nodup_cons] at hl
      simp only [List.map_cons, List.sum_cons, ih hl.2, List.mem_cons]
      by_cases hc : b = c
      · subst hc
        simp [h, codeShare, hl.1]
        omega
      · simp only [tabGet_tabSet_other (Ne.symm hc), hc, false_or]
        omega
  have := key allSymbols allSymbols_nodup
  rwa [if_pos (mem_allSymbols b)] at this

/-- The walk below a node shares out the share of the node's own path. -/
theorem TreeShape.walk_shares (h : TreeShape t m) {n i : Nat} {c : Bits} {p : Vector (Option Bits) 256} (hi : i < n)
    (him : i < m) (hlen : ∀ q b f, follow t i q = some (.leaf b f) → (c ++ q).length ≤ 63)
    (hp : ∀ q b f, follow t i q = some (.leaf b f) → tabGet p b = none) :
    shareSum (walk t n i c p) = shareSum p + 2 ^ (63 - c.length) := by
  induction n generalizing i c p with
  | zero => omega
  | succ n ih =>
    simp only [walk]
    cases hn : nodeAt t i with
    | leaf b f =>
      simp only
      exact shareSum_tabSet (hp [] b f (by rw [follow_nil, hn]))
    | internal f l r =>
      simp only
      obtain ⟨h1, h2⟩ := h.childrenEarlier i him f l r hn
      have hfl : ∀ q, follow t i (false :: q) = follow t l.toNat q := fun q => by rw [follow_internal hn]; simp
      have hfr : ∀ q, follow t i (true :: q) = follow t r.toNat q := fun q => by rw [follow_internal hn]; simp
      obtain ⟨q0, b0, f0, hq0⟩ := follow_exists h.childrenEarlier (i := l.toNat) (by omega)
      have hc63 := hlen (false :: q0) b0 f0 (by rw [hfl]; exact hq0)
      simp only [List.length_append, List.length_cons] at hc63
      rw [ih (c := c ++ [true]) (by omega) (by omega) (fun q b g hq => ?_) (fun q b g hq => ?_),
        ih (c := c ++ [false]) (by omega) (by omega) (fun q b g hq => ?_) (fun q b g hq => ?_)]
      · simp only [List.length_append, List.length_singleton]
        rw [Nat.add_assoc, ← Nat.two_mul, ← pow_succ']
        congr 2
        omega
      · have := hlen (false :: q) b g (by rw [hfl]; exact hq)
        simpa using this
      · exact hp (false :: q) b g (by rw [hfl]; exact hq)
      · have := hlen (true :: q) b g (by rw [hfr]; exact hq)
        simpa using this
      · cases hw : tabGet (walk t n l.toNat (c ++ [false]) p) b with
        | none => rfl
        | some u =>
          exfalso
          rcases walk_sound hw with hpb | ⟨d, g', -, hd⟩
          · rw [hp (true :: q) b g (by rw [hfr]; exact hq)] at hpb
            cases hpb
          · have := h.leaf_path_unique him (q := false :: d) (r := true :: q) (by rw [hfl]; exact hd)
              (by rw [hfr]; exact hq)
            cases this

theorem shareSum_noCodes : shareSum noCodes = 0 := by
  unfold shareSum
  refine List.sum_eq_zero fun x hx => ?_
  obtain ⟨b, -, rfl⟩ := List.mem_map.1 hx
  rw [tabGet_noCodes]
  rfl

/-- The Kraft sum of the codes of a tree with no leaf below level 63: complete under an internal root, one half for a leaf. -/
theorem State.assigned_shares {s : State} (h : TreeShape s.node m) (hr : s.root.toNat = m - 1)
    (hs : tooLong s.assigned = []) :
    shareSum s.assigned = if (nodeAt s.node s.root.toNat).rank = 0 then 2 ^ 62 else 2 ^ 63 := by
  have hm := h.1
  have hm2 := h.2.1
  have hrm : s.root.toNat < m := by omega
  have hle := tooLong_nil hs
  have hlen : ∀ q b f, follow s.node s.root.toNat q = some (.leaf b f) → q.length ≤ 63 := by
    intro q b f hq
    have hsome := State.assigned_complete h.childrenEarlier hrm hm2 hq
    obtain ⟨u, hu⟩ := Option.isSome_iff_exists.1 hsome
    have hub := hle b
    simp only [codeIn, hu, Option.getD_some] at hub
    rcases (State.assigned_sound hu).2 with ⟨g, hg, -⟩ | ⟨g, hg⟩
    · have := h.leaf_path_unique hrm hq (r := []) (by rw [follow_nil, hg])
      simp [this]
    · rw [h.leaf_path_unique hrm hq hg]
      exact hub
  unfold State.assigned
  cases hn : nodeAt s.node s.root.toNat with
  | leaf b f =>
    simp only
    rw [shareSum_tabSet (tabGet_noCodes b), shareSum_noCodes]
    rfl
  | internal f l r =>
    simp only
    rw [h.walk_shares (by show s.root.toNat < 511; omega) hrm (by simpa using hlen) (fun _ b _ _ => tabGet_noCodes b),
      shareSum_noCodes]
    rfl

/-- A symbol has a code exactly when some node is its leaf, so there are as many codes as leaves. -/
theorem State.assigned_count {s : State} (h : TreeShape s.node m) (hr : s.root.toNat = m - 1) :
    (allSymbols.countP fun b => (tabGet s.assigned b).isSome) =
      (List.range m).countP fun i => (nodeAt s.node i).rank == 0 := by
  have hm := h.1
  have hrm : s.root.toNat < m := by omega
  have hiff : ∀ b, (tabGet s.assigned b).isSome = true ↔ ∃ i < m, ∃ f, nodeAt s.node i = .leaf b f := by
    intro b
    constructor
    · intro hb
      obtain ⟨q, hq⟩ := Option.isSome_iff_exists.1 hb
      rcases (State.assigned_sound hq).2 with ⟨f, hf, -⟩ | ⟨f, hf⟩
      · exact ⟨_, hrm, f, hf⟩
      · rw [follow_eq_pathEnd, Option.map_eq_some_iff] at hf
        obtain ⟨j, hj, hjn⟩ := hf
        have := pathEnd_lt h.childrenEarlier hrm hj
        exact ⟨j, by omega, f, hjn⟩
    · rintro ⟨i, hi, f, hf⟩
      obtain ⟨q, hq⟩ := h.reached hi
      rw [← hr] at hq
      exact State.assigned_complete h.childrenEarlier hrm h.2.1 (d := q) (f := f) (by
        rw [follow_eq_pathEnd, hq]; simp [hf])
  have hleaf : ∀ i, (nodeAt s.node i).rank = 0 → ∃ b f, nodeAt s.node i = .leaf b f := by
    intro i hi
    cases hn : nodeAt s.node i with
    | leaf b f => exact ⟨b, f, rfl⟩
    | internal f l r => rw [hn] at hi; cases hi
  let symOf : Nat → Byte := fun i => match nodeAt s.node i with
    | .leaf b _ => b
    | .internal _ _ _ => 0
  have hperm : (((List.range m).filter fun i => (nodeAt s.node i).rank == 0).map symOf).Perm
      (allSymbols.filter fun b => (tabGet s.assigned b).isSome) := by
    refine (List.perm_ext_iff_of_nodup (List.Nodup.map_on (fun i hi j hj hij => ?_) (List.Nodup.filter _ List.nodup_range))
      (List.Nodup.filter _ allSymbols_nodup)).2 fun b => ?_
    · simp only [List.mem_filter, List.mem_range, beq_iff_eq] at hi hj
      obtain ⟨b, f, hb⟩ := hleaf i hi.2
      obtain ⟨c, g, hc⟩ := hleaf j hj.2
      simp only [symOf, hb, hc] at hij
      subst hij
      exact h.2.2.2.2 i hi.1 j hj.1 b f g hb hc
    · simp only [List.mem_map, List.mem_filter, List.mem_range, beq_iff_eq, mem_allSymbols, true_and]
      rw [hiff b]
      constructor
      · rintro ⟨i, ⟨hi, hri⟩, rfl⟩
        obtain ⟨b, f, hb⟩ := hleaf i hri
        exact ⟨i, hi, f, by simp only [symOf, hb]⟩
      · rintro ⟨i, hi, f, hf⟩
        exact ⟨i, ⟨hi, by rw [hf]; rfl⟩, by simp only [symOf, hf]⟩
  rw [List.countP_eq_length_filter, List.countP_eq_length_filter, ← hperm.length_eq, List.length_map]

end Sys2Proof.Machine
end

