-- ==== Sys2Proof/Laws/PerInstr.lean ====
section
/-! SUPPORT. What holds of every command as syntax, one lemma per constructor (30_encoding.md R80, R81, R84). -/

namespace Sys2Proof.Laws

/-- The command's word is well formed, has its opcode in bits [7:0] and nothing above, stands in the opcode table as the one
row of the command, and is read back from the table's 32 bits. -/
def Encoding.Statement (i : Instr) : Prop :=
  i.wellFormed = true ∧ wordWellFormed (encode i) = true ∧ (encode i).extractLsb' 0 8 = opcode i ∧
    (encode i).extractLsb' 8 24 = 0 ∧
    (opcodeTable.filter fun r => encode i &&& r.mask == r.pattern) = [⟨encode i, 0xFFFFFFFF, i⟩] ∧
    decodeTableWord 32 (encode i).toNat = some i

theorem Encoding.nop : Encoding.Statement .nop := by unfold Encoding.Statement; decide
theorem Encoding.clear : Encoding.Statement .clear := by unfold Encoding.Statement; decide
theorem Encoding.countFreq : Encoding.Statement .countFreq := by unfold Encoding.Statement; decide
theorem Encoding.buildTree : Encoding.Statement .buildTree := by unfold Encoding.Statement; decide
theorem Encoding.assignCodes : Encoding.Statement .assignCodes := by unfold Encoding.Statement; decide
theorem Encoding.pack : Encoding.Statement .pack := by unfold Encoding.Statement; decide
theorem Encoding.unpack : Encoding.Statement .unpack := by unfold Encoding.Statement; decide
theorem Encoding.serialize : Encoding.Statement .serialize := by unfold Encoding.Statement; decide
theorem Encoding.deserialize : Encoding.Statement .deserialize := by unfold Encoding.Statement; decide

end Sys2Proof.Laws
end

