-- ==== Sys2Proof/Laws/Steps.lean ====
section
/-! SUPPORT. Every state a step can end in, as one closed list: what the block's turn and the host's turn can do. -/

namespace Sys2Proof.Machine

/-- `t` is a state in which one step from `s` can end. -/
inductive StepEnds (s : State) : State → Prop
  | command (i : Instr) (t : State) (hb : s.busy = true) (he : Ends s i t) : StepEnds s t
  | illegal (hb : s.busy = true) : StepEnds s (illegalCommand s)
  | idle : StepEnds s s
  | readReg (rest : List HostOp) (r : WindowReg) : StepEnds s (readWindow (s.popHost rest) r)
  | writeReg (rest : List HostOp) (r : WindowReg) (v : Word) : StepEnds s (writeWindow (s.popHost rest) r v)
  | wait (rest : List HostOp) : StepEnds s (waitStep s rest)
  | readMem (rest : List HostOp) (a : Nat) : StepEnds s (readHostMem (s.popHost rest) a)
  | writeMem (rest : List HostOp) (a : Nat) (v : Byte) (ha : a < Config.memSize) :
      StepEnds s (writeHostMem (s.popHost rest) a v)
  | reset (rest : List HostOp) : StepEnds s (resetEvent (s.popHost rest))

theorem stepEnds_of_step {s t : State} (h : step s = .next t) : StepEnds s t := by
  unfold step at h
  split at h
  · next hb =>
    have hb : s.busy = true := by
      unfold State.blockTurn at hb
      exact (Bool.and_eq_true_iff.1 hb).1
    split at h
    · exact .command _ t hb (ends_of_exec h)
    · cases h
      exact .illegal hb
  · unfold hostTurn at h
    split at h
    · cases h
      exact .idle
    · next op rest _ =>
      cases op with
      | readReg off bytes =>
        simp only [hostStep, guardAccess] at h
        split at h
        · split at h <;> cases h
          exact .readReg rest _
        · cases h
      | writeReg off bytes v =>
        simp only [hostStep, guardAccess] at h
        split at h
        · split at h <;> cases h
          exact .writeReg rest _ v
        · cases h
      | waitIdle => cases h; exact .wait rest
      | readMem a =>
        simp only [hostStep] at h
        split at h <;> cases h
        exact .readMem rest a
      | writeMem a v =>
        simp only [hostStep] at h
        split at h
        · next ha =>
          split at h <;> cases h
          exact .writeMem rest a v ha
        · cases h
      | resetBlock => cases h; exact .reset rest

/-- A host write to a register changes only the fields it can reach; the rest of the state is as it was. -/
theorem writeWindow_keeps (s : State) (r : WindowReg) (v : Word) :
    (writeWindow s r v).mem = s.mem ∧ (writeWindow s r v).denied = s.denied ∧ (writeWindow s r v).node = s.node ∧
      (writeWindow s r v).codeLen = s.codeLen ∧ (writeWindow s r v).codeBits = s.codeBits ∧
      (writeWindow s r v).treeValid = s.treeValid ∧ (writeWindow s r v).codesValid = s.codesValid ∧
      (writeWindow s r v).root = s.root ∧ (writeWindow s r v).nodeCount = s.nodeCount ∧
      (writeWindow s r v).symCount = s.symCount ∧ (writeWindow s r v).maxLen = s.maxLen ∧
      (writeWindow s r v).outLen = s.outLen ∧ (writeWindow s r v).payloadAddr = s.payloadAddr ∧
      (writeWindow s r v).payloadLen = s.payloadLen ∧ (writeWindow s r v).draws = s.draws := by
  unfold writeWindow writeBusy writeIdle
  split <;> split <;> exact ⟨rfl, rfl, rfl, rfl, rfl, rfl, rfl, rfl, rfl, rfl, rfl, rfl, rfl, rfl, rfl⟩

/-- A host read of the window changes nothing but what the host gets, the count of draws, and, where it shows BUSY = 0, what
is unread and guarded. -/
theorem readWindow_eq (s : State) (r : WindowReg) :
    (∃ v d, readWindow s r = { s with hostRead := v, draws := d }) ∨
      ∃ v, readWindow s r = { s.seeStatus with hostRead := v } := by
  unfold readWindow readExact
  split
  · split
    · exact .inr ⟨_, rfl⟩
    · exact .inl ⟨_, s.draws, rfl⟩
  · exact .inl ⟨_, _, rfl⟩

/-- The same, without what becomes unread and guarded. -/
theorem readWindow_keeps (s : State) (r : WindowReg) :
    ∃ v d u g, readWindow s r = { s with hostRead := v, draws := d, unread := u, guarded := g } := by
  unfold readWindow readExact State.seeStatus
  split
  · split
    · split
      · exact ⟨_, _, _, _, rfl⟩
      · exact ⟨_, _, _, _, rfl⟩
    · exact ⟨_, s.draws, s.unread, s.guarded, rfl⟩
  · exact ⟨_, _, s.unread, s.guarded, rfl⟩

/-- A host read of memory changes nothing but what the host gets and the count of draws. -/
theorem readHostMem_eq (s : State) (a : Nat) :
    readHostMem s a = { s with hostRead := (readHostMem s a).hostRead, draws := (readHostMem s a).draws } := by
  unfold readHostMem
  split <;> rfl

/-- A round of `wait` is a read of STATUS that also changes the host's queue and the count of its steps. -/
theorem waitStep_eq (s : State) (rest : List HostOp) :
    waitStep s rest =
      { s.seeStatus with
        hostRead := s.statusWord, hostOps := (waitStep s rest).hostOps, holds := s.holds - 1 } := by
  unfold waitStep
  split
  · next h => rw [State.seeStatus_busy_eq h]
  · next h =>
    have h : s.busy = false := by simpa using h
    rw [State.seeStatus_idle_eq h, State.seeStatus_idle_eq (show (s.popHost rest).busy = false from h)]
    rfl

/-- The same, without what becomes unread and guarded. -/
theorem waitStep_keeps (s : State) (rest : List HostOp) :
    ∃ v q n u g, waitStep s rest = { s with hostRead := v, hostOps := q, holds := n, unread := u, guarded := g } := by
  unfold waitStep
  split
  · exact ⟨_, s.hostOps, _, s.unread, s.guarded, rfl⟩
  · next h =>
    rw [State.seeStatus_idle_eq (s := s.popHost rest) (by simpa using h)]
    exact ⟨_, _, _, _, _, rfl⟩

/-- The memory after the reset event is canonical, and unchanged outside the destination range of a running command. -/
theorem resetEvent_mem {s : State} (hm : Mem.wf s.mem = true) :
    Mem.wf (resetEvent s).mem = true ∧ ∀ a, s.inDst a = false → Mem.read (resetEvent s).mem a = Mem.read s.mem a := by
  show Mem.wf (afterAbandon s).mem = true ∧ ∀ a, s.inDst a = false → Mem.read (afterAbandon s).mem a = Mem.read s.mem a
  unfold afterAbandon
  split
  · exact State.scrambleDst_spec hm
  · exact ⟨hm, fun _ _ => rfl⟩

end Sys2Proof.Machine
end

