-- ==== Sys2Proof/Laws/Window.lean ====
section
/-! SUPPORT. Laws of the register window: the bits of the word STATUS reads, and the register at an offset past the named ones. -/

namespace Sys2Proof.Machine

theorem flagBit_getLsbD (b : Bool) (i j : Nat) (h : i < 32) : (flagBit b i).getLsbD j = (b && decide (j = i)) := by
  cases b
  · simp [flagBit]
  · simp only [flagBit, if_true, BitVec.getLsbD_ofNat, Nat.testBit_two_pow, Bool.true_and]
    by_cases hj : j = i
    · subst hj; simp [h]
    · simp [hj, Ne.symm hj]

/-- The word STATUS reads, bit by bit (10_state.md R25). -/
theorem State.statusWord_getLsbD (s : State) (j : Nat) :
    s.statusWord.getLsbD j =
      (s.busy && decide (j = 0) || s.done && decide (j = 1) || s.err && decide (j = 2) || s.dropped && decide (j = 3) ||
        s.treeValid && decide (j = 4) || s.codesValid && decide (j = 5)) := by
  simp [State.statusWord, flagBit_getLsbD]

/-- The part of the map past the named registers (10_state.md R52). -/
theorem windowReg_high {off : Nat} (h : 0x048 ≤ off) :
    windowReg off =
      if off < 0x400 then .unmapped
      else if off < 0x800 then .freq (entryOf 0x400 off)
      else if off < 0xC00 then .codeLen (entryOf 0x800 off)
      else if off < 0x1000 then .codeLo (entryOf 0xC00 off)
      else if off < 0x1400 then .codeHi (entryOf 0x1000 off)
      else if off < 0x2000 then .unmapped
      else if off < 0x3FF0 then nodeWordOf off
      else .unmapped := by
  unfold windowReg
  split <;> first | omega | rfl

end Sys2Proof.Machine
end

