-- ==== Sys2Proof/Tests/Slice0.lean ====
section
/-! SUPPORT. Tests of one step each, their expected results from spec/95_test_vectors.md (the vector is named beside each),
and for every statement with hypotheses a concrete witness that meets them together. -/

namespace Sys2Proof.Machine.Tests

-- one theorem at a time: many kernel evaluations at once would each take a thread
set_option Elab.async false

/-! ### Small states -/

/-- The state a command leaves; the state itself where it leaves none. -/
def ran (i : Instr) (s : State) : State :=
  match exec i s with
  | .next t => t
  | .fault _ => s
  | .refused _ => s

theorem exec_ran (i : Instr) (s : State) : exec i s = .next (ran i s) := by
  obtain ⟨t, h, -⟩ := exec_ends i s
  unfold ran
  rw [h]

/-- The state one step leaves. -/
def stepped (s : State) : State :=
  match step s with
  | .next t => t
  | .fault _ => s
  | .refused _ => s

/-- Bytes put into memory at `src` as the source range, and a destination range. -/
def load (s : State) (src : Nat) (bytes : List Byte) (dst cap : Nat) : State :=
  { s with
    mem := Mem.writeAll s.mem src bytes, srcAddr := BitVec.ofNat 32 src, srcLen := BitVec.ofNat 32 bytes.length,
    dstAddr := BitVec.ofNat 32 dst, dstCap := BitVec.ofNat 32 cap }

/-- The `n` bytes of memory from `a` on. -/
def memAt (s : State) (a n : Nat) : List Byte := (List.range n).map fun i => Mem.read s.mem (a + i)

/-- A state with the code table of some stored values. -/
def coded (syms : List Byte) (vals : List Nat) (pad : Byte) : State :=
  setContainer State.reset syms.length (syms ++ vals.flatMap (bytesBE 8) ++ [pad])

/-- The golden table (95_test_vectors.md W1, V-S1): C D E K L M U Z. -/
def golden : State :=
  coded [0x43, 0x44, 0x45, 0x4B, 0x4C, 0x4D, 0x55, 0x5A] [0x1E, 0x0D, 0x02, 0x7D, 0x0E, 0x3F, 0x0C, 0x7C] 0

/-- The incomplete table a 00, b 01 (V-D14). -/
def partialTable : State := coded [0x61, 0x62] [4, 5] 0

/-- The table A 0 (W3). -/
def single : State := coded [0x41] [2] 0

/-- A frequency table. -/
def withFreq (l : List (Byte × Nat)) : State :=
  { State.reset with freq := l.foldl (fun t p => tabSet t p.1 (BitVec.ofNat 32 p.2)) State.reset.freq }

/-- "LUCKDUCKDE" -/
def luckduckde : List Byte := [0x4C, 0x55, 0x43, 0x4B, 0x44, 0x55, 0x43, 0x4B, 0x44, 0x45]

/-- A small tree: leaves A (1) and B (2) under the root 2. -/
def smallTree : State :=
  { State.reset with
    node := nodeSet (nodeSet (nodeSet State.reset.node 0 (.leaf 0x41 1)) 1 (.leaf 0x42 2)) 2 (.internal 3 0 1)
    root := 2
    nodeCount := 3
    treeValid := true }

/-- A platform that refuses one kind of access to one byte. -/
def refusing (s : State) (a : Nat) (k : AccessKind) : State := { s with denied := [⟨a, 1, k⟩] }

/-! ### Well-formedness -/

/-- 30_encoding.md R82: a reserved bit set. -/
theorem test_reserved_bit_ill_formed : wordReservedClear 0x00000103 = false ∧ wordWellFormed 0x00000103 = false := by decide

/-- 30_encoding.md R83: a reserved opcode. -/
theorem test_reserved_opcode_ill_formed : wordOpcodeKnown 0x00000009 = false ∧ wordWellFormed 0x00000009 = false := by decide

theorem test_last_opcode_well_formed : wordWellFormed 0x00000008 = true := by decide

/-! ### Decoding: words written out from the table of 30_encoding.md R81 -/

theorem test_decode_nop : decode 0b00000000000000000000000000000000 = .ok .nop := by decide
theorem test_decode_clear : decode 0b00000000000000000000000000000001 = .ok .clear := by decide
theorem test_decode_count_freq : decode 0b00000000000000000000000000000010 = .ok .countFreq := by decide
theorem test_decode_build_tree : decode 0b00000000000000000000000000000011 = .ok .buildTree := by decide
theorem test_decode_assign_codes : decode 0b00000000000000000000000000000100 = .ok .assignCodes := by decide
theorem test_decode_pack : decode 0b00000000000000000000000000000101 = .ok .pack := by decide
theorem test_decode_unpack : decode 0b00000000000000000000000000000110 = .ok .unpack := by decide
theorem test_decode_serialize : decode 0b00000000000000000000000000000111 = .ok .serialize := by decide
theorem test_decode_deserialize : decode 0b00000000000000000000000000001000 = .ok .deserialize := by decide

/-- The ends of the reserved opcodes, and the lowest and highest reserved bit. -/
theorem test_decode_boundaries : decode 0x00000009 = .error .reservedOpcode ∧ decode 0x000000FF = .error .reservedOpcode ∧
    decode 0x00000100 = .error .reservedBits ∧ decode 0x80000000 = .error .reservedBits := by decide

theorem test_decode_table_word : decodeTableWord 32 0x00000005 = some .pack ∧ decodeTableWord 32 0x00000105 = none ∧
    decodeTableWord 8 0x00000005 = some .pack := by decide

/-- A word placed is the one the next step runs: BUILD_TREE over an empty table (V-B10). -/
theorem test_fetch_build_tree : (stepped (State.reset.withFetchWord 32 0x00000003)).errCode = 0x01 ∧
    (stepped (State.reset.withFetchWord 32 0x00000003)).statusWord = 0x06 := by decide +kernel

/-- V-B17: opcode 3 with bit 8 set. -/
theorem test_illegal_word : (stepped (acceptedNow State.reset 0x00000103)).errCode = 0x10 ∧
    (stepped (acceptedNow State.reset 0x00000103)).errInfo = 0x00000103 ∧
    (stepped (acceptedNow State.reset 0x00000103)).statusWord = 0x06 := by decide +kernel

/-! ### NOP and CLEAR -/

/-- V-B14: NOP after a failed command clears ERRCODE (at its acceptance) and keeps the tables. -/
theorem test_nop_after_error :
    (stepped ({ golden with errCode := 0x13, errInfo := 4 }.withFetchWord 32 0)).errCode = 0 ∧
      (stepped ({ golden with errCode := 0x13, errInfo := 4 }.withFetchWord 32 0)).statusWord = 0x22 := by decide +kernel

/-- V-B15. -/
theorem test_clear : (ran .clear { golden with freq := tabSet golden.freq 0x45 120, pad := 4 }).pad = 0 ∧
    tabGet (ran .clear { golden with freq := tabSet golden.freq 0x45 120 }).freq 0x45 = 0 ∧
    (ran .clear golden).regValue (.codeLen 0x45) = 0 ∧ (ran .clear golden).symCount = 0 := by decide +kernel

/-! ### COUNT_FREQ -/

/-- V-F1. -/
theorem test_count_freq :
    ([0x43, 0x44, 0x45, 0x4B, 0x4C, 0x55, 0x41].map fun b =>
        tabGet (ran .countFreq (load State.reset 0x100 luckduckde 0 0)).freq b) = [2, 2, 1, 2, 1, 2, 0] := by decide +kernel

/-- V-F3: a count that would pass 2^32 - 1. -/
theorem test_count_freq_overflow :
    let t := ran .countFreq (load (withFreq [(0x41, 0xFFFFFFFE)]) 0x100 [0x41, 0x41] 0 0)
    t.errCode = 0x13 ∧ t.errInfo = 1 ∧ tabGet t.freq 0x41 = 0xFFFFFFFF := by decide +kernel

/-! ### BUILD_TREE -/

/-- V1: the golden arena's last merges, the root and the node count. -/
theorem test_build_tree_golden :
    let t := ran .buildTree (withFreq [(0x45, 120), (0x44, 42), (0x4C, 42), (0x55, 37), (0x43, 32), (0x4D, 24), (0x4B, 7),
      (0x5A, 2)])
    t.root = 14 ∧ t.nodeCount = 15 ∧ nodeAt t.node 8 = .internal 9 7 3 ∧ nodeAt t.node 11 = .internal 79 6 1 ∧
      nodeAt t.node 14 = .internal 306 2 13 := by decide +kernel

/-- V-B2: of two internal nodes of equal frequency the one made first is selected first. -/
theorem test_build_tree_ties :
    let t := ran .buildTree (withFreq [(0x61, 1), (0x62, 1), (0x63, 1), (0x64, 1)])
    nodeAt t.node 4 = .internal 2 0 1 ∧ nodeAt t.node 5 = .internal 2 2 3 ∧ nodeAt t.node 6 = .internal 4 4 5 := by
  decide +kernel

/-! ### ASSIGN_CODES -/

/-- V-B7: a 0, b 110, c 111, d 10, from the arena of its row. -/
theorem test_assign_codes :
    let t := ran .assignCodes (ran .buildTree (withFreq [(0x61, 3), (0x62, 1), (0x63, 1), (0x64, 1)]))
    t.codeOf 0x61 = [false] ∧ t.codeOf 0x62 = [true, true, false] ∧ t.codeOf 0x63 = [true, true, true] ∧
      t.codeOf 0x64 = [true, false] ∧ t.maxLen = 3 ∧ t.statusWord = 0x22 := by decide +kernel

/-- V-B9: a single leaf gets the code 0. -/
theorem test_assign_codes_single :
    let t := ran .assignCodes (ran .buildTree (withFreq [(0x41, 4)]))
    t.codeOf 0x41 = [false] ∧ t.symCount = 1 ∧ t.maxLen = 1 := by decide +kernel

/-! ### PACK and UNPACK -/

/-- V2. -/
theorem test_pack : let t := ran .pack (load golden 0x1000 luckduckde 0x2000 16)
    memAt t 0x2000 6 = [0xD3, 0xBD, 0xB3, 0xBD, 0xA0, 0x00] ∧ t.outLen = 5 ∧ t.pad = 4 ∧ t.errCode = 0 := by decide +kernel

/-- V-P7: X has no code, and six pending bits make no byte. -/
theorem test_pack_uncoded : let t := ran .pack (load golden 0x1000 [0x4C, 0x55, 0x58] 0x2000 4)
    t.errCode = 0x14 ∧ t.errInfo = 2 ∧ t.outLen = 0 ∧ t.mem = (load golden 0x1000 [0x4C, 0x55, 0x58] 0x2000 4).mem := by
  decide +kernel

/-- V-U11: the padding bits are not looked at. -/
theorem test_unpack :
    let t := ran .unpack { load golden 0x4000 [0xD3, 0xBD, 0xB3, 0xBD, 0xAF] 0x5000 64 with pad := 4 }
    memAt t 0x5000 10 = luckduckde ∧ t.outLen = 10 := by decide +kernel

/-- V-U20: the candidate 10 reaches MAX_LEN at data bit 1; nothing was written. -/
theorem test_unpack_corrupt :
    let s : State := { load partialTable 0x4000 [0x80] 0x5000 64 with pad := 6 }
    let t := ran .unpack s
    t.errCode = 0x03 ∧ t.errInfo = 1 ∧ t.outLen = 0 ∧ t.mem = s.mem := by decide +kernel

/-! ### SERIALIZE and DESERIALIZE -/

/-- V-S3. -/
theorem test_serialize : let t := ran .serialize { load single 0x2000 [0x00] 0x3000 15 with pad := 4 }
    memAt t 0x3000 15 = [0, 0, 0, 1, 0x41, 0, 0, 0, 0, 0, 0, 0, 2, 4, 0] ∧ t.outLen = 15 ∧ t.errCode = 0 := by
  decide +kernel

/-- V-S2 in small: one byte too little. -/
theorem test_serialize_capacity : let t := ran .serialize { load single 0x2000 [0x00] 0x3000 14 with pad := 4 }
    t.errCode = 0x13 ∧ t.errInfo = 14 ∧ memAt t 0x3000 14 = List.replicate 14 0 := by decide +kernel

/-- V-D3: entries in any order. -/
theorem test_deserialize :
    let t := ran .deserialize (load State.reset 0x6000
      [0, 0, 0, 2, 0x62, 0x61, 0, 0, 0, 0, 0, 0, 0, 3, 0, 0, 0, 0, 0, 0, 0, 2, 0, 0x55] 0 0)
    t.codeOf 0x61 = [false] ∧ t.codeOf 0x62 = [true] ∧ t.pad = 0 ∧ t.payloadAddr = 0x6017 ∧ t.payloadLen = 1 ∧
      t.statusWord = 0x22 := by decide +kernel

/-- V-D11: "0" is a prefix of "01". -/
theorem test_deserialize_clash :
    let t := ran .deserialize (load golden 0x6000
      [0, 0, 0, 2, 0x41, 0x42, 0, 0, 0, 0, 0, 0, 0, 2, 0, 0, 0, 0, 0, 0, 0, 5, 0, 0] 0 0)
    t.errCode = 0x04 ∧ t.errInfo = 14 ∧ t.codesValid = false ∧ t.symCount = 0 := by decide +kernel

/-! ### The host -/

/-- 10_state.md R47: a FREQ write during a command is dropped. -/
theorem test_busy_write_dropped : let t := writeWindow (acceptedNow State.reset 2) (.freq 0x41) 7
    tabGet t.freq 0x41 = 0 ∧ t.statusWord = 0x09 := by decide +kernel

/-- 30_encoding.md R80: the write of CMD is accepted, and the queue's next operation waits. -/
theorem test_host_starts_command :
    let t := stepped (State.reset.withProgram (runLine .nop))
    t.busy = true ∧ t.cmd = 0 ∧ t.hostOps = waitLine ∧ (stepped t).statusWord = 0x02 := by decide +kernel

/-- 70_reset_and_hazards.md R236, R233: after the completion OUT_LEN is open and the ranges are the block's until the host has
read BUSY = 0 from STATUS; then OUT_LEN is exact and the host may write. -/
theorem test_results_after_status_read :
    let t := ran .pack (acceptedNow (load golden 0x1000 luckduckde 0x2000 16) 5)
    t.busy = false ∧ (readWindow t .outLen).draws = t.draws + 1 ∧ t.hostMayWrite 0x2000 = false ∧
      (readWindow (readWindow t .status) .outLen).hostRead = 5 ∧ (readWindow t .status).hostMayWrite 0x2000 = true := by
  decide +kernel

/-- V-P11: the second byte written is refused. -/
theorem test_pack_refused_write : let t := ran .pack (refusing (load golden 0x1000 luckduckde 0x2000 8) 0x2001 .write)
    t.errCode = 0x15 ∧ t.errInfo = 0x2001 ∧ t.outLen = 0 := by decide +kernel

/-- V-U1: the tenth symbol does not fit. -/
theorem test_unpack_capacity :
    let t := ran .unpack { load golden 0x4000 [0xD3, 0xBD, 0xB3, 0xBD, 0xA0] 0x5000 9 with pad := 4 }
    t.errCode = 0x13 ∧ t.errInfo = 9 ∧ t.outLen = 0 := by decide +kernel

/-! ### Witnesses: each meets all hypotheses of the statement it is named after together -/

theorem reads_all {s : State} (h : s.denied = []) (n : Nat) : s.readsAdmitted n := fun _ _ => by simp [State.admits, h]

theorem writes_all {s : State} (h : s.denied = []) (n : Nat) : s.writesAdmitted n := fun _ _ => by simp [State.admits, h]

theorem coded_legal {syms : List Byte} {vals : List Nat} {pad : Byte} {payload : List Byte}
    (h : ContainerLegal syms vals pad payload) : CodesLegal (coded syms vals pad) := h.codesLegal

theorem golden_legal : CodesLegal golden :=
  coded_legal (payload := []) (by unfold ContainerLegal; decide +kernel)

theorem single_legal : CodesLegal single :=
  coded_legal (payload := []) (by unfold ContainerLegal; decide +kernel)

theorem partialTable_legal : CodesLegal partialTable :=
  coded_legal (payload := []) (by unfold ContainerLegal; decide +kernel)

/-- The table A 00, incomplete and of one symbol. -/
def sparse : State := coded [0x41] [4] 0

theorem sparse_legal : CodesLegal sparse :=
  coded_legal (payload := []) (by unfold ContainerLegal; decide +kernel)

theorem smallTree_nodes : nodeAt smallTree.node 0 = .leaf 0x41 1 ∧ nodeAt smallTree.node 1 = .leaf 0x42 2 ∧
    nodeAt smallTree.node 2 = .internal 3 0 1 := by decide +kernel

theorem smallTree_shape : TreeShape smallTree.node 3 := by
  obtain ⟨h0, h1, h2⟩ := smallTree_nodes
  refine ⟨by decide, by decide, ?_, ?_, ?_⟩
  · intro i hi
    interval_cases i <;> simp [nodeLegal, h0, h1, h2, Node.freq]
  · intro j hj
    refine ⟨2, by decide, ?_, ?_⟩
    · interval_cases j <;> simp [isChild, h2]
    · intro k hk
      interval_cases k <;> simp [isChild, h0, h1]
  · intro i hi j hj b f g
    interval_cases i <;> interval_cases j <;> simp [h0, h1, h2]
    · rintro rfl - h; simp at h
    · rintro rfl - h; simp at h

theorem smallTree_legal : TreeLegal smallTree := fun _ => ⟨by decide, smallTree_shape⟩

theorem smallTree_shallow (q : Bits) (b : Byte) (f : BitVec 40)
    (h : follow smallTree.node smallTree.root.toNat q = some (.leaf b f)) : q.length ≤ 63 := by
  rw [follow_eq_pathEnd, Option.map_eq_some_iff] at h
  obtain ⟨j, hj, -⟩ := h
  have := pathEnd_lt smallTree_shape.childrenEarlier (by decide) hj
  have h2 : smallTree.root.toNat = 2 := by decide
  omega

/-- A running PACK over the golden table. -/
def packing : State := acceptedNow (load golden 0x1000 luckduckde 0x2000 16) 5

theorem witness_DecodeEncodeAgree : Instr.deserialize.wellFormed = true ∧ decode 0x00000008 = .ok .deserialize := by decide

theorem witness_ResetValues : packing.busy = true ∧ golden.busy = false ∧
    (∃ t, hostStep packing .resetBlock [] = .next t) ∧ ∃ t, hostStep golden .resetBlock [] = .next t :=
  ⟨by decide, by decide, ⟨_, rfl⟩, _, rfl⟩

theorem witness_ResetEventRestores : Mem.wf packing.mem = true ∧ packing.dstInUse = true ∧
    packing.inDst 0x1FFF = false ∧ packing.inDst 0x2010 = false ∧ golden.dstInUse = false := by decide +kernel

theorem witness_StepRunsDecodedCommand :
    (packing.blockTurn = true ∧ decode packing.cmd = .ok .pack) ∧
      (let s := { packing with holds := 1, hostOps := [.readReg 0 4] }
       s.blockTurn = false ∧ s.hostOps = [.readReg 0 4]) ∧
      (golden.busy = false ∧ golden.hostOps = []) ∧ decodeTableWord 32 8 = some .deserialize := by
  decide

theorem witness_IllegalCommandCompletes :
    (let s := acceptedNow golden 0x80000003
     s.blockTurn = true ∧ s.cmd.extractLsb' 8 24 ≠ 0) ∧
      let s := acceptedNow golden 0x00000009
      s.blockTurn = true ∧ 0x09 ≤ (s.cmd.extractLsb' 0 8).toNat := by decide +kernel

theorem witness_CommandWriteAccepted : golden.busy = false := rfl

theorem reset_freq (b : Byte) : tabGet State.reset.freq b = 0 := by simp [tabGet, State.reset]

theorem withFreq_one (c : Byte) (n : Nat) (b : Byte) :
    tabGet (withFreq [(c, n)]).freq b = if b = c then BitVec.ofNat 32 n else 0 := by
  simp only [withFreq, List.foldl_cons, List.foldl_nil, tabGet_tabSet, reset_freq]

/-- One count left, and one byte: the count ends at 2^32 - 1. -/
theorem witness_CountFreqAddsCounts :
    let s := load (withFreq [(0x41, 0xFFFFFFFE)]) 0xFFFFFFFF [0x41] 0 0
    s.srcFits = true ∧ s.readsAdmitted s.srcLen.toNat ∧
      ∀ b, (tabGet s.freq b).toNat + s.sourceBytes.count b ≤ 2 ^ 32 - 1 :=
  ⟨by decide +kernel, reads_all rfl _, fun b => by
    have h := withFreq_one 0x41 0xFFFFFFFE b
    have hl : State.sourceBytes (load (withFreq [(0x41, 0xFFFFFFFE)]) 0xFFFFFFFF [0x41] 0 0) = [0x41] := by decide +kernel
    rw [show (load (withFreq [(0x41, 0xFFFFFFFE)]) 0xFFFFFFFF [0x41] 0 0).freq = (withFreq [(0x41, 0xFFFFFFFE)]).freq from
      rfl, h, hl]
    have hc := List.count_le_length (l := [(0x41 : Byte)]) (a := b)
    split
    · exact Nat.add_le_add_left hc _
    · exact Nat.le_trans (Nat.add_le_add_left hc _) (by decide)⟩

theorem witness_CountFreqStopsAtOverflow :
    let s := load (withFreq [(0x41, 0xFFFFFFFE)]) 0x100 [0x41, 0x41] 0 0
    s.srcFits = true ∧ 1 < s.srcLen.toNat ∧ s.readsAdmitted (1 + 1) ∧
      (∀ b, (tabGet s.freq b).toNat + (s.sourcePart 1).count b ≤ 2 ^ 32 - 1) ∧
      (tabGet s.freq (s.sourceByte 1)).toNat + (s.sourcePart 1).count (s.sourceByte 1) = 2 ^ 32 - 1 :=
  ⟨by decide +kernel, by decide +kernel, reads_all rfl _, fun b => by
    have h := withFreq_one 0x41 0xFFFFFFFE b
    have hl : State.sourcePart (load (withFreq [(0x41, 0xFFFFFFFE)]) 0x100 [0x41, 0x41] 0 0) 1 = [0x41] := by
      decide +kernel
    rw [show (load (withFreq [(0x41, 0xFFFFFFFE)]) 0x100 [0x41, 0x41] 0 0).freq = (withFreq [(0x41, 0xFFFFFFFE)]).freq from
      rfl, h, hl]
    have hc := List.count_le_length (l := [(0x41 : Byte)]) (a := b)
    split
    · exact Nat.add_le_add_left hc _
    · exact Nat.le_trans (Nat.add_le_add_left hc _) (by decide), by decide +kernel⟩

theorem refusedCount :
    let s := refusing (load State.reset 0x100 [0x41, 0x42] 0 0) 0x101 .read
    s.srcFits = true ∧ 1 < s.srcLen.toNat ∧ s.readsAdmitted 1 ∧ s.admits (s.srcAddr.toNat + 1) .read = false ∧
      ∀ b, (tabGet s.freq b).toNat + (s.sourcePart 1).count b ≤ 2 ^ 32 - 1 :=
  ⟨by decide +kernel, by decide +kernel, by unfold State.readsAdmitted; decide +kernel, by decide +kernel, fun b => by
    rw [show (refusing (load State.reset 0x100 [0x41, 0x42] 0 0) 0x101 .read).freq = State.reset.freq from rfl, reset_freq]
    have := List.count_le_length (l := State.sourcePart (refusing (load State.reset 0x100 [0x41, 0x42] 0 0) 0x101 .read) 1)
      (a := b)
    refine Nat.le_trans (Nat.add_le_add_left this _) ?_
    simp [State.sourcePart]⟩

theorem load_legal {s : State} {a d n : Nat} {l : List Byte} (h : CodesLegal s) : CodesLegal (load s a l d n) :=
  codesLegal_congr (s := s) rfl rfl rfl rfl rfl h

theorem refusing_legal {s : State} {a : Nat} {k : AccessKind} (h : CodesLegal s) : CodesLegal (refusing s a k) :=
  codesLegal_congr (s := s) rfl rfl rfl rfl rfl h

/-- The table A 000, incomplete and of one symbol. -/
def triple : State := coded [0x41] [8] 0

theorem triple_legal : CodesLegal triple :=
  coded_legal (payload := []) (by unfold ContainerLegal; decide +kernel)

theorem triple_codes (b : Byte) (h : tabGet triple.codeLen b ≠ 0) : b = 0x41 := by
  revert b
  decide +kernel

/-- Read 8 of a PACK whose eight bits before it made a byte. -/
theorem refusedPackRead :
    let s := refusing (load single 0x1000 (List.replicate 9 0x41) 0x2000 2) 0x1008 .read
    s.codesValid = true ∧ s.rangesOk = true ∧ 8 < s.srcLen.toNat ∧ s.readsAdmitted 8 ∧
      s.admits (s.srcAddr.toNat + 8) .read = false ∧ (∀ i < 8, tabGet s.codeLen (s.sourceByte i) ≠ 0) ∧
      (s.codeStream (s.sourcePart 8)).length / 8 ≤ s.dstCap.toNat ∧
      s.writesAdmitted ((s.codeStream (s.sourcePart 8)).length / 8) ∧ (s.codeStream (s.sourcePart 8)).length / 8 = 1 := by
  unfold State.readsAdmitted State.writesAdmitted
  decide +kernel

/-- Read 1 of an UNPACK that has two symbols and two bits of the next code. -/
theorem refusedUnpackRead :
    let s := refusing (load triple 0x4000 [0x00, 0x00] 0x5000 2) 0x4001 .read
    CodesLegal s ∧ s.codesValid = true ∧ s.rangesOk = true ∧ s.pad.toNat ≤ 8 * s.srcLen.toNat ∧ 8 * 1 < s.dataBits ∧
      s.readsAdmitted 1 ∧ s.admits (s.srcAddr.toNat + 1) .read = false ∧
      (∀ b ∈ ([0x41, 0x41] : List Byte), tabGet s.codeLen b ≠ 0) ∧
      (∀ b, tabGet s.codeLen b ≠ 0 → ¬s.codeOf b <+: [false, false]) ∧ [false, false].length < s.maxLen.toNat ∧
      s.codeStream [0x41, 0x41] ++ [false, false] = s.dataStream.take (8 * 1) ∧
      ([0x41, 0x41] : List Byte).length ≤ s.dstCap.toNat ∧ s.writesAdmitted 2 := by
  refine ⟨refusing_legal (load_legal triple_legal), by decide +kernel, by decide +kernel, by decide +kernel, by decide +kernel,
    by unfold State.readsAdmitted; decide +kernel, by decide +kernel, by decide +kernel, fun b hb => ?_, by decide +kernel,
    by decide +kernel, by decide +kernel, by unfold State.writesAdmitted; decide +kernel⟩
  rw [triple_codes b hb]
  decide +kernel

/-- A SERIALIZE with exactly the room it needs. -/
def serReady : State := load single 0x2000 [0x00] 0x3000 15

/-- The container of A 0 with a payload of one byte. -/
def boxOne : State := load State.reset 0x6000 (containerOf [0x41] [2] 4 [0x00]) 0 0

/-- The payload read of a SERIALIZE, and the last reads of a DESERIALIZE before and after the entry count. -/
theorem refusedContainerReads :
    (let s := refusing serReady 0x2000 .read
     CodesLegal s ∧ s.codesValid = true ∧ s.rangesOk = true ∧
      5 + 9 * s.symCount.toNat + s.srcLen.toNat ≤ s.dstCap.toNat ∧ 0 < s.srcLen.toNat ∧ s.readsAdmitted 0 ∧
      s.admits (s.srcAddr.toNat + 0) .read = false ∧ s.writesAdmitted (5 + 9 * s.symCount.toNat + 0)) ∧
    (let s := refusing boxOne 0x6003 .read
     s.srcFits = true ∧ 4 ≤ s.srcLen.toNat ∧ s.readsAdmitted 3 ∧ s.admits (s.srcAddr.toNat + 3) .read = false) ∧
    let s := refusing boxOne 0x600D .read
    s.srcFits = true ∧ 4 ≤ s.srcLen.toNat ∧ s.readsAdmitted 13 ∧ s.admits (s.srcAddr.toNat + 13) .read = false ∧
      1 ≤ valBE (s.sourcePart 4) ∧ valBE (s.sourcePart 4) ≤ 256 ∧ 5 + 9 * valBE (s.sourcePart 4) ≤ s.srcLen.toNat ∧
      13 < 5 + 9 * valBE (s.sourcePart 4) := by
  refine ⟨⟨refusing_legal (load_legal single_legal), ?_⟩, ?_⟩
  all_goals
    unfold State.readsAdmitted
    try unfold State.writesAdmitted
    decide +kernel

/-- A PACK that comes to a byte of padding, one that comes to a whole byte, and one whose later reads do not matter. -/
theorem reachesPack : PackReaches (refusing (load single 0x1000 [0x41] 0x2000 1) 0x2000 .write) 0 ∧
    PackReaches (refusing (load single 0x1000 (List.replicate 9 0x41) 0x2000 2) 0x2000 .write) 0 ∧
    PackReaches (refusing (load single 0x1000 (List.replicate 9 0x41) 0x2000 2) 0x2001 .write) 1 :=
  ⟨⟨by decide +kernel, by decide +kernel, 1, by decide +kernel, by unfold State.readsAdmitted; decide +kernel,
      by decide +kernel, by decide +kernel⟩,
    ⟨by decide +kernel, by decide +kernel, 8, by decide +kernel, by unfold State.readsAdmitted; decide +kernel,
      by decide +kernel, by decide +kernel⟩,
    ⟨by decide +kernel, by decide +kernel, 9, by decide +kernel, by unfold State.readsAdmitted; decide +kernel,
      by decide +kernel, by decide +kernel⟩⟩

/-- Seven bits 0, into `cap` bytes, with byte `a` refused. -/
def sevenBits (cap a : Nat) : State := refusing { load single 0x4000 [0x00] 0x5000 cap with pad := 1 } a .write

theorem sevenBits_reaches {cap a : Nat} (o : Nat) (ho : o < 7) (h : (sevenBits cap a).rangesOk = true)
    (hs : (sevenBits cap a).codeStream (List.replicate 7 0x41) <+: (sevenBits cap a).dataStream)
    (hr : (sevenBits cap a).readsAdmitted 1) (hl : ((sevenBits cap a).codeStream (List.replicate 7 0x41)).length = 7) :
    UnpackReaches (sevenBits cap a) o :=
  ⟨codesLegal_congr (s := single) rfl rfl rfl rfl rfl single_legal, rfl, h, by simp [sevenBits, refusing, load],
    List.replicate 7 0x41, fun b hb => by
      rw [List.eq_of_mem_replicate hb]
      exact show tabGet single.codeLen 0x41 ≠ 0 by decide +kernel, by simpa using ho, hs, by rw [hl]; exact hr⟩

/-- The last byte of seven. -/
theorem reachesUnpack : UnpackReaches (sevenBits 7 0x5006) 6 :=
  sevenBits_reaches 6 (by decide) (by decide +kernel) (by decide +kernel) (by unfold State.readsAdmitted; decide +kernel)
    (by decide +kernel)

/-- The first byte of a container and its last, a payload byte. -/
theorem reachesSerialize : SerializeReaches (refusing serReady 0x3000 .write) 0 ∧
    SerializeReaches (refusing serReady 0x300E .write) 14 := by
  unfold SerializeReaches State.readsAdmitted
  exact ⟨⟨refusing_legal (load_legal single_legal), by decide +kernel⟩,
    ⟨refusing_legal (load_legal single_legal), by decide +kernel⟩⟩

/-- The writes that are refused there, those before them admitted (the reads are the theorems above). -/
theorem witness_CountFreqStopsAtRefusal :
    (let s := refusing (load single 0x1000 (List.replicate 9 0x41) 0x2000 2) 0x2001 .write
     PackReaches s 1 ∧ 1 < s.dstCap.toNat ∧ s.writesAdmitted 1 ∧ s.admits (s.dstAddr.toNat + 1) .write = false) ∧
    (let s := sevenBits 7 0x5006
     UnpackReaches s 6 ∧ 6 < s.dstCap.toNat ∧ s.writesAdmitted 6 ∧ s.admits (s.dstAddr.toNat + 6) .write = false) ∧
    let s := refusing serReady 0x300E .write
    SerializeReaches s 14 ∧ 14 < s.dstCap.toNat ∧ s.writesAdmitted 14 ∧ s.admits (s.dstAddr.toNat + 14) .write = false :=
  ⟨⟨reachesPack.2.2, by unfold State.writesAdmitted; decide +kernel⟩,
    ⟨reachesUnpack, by unfold State.writesAdmitted; decide +kernel⟩,
    reachesSerialize.2, by unfold State.writesAdmitted; decide +kernel⟩

/-- One symbol, and all 256. -/
theorem witness_BuildTreeCounts : (withFreq [(0x41, 4)]).symbolsPresent = 1 ∧
    ({ State.reset with freq := Vector.replicate 256 1 } : State).symbolsPresent = 256 :=
  ⟨by decide +kernel, by simp [State.symbolsPresent, tabGet, allSymbols]⟩

theorem witness_BuildTreeMergesLeastKeys : let s := withFreq [(0x61, 1), (0x62, 1), (0x63, 1), (0x64, 1)]
    s.symbolsPresent ≠ 0 ∧ exec .buildTree s = .next (ran .buildTree s) := ⟨by decide +kernel, exec_ran _ _⟩

theorem witness_BuildTreeEmptyInput : ∀ b, tabGet State.reset.freq b = 0 := reset_freq

theorem witness_BuiltTreeDepthBounded : let s := withFreq [(0x41, 4)]
    s.symbolsPresent ≠ 0 ∧ exec .buildTree s = .next (ran .buildTree s) ∧
      ∃ b f, follow (ran .buildTree s).node (ran .buildTree s).root.toNat [] = some (.leaf b f) :=
  ⟨by decide +kernel, exec_ran _ _, 0x41, 4, by decide +kernel⟩

theorem witness_AssignCodesFollowsTree : TreeLegal smallTree ∧ smallTree.treeValid = true ∧
    ∀ q b f, follow smallTree.node smallTree.root.toNat q = some (.leaf b f) → q.length ≤ 63 :=
  ⟨smallTree_legal, rfl, smallTree_shallow⟩

theorem witness_AssignedCodesComplete : TreeLegal smallTree ∧ smallTree.treeValid = true ∧
    exec .assignCodes smallTree = .next (ran .assignCodes smallTree) ∧ (ran .assignCodes smallTree).codesValid = true ∧
    (ran .assignCodes smallTree).treeValid = false :=
  ⟨smallTree_legal, rfl, exec_ran _ _, by decide +kernel, by decide +kernel⟩

theorem witness_SequenceErrors : State.reset.treeValid = false ∧ State.reset.codesValid = false := by decide

/-- Ranges that end one byte past 2^32, and ranges that share exactly one byte. -/
theorem witness_RangeErrors :
    (let s := { golden with srcAddr := 0xFFFFFFFF, srcLen := 2 }
     2 ^ 32 < s.srcAddr.toNat + s.srcLen.toNat ∧ s.codesValid = true) ∧
      (let s := { golden with dstAddr := 1, dstCap := 0xFFFFFFFF + 0 }
       ¬2 ^ 32 < s.dstAddr.toNat + s.dstCap.toNat) ∧
      (let s := { golden with dstAddr := 2, dstCap := 0xFFFFFFFF }
       2 ^ 32 < s.dstAddr.toNat + s.dstCap.toNat) ∧
      let s := { golden with srcAddr := 0x100, srcLen := 4, dstAddr := 0x103, dstCap := 1 }
      s.codesValid = true ∧ s.inSrc 0x103 = true ∧ s.inDst 0x103 = true := by decide +kernel

/-- A small PACK that is ready: "AA" under A 0 gives 00, a destination of one byte. -/
def packReady : State := load single 0x1000 [0x41, 0x41] 0x2000 1

/-- The codes of the source bytes are all there. -/
theorem packReady_coded : ∀ j < packReady.srcLen.toNat, tabGet packReady.codeLen (packReady.sourceByte j) ≠ 0 := by
  decide +kernel

theorem witness_PackWritesStream : Mem.wf packReady.mem = true ∧ PackReady packReady :=
  ⟨by decide +kernel, by decide +kernel, by decide +kernel, reads_all rfl _, packReady_coded, by decide +kernel,
    writes_all rfl _⟩

/-- PACK: eight bits and one more into one byte, one bit into none. UNPACK: seven symbols into six bytes, and into none. -/
theorem witness_PackCapacity :
    (let s := load single 0x1000 (List.replicate 9 0x41) 0x2000 1
     PackReaches s s.dstCap.toNat ∧ s.writesAdmitted s.dstCap.toNat) ∧
    (let s := load single 0x1000 [0x41] 0x2000 0
     PackReaches s s.dstCap.toNat ∧ s.dstCap = 0) ∧
    (let s := sevenBits 6 0
     UnpackReaches s s.dstCap.toNat ∧ s.writesAdmitted s.dstCap.toNat) ∧
    let s := sevenBits 0 0
    UnpackReaches s s.dstCap.toNat ∧ s.dstCap = 0 :=
  ⟨⟨⟨by decide +kernel, by decide +kernel, 9, by decide +kernel, reads_all rfl _, by decide +kernel, by decide +kernel⟩,
      writes_all rfl _⟩,
    ⟨⟨by decide +kernel, by decide +kernel, 1, by decide +kernel, reads_all rfl _, by decide +kernel, by decide +kernel⟩,
      by decide +kernel⟩,
    ⟨sevenBits_reaches _ (by decide +kernel) (by decide +kernel) (by decide +kernel)
        (by unfold State.readsAdmitted; decide +kernel) (by decide +kernel),
      by unfold State.writesAdmitted; decide +kernel⟩,
    sevenBits_reaches _ (by decide +kernel) (by decide +kernel) (by decide +kernel)
      (by unfold State.readsAdmitted; decide +kernel) (by decide +kernel), by decide +kernel⟩

/-- Seven bits before the byte without a code, and eight. -/
theorem witness_PackUncodedSymbol :
    (let s := load single 0x1000 (List.replicate 7 0x41 ++ [0x42]) 0x2000 0
     Mem.wf s.mem = true ∧ s.codesValid = true ∧ s.rangesOk = true ∧ 7 < s.srcLen.toNat ∧ s.readsAdmitted (7 + 1) ∧
      (∀ i < 7, tabGet s.codeLen (s.sourceByte i) ≠ 0) ∧ tabGet s.codeLen (s.sourceByte 7) = 0 ∧
      (s.codeStream (s.sourcePart 7)).length / 8 ≤ s.dstCap.toNat ∧
      s.writesAdmitted ((s.codeStream (s.sourcePart 7)).length / 8) ∧ (s.codeStream (s.sourcePart 7)).length < 8) ∧
      let s := load single 0x1000 (List.replicate 8 0x41 ++ [0x42]) 0x2000 1
      Mem.wf s.mem = true ∧ s.rangesOk = true ∧ 8 < s.srcLen.toNat ∧
        (∀ i < 8, tabGet s.codeLen (s.sourceByte i) ≠ 0) ∧ tabGet s.codeLen (s.sourceByte 8) = 0 ∧
        (s.codeStream (s.sourcePart 8)).length / 8 ≤ s.dstCap.toNat :=
  ⟨⟨by decide +kernel, by decide +kernel, by decide +kernel, by decide +kernel, reads_all rfl _, by decide +kernel,
    by decide +kernel, by decide +kernel, writes_all rfl _, by decide +kernel⟩, by decide +kernel⟩

/-- Eight bits 0 less one of padding are seven symbols A (V-U in small). -/
theorem witness_UnpackDecodesCodes :
    let s : State := { load single 0x4000 [0x00] 0x5000 7 with pad := 1 }
    let m : List Byte := List.replicate 7 0x41
    Mem.wf s.mem = true ∧ CodesLegal s ∧ s.codesValid = true ∧ s.rangesOk = true ∧ s.pad.toNat ≤ 8 * s.srcLen.toNat ∧
      s.readsAdmitted s.srcLen.toNat ∧ (∀ b ∈ m, tabGet s.codeLen b ≠ 0) ∧ s.dataStream = s.codeStream m ∧
      m.length ≤ s.dstCap.toNat ∧ s.writesAdmitted m.length :=
  ⟨by decide +kernel, codesLegal_congr (s := single) rfl rfl rfl rfl rfl single_legal, by decide +kernel, by decide +kernel,
    by decide +kernel, reads_all rfl _, by decide +kernel, by decide +kernel, by decide +kernel, writes_all rfl _⟩

/-- 41_bit_pack.md R152: (a) 00 and then 01, under A 00; (b) 00 and then 0; (c) three padding bits of no byte. -/
theorem sparse_codes (b : Byte) (h : tabGet sparse.codeLen b ≠ 0) : b = 0x41 := by
  revert b
  decide +kernel

theorem witness_UnpackCorruptData :
    (let s : State := load sparse 0x4000 [0x10] 0x5000 1
     let q : Bits := [false, true]
     CodesLegal s ∧ s.codesValid = true ∧ s.rangesOk = true ∧ s.pad.toNat ≤ 8 * s.srcLen.toNat ∧
      s.readsAdmitted s.srcLen.toNat ∧ (∀ b ∈ ([0x41] : List Byte), tabGet s.codeLen b ≠ 0) ∧
      (∀ b, tabGet s.codeLen b ≠ 0 → ¬s.codeOf b <+: q) ∧ q ≠ [] ∧ [(0x41 : Byte)].length ≤ s.dstCap.toNat ∧
      s.writesAdmitted 1 ∧ s.codeStream [0x41] ++ q <+: s.dataStream ∧ q.length = s.maxLen.toNat) ∧
    (let s : State := { load sparse 0x4000 [0x00] 0x5000 1 with pad := 5 }
     let q : Bits := [false]
     CodesLegal s ∧ s.codesValid = true ∧ s.rangesOk = true ∧ s.pad.toNat ≤ 8 * s.srcLen.toNat ∧
      s.readsAdmitted s.srcLen.toNat ∧ (∀ b ∈ ([0x41] : List Byte), tabGet s.codeLen b ≠ 0) ∧
      (∀ b, tabGet s.codeLen b ≠ 0 → ¬s.codeOf b <+: q) ∧ q ≠ [] ∧ [(0x41 : Byte)].length ≤ s.dstCap.toNat ∧
      s.writesAdmitted 1 ∧ s.dataStream = s.codeStream [0x41] ++ q ∧ q.length < s.maxLen.toNat) ∧
    let s : State := { load sparse 0x4000 [] 0x5000 1 with pad := 3 }
    s.codesValid = true ∧ s.rangesOk = true ∧ 8 * s.srcLen.toNat < s.pad.toNat := by
  refine ⟨⟨load_legal sparse_legal, by decide +kernel, by decide +kernel, by decide +kernel, reads_all rfl _,
      by decide +kernel, ?_, by decide, by decide +kernel, writes_all rfl _, by decide +kernel, by decide +kernel⟩,
    ⟨codesLegal_congr (s := sparse) rfl rfl rfl rfl rfl sparse_legal, by decide +kernel, by decide +kernel,
      by decide +kernel, reads_all rfl _, by decide +kernel, ?_, by decide, by decide +kernel, writes_all rfl _,
      by decide +kernel, by decide +kernel⟩, by decide +kernel⟩
  · intro b hb
    rw [sparse_codes b hb]
    decide +kernel
  · intro b hb
    rw [sparse_codes b hb]
    decide +kernel

/-- Case (a) with no symbol before it: 01 under A 00, so nothing is written. -/
theorem witness_UnpackCorruptData_first :
    let s : State := load sparse 0x4000 [0x40] 0x5000 0
    let q : Bits := [false, true]
    CodesLegal s ∧ s.codesValid = true ∧ s.rangesOk = true ∧ s.pad.toNat ≤ 8 * s.srcLen.toNat ∧
      s.readsAdmitted s.srcLen.toNat ∧ (∀ b, tabGet s.codeLen b ≠ 0 → ¬s.codeOf b <+: q) ∧ q ≠ [] ∧
      s.writesAdmitted 0 ∧ s.codeStream [] ++ q <+: s.dataStream ∧ q.length = s.maxLen.toNat := by
  refine ⟨load_legal sparse_legal, by decide +kernel, by decide +kernel, by decide +kernel, reads_all rfl _, fun b hb => ?_,
    by decide, writes_all rfl _, by decide +kernel, by decide +kernel⟩
  rw [sparse_codes b hb]
  decide +kernel

theorem witness_PackUnpackRoundTrip :
    let s := packReady
    let t := ran .pack s
    let u : State := { t with srcAddr := s.dstAddr, srcLen := t.outLen, dstAddr := 0x3000, dstCap := 2 }
    Mem.wf s.mem = true ∧ CodesLegal s ∧ s.errCode = 0 ∧ exec .pack s = .next t ∧ t.errCode = 0 ∧
      u = { t with srcAddr := s.dstAddr, srcLen := t.outLen, dstAddr := u.dstAddr, dstCap := u.dstCap } ∧
      u.rangesOk = true ∧ s.srcLen.toNat ≤ u.dstCap.toNat ∧ u.readsAdmitted u.srcLen.toNat ∧
      u.writesAdmitted s.srcLen.toNat :=
  ⟨by decide +kernel, load_legal single_legal, by decide +kernel, exec_ran _ _, by decide +kernel, rfl, by decide +kernel,
    by decide +kernel, reads_all (by decide +kernel) _, writes_all (by decide +kernel) _⟩

theorem witness_SerializeWritesContainer : Mem.wf serReady.mem = true ∧ CodesLegal serReady ∧
    serReady.codesValid = true ∧ serReady.rangesOk = true ∧
    5 + 9 * serReady.symCount.toNat + serReady.srcLen.toNat ≤ serReady.dstCap.toNat ∧
    serReady.readsAdmitted serReady.srcLen.toNat ∧
    serReady.writesAdmitted (5 + 9 * serReady.symCount.toNat + serReady.srcLen.toNat) :=
  ⟨by decide +kernel, load_legal single_legal, by decide +kernel, by decide +kernel, by decide +kernel, reads_all rfl _,
    writes_all rfl _⟩

theorem witness_SerializeCapacity : let s := load single 0x2000 [0x00] 0x3000 14
    s.codesValid = true ∧ s.rangesOk = true ∧ s.dstCap.toNat < 5 + 9 * s.symCount.toNat + s.srcLen.toNat := by
  decide +kernel

theorem witness_DeserializeLoadsContainer : ContainerLegal [0x41] [2] 4 [0x00] ∧
    boxOne.sourceBytes = containerOf [0x41] [2] 4 [0x00] ∧ boxOne.srcFits = true ∧ boxOne.readsAdmitted (5 + 9 * 1) ∧
    boxOne.srcAddr.toNat + 5 + 9 * 1 < 2 ^ 32 :=
  ⟨by unfold ContainerLegal; decide +kernel, by decide +kernel, by decide +kernel, reads_all rfl _, by decide +kernel⟩

theorem witness_DeserializeAcceptsOnlyLegal : exec .deserialize boxOne = .next (ran .deserialize boxOne) ∧
    (ran .deserialize boxOne).codesValid = true := ⟨exec_ran _ _, by decide +kernel⟩

/-- V-D6, V-D4, V-D5, V-D7 in small: three bytes; counts 0 and 257; 13 bytes for one entry, which takes 14. -/
theorem witness_DeserializeHeaderChecks :
    (let s := load State.reset 0x6000 [0, 0, 0] 0 0
     s.srcFits = true ∧ s.srcLen.toNat < 4) ∧
    (let s := load State.reset 0x6000 [0, 0, 0, 0] 0 0
     s.srcFits = true ∧ 4 ≤ s.srcLen.toNat ∧ s.readsAdmitted 4 ∧ valBE (s.sourcePart 4) = 0) ∧
    (let s := load State.reset 0x6000 [0, 0, 1, 1] 0 0
     s.srcFits = true ∧ 4 ≤ s.srcLen.toNat ∧ s.readsAdmitted 4 ∧ 256 < valBE (s.sourcePart 4)) ∧
    let s := load State.reset 0x6000 [0, 0, 0, 1, 0x41, 0, 0, 0, 0, 0, 0, 0, 2] 0 0
    s.srcFits = true ∧ 4 ≤ s.srcLen.toNat ∧ s.readsAdmitted 4 ∧ 1 ≤ valBE (s.sourcePart 4) ∧
      valBE (s.sourcePart 4) ≤ 256 ∧ s.srcLen.toNat < 5 + 9 * valBE (s.sourcePart 4) :=
  ⟨by decide +kernel, ⟨by decide +kernel, by decide +kernel, reads_all rfl _, by decide +kernel⟩,
    ⟨by decide +kernel, by decide +kernel, reads_all rfl _, by decide +kernel⟩, by decide +kernel, by decide +kernel,
    reads_all rfl _, by decide +kernel, by decide +kernel, by decide +kernel⟩

/-- A state whose source is a container with these parts. -/
def box (syms : List Byte) (vals : List Nat) (pad : Byte) (payload : List Byte) : State :=
  load State.reset 0x6000 (containerOf syms vals pad payload) 0 0

/-- The hypotheses of DeserializeTableChecks before its cases. -/
def BoxReady (s : State) (syms : List Byte) (vals : List Nat) (pad : Byte) (payload : List Byte) : Prop :=
  vals.length = syms.length ∧ 1 ≤ syms.length ∧ syms.length ≤ 256 ∧ (∀ v ∈ vals, v < 2 ^ 64) ∧
    s.sourceBytes = containerOf syms vals pad payload ∧ s.srcFits = true ∧ s.readsAdmitted (5 + 9 * syms.length)

theorem box_ready {syms : List Byte} {vals : List Nat} {pad : Byte} {payload : List Byte}
    (h : vals.length = syms.length ∧ 1 ≤ syms.length ∧ syms.length ≤ 256 ∧ (∀ v ∈ vals, v < 2 ^ 64) ∧
      (box syms vals pad payload).sourceBytes = containerOf syms vals pad payload ∧
      (box syms vals pad payload).srcFits = true) : BoxReady (box syms vals pad payload) syms vals pad payload :=
  ⟨h.1, h.2.1, h.2.2.1, h.2.2.2.1, h.2.2.2.2.1, h.2.2.2.2.2, reads_all rfl _⟩

/-- Checks 5, 6, 7, 8 and 9 in that order (V-D8 to V-D13 in small). -/
theorem witness_DeserializeTableChecks :
    (let s := box [0x41, 0x41] [2, 3] 0 [0]
     BoxReady s [0x41, 0x41] [2, 3] 0 [0] ∧ ∃ b, ([0x41, 0x41] : List Byte)[1]? = some b ∧
      b ∈ ([0x41, 0x41] : List Byte).take 1 ∧ (([0x41, 0x41] : List Byte).take 1).Nodup) ∧
    (let s := box [0x41] [1] 0 [0]
     BoxReady s [0x41] [1] 0 [0] ∧ [(0x41 : Byte)].Nodup ∧
      ∃ v, [1][0]? = some v ∧ v < 2 ∧ ∀ w ∈ [1].take 0, 2 ≤ w) ∧
    (let s := box [0x41, 0x42] [2, 5] 0 [0]
     BoxReady s [0x41, 0x42] [2, 5] 0 [0] ∧ ([0x41, 0x42] : List Byte).Nodup ∧ (∀ v ∈ [2, 5], 2 ≤ v) ∧
      ∃ v, [2, 5][1]? = some v ∧ (∃ w ∈ [2, 5].take 1, clashes (sentinelCode v) (sentinelCode w) = true) ∧
        (([2, 5].take 1).map sentinelCode).Pairwise (fun c d => clashes c d = false)) ∧
    (let s := box [0x41] [2] 8 [0]
     BoxReady s [0x41] [2] 8 [0] ∧ [(0x41 : Byte)].Nodup ∧ (∀ v ∈ [2], 2 ≤ v) ∧
      ([2].map sentinelCode).Pairwise (fun c d => clashes c d = false) ∧ 7 < (8 : Byte).toNat) ∧
    let s := box [0x41] [2] 1 []
    BoxReady s [0x41] [2] 1 [] ∧ [(0x41 : Byte)].Nodup ∧ (∀ v ∈ [2], 2 ≤ v) ∧
      ([2].map sentinelCode).Pairwise (fun c d => clashes c d = false) ∧ (1 : Byte) ≠ 0 :=
  ⟨⟨box_ready (by decide +kernel), 0x41, by decide⟩, ⟨box_ready (by decide +kernel), by decide, 1, by decide⟩,
    ⟨box_ready (by decide +kernel), by decide, by decide, 5, by decide⟩,
    ⟨box_ready (by decide +kernel), by decide, by decide, by decide, by decide⟩,
    box_ready (by decide +kernel), by decide, by decide, by decide, by decide⟩

/-- RANGE, BUS_ERROR and MALFORMED_CONTAINER, one each. -/
theorem witness_DeserializeErrorClears :
    (let s := { golden with srcAddr := 0xFFFFFFFF, srcLen := 2 }
     s.errCode = 0 ∧ exec .deserialize s = .next (ran .deserialize s) ∧ (ran .deserialize s).errCode = 0x12) ∧
    (let s := refusing boxOne 0x6004 .read
     s.errCode = 0 ∧ exec .deserialize s = .next (ran .deserialize s) ∧ (ran .deserialize s).errCode = 0x15) ∧
    let s := { golden with srcLen := 3 }
    s.errCode = 0 ∧ exec .deserialize s = .next (ran .deserialize s) ∧ (ran .deserialize s).errCode = 0x04 :=
  ⟨⟨by decide +kernel, exec_ran _ _, by decide +kernel⟩, ⟨by decide +kernel, exec_ran _ _, by decide +kernel⟩,
    by decide +kernel, exec_ran _ _, by decide +kernel⟩

theorem witness_SerializeDeserializeRoundTrip :
    let s := serReady
    let t := ran .serialize s
    let u : State := { t with srcAddr := s.dstAddr, srcLen := t.outLen }
    Mem.wf s.mem = true ∧ CodesLegal s ∧ s.errCode = 0 ∧ exec .serialize s = .next t ∧ t.errCode = 0 ∧
      (s.srcLen ≠ 0 ∨ s.pad = 0) ∧
      u = { t with srcAddr := s.dstAddr, srcLen := t.outLen, dstAddr := u.dstAddr, dstCap := u.dstCap } ∧
      u.readsAdmitted (5 + 9 * s.symCount.toNat) :=
  ⟨by decide +kernel, load_legal single_legal, by decide +kernel, exec_ran _ _, by decide +kernel, by decide +kernel, rfl,
    reads_all (by decide +kernel) _⟩

theorem witness_CommandsKeepOperands : exec .pack packReady = .next (ran .pack packReady) ∧
    (ran .pack packReady).errCode = 0 := ⟨exec_ran _ _, by decide +kernel⟩

theorem witness_CommandsWriteOnlyTheirTables : exec .deserialize boxOne = .next (ran .deserialize boxOne) ∧
    (ran .deserialize boxOne).outLen = boxOne.outLen ∧ exec .nop golden = .next (ran .nop golden) :=
  ⟨exec_ran _ _, by decide +kernel, exec_ran _ _⟩

/-- The bytes just below and just above the destination. -/
theorem witness_MemoryKeptOutsideDestination : Mem.wf packReady.mem = true ∧
    exec .pack packReady = .next (ran .pack packReady) ∧ packReady.inDst 0x1FFF = false ∧ packReady.inDst 0x2000 = true ∧
    packReady.inDst 0x2001 = false := ⟨by decide +kernel, exec_ran _ _, by decide +kernel⟩

theorem witness_ErrorRecord : packReady.errCode = 0 ∧ packReady.errInfo = 0 ∧
    exec .assignCodes packReady = .next (ran .assignCodes packReady) ∧ (ran .assignCodes packReady).errCode ≠ 0 :=
  ⟨by decide +kernel, by decide +kernel, exec_ran _ _, by decide +kernel⟩

/-- A memory with one byte more, outside the source. -/
theorem witness_ResultsIndependentOfOtherMemory :
    let m := Mem.write packReady.mem 0x1002 7
    Mem.wf packReady.mem = true ∧ Mem.wf m = true ∧
      (∀ a, packReady.inSrc a = true → Mem.read m a = Mem.read packReady.mem a) ∧ m ≠ packReady.mem ∧
      exec .pack packReady = .next (ran .pack packReady) := by
  refine ⟨by decide +kernel, by decide +kernel, ?_, by decide +kernel, exec_ran _ _⟩
  intro a h
  rw [Mem.read_write (by decide +kernel), if_neg]
  rintro rfl
  revert h
  decide +kernel

/-- The state after the acceptance of PACK, and what its step leaves. -/
theorem witness_StepKeepsMemoryCanonical : MemoryCanonical packing ∧ step packing = .next (ran .pack packing) :=
  ⟨by unfold MemoryCanonical; decide +kernel, exec_ran .pack packing⟩

theorem witness_StepKeepsStatusLegal : StatusLegal packing ∧ DutyLegal packing ∧ packing.guarded ≠ [] ∧
    step packing = .next (ran .pack packing) :=
  ⟨by unfold StatusLegal; decide +kernel, ⟨fun _ => ⟨rfl, fun _ h => List.mem_append_left _ h⟩, nofun⟩, by decide +kernel,
    exec_ran .pack packing⟩

theorem witness_StepKeepsTableRegs : TableRegsLegal packing ∧ step packing = .next (ran .pack packing) :=
  ⟨by unfold TableRegsLegal; decide +kernel, exec_ran .pack packing⟩

theorem witness_StepKeepsTreeLegal : let s := acceptedNow smallTree 0
    TreeLegal s ∧ s.treeValid = true ∧ step s = .next (ran .nop s) ∧ (ran .nop s).treeValid = true :=
  ⟨fun _ => ⟨by decide, smallTree_shape⟩, by decide, exec_ran .nop _, by decide⟩

theorem witness_StepKeepsCodesLegal : TreeLegal packing ∧ CodesLegal packing ∧ packing.codesValid = true ∧
    step packing = .next (ran .pack packing) :=
  ⟨fun h => by exact absurd h (by decide +kernel), codesLegal_congr (s := golden) rfl rfl rfl rfl rfl golden_legal,
    by decide +kernel, exec_ran .pack packing⟩

theorem witness_StepKeepsPlatform : let s := refusing packing 0x1000 .read
    step s = .next (ran .pack s) ∧ s.denied ≠ [] :=
  ⟨exec_ran .pack (refusing packing 0x1000 .read), by decide⟩

theorem witness_BusyWritesDropped : packing.busy = true ∧
    (.pad : WindowReg) ∈ ([.cmd, .srcAddr, .srcLen, .dstAddr, .dstCap, .pad] : List WindowReg) ∧
    (.outLen : WindowReg) ∉ ([.ctrl, .status, .cmd, .srcAddr, .srcLen, .dstAddr, .dstCap, .pad] : List WindowReg) ∧
    ∀ b, (.outLen : WindowReg) ≠ .freq b := ⟨rfl, by decide, by decide, nofun⟩

theorem witness_HostWrites : golden.busy = false ∧
    (.codeLen 0xFF : WindowReg) ∉ ([.ctrl, .status, .cmd, .srcAddr, .srcLen, .dstAddr, .dstCap, .pad] : List WindowReg) ∧
    ∀ b, (.codeLen 0xFF : WindowReg) ≠ .freq b := ⟨rfl, by decide, nofun⟩

/-- Without and with a code table; the last node in use and the first that is not. -/
theorem witness_TableWindows : smallTree.codesValid = false ∧ golden.codesValid = true ∧ golden.treeValid = false ∧
    smallTree.treeValid = true ∧ smallTree.nodeCount.toNat ≤ 3 ∧ 2 < smallTree.nodeCount.toNat ∧
    nodeAt smallTree.node 1 = .leaf 0x42 2 ∧ nodeAt smallTree.node 2 = .internal 3 0 1 :=
  ⟨rfl, rfl, rfl, rfl, by decide, by decide, smallTree_nodes.2⟩

/-- Before a command, while one runs, and between its completion and the read of STATUS. -/
theorem witness_HostReads : (golden.busy = false ∧ golden.unread = false) ∧ packing.busy = true ∧
    ((ran .pack packing).busy = false ∧ (ran .pack packing).unread = true) ∧
    (.cmd : WindowReg) ∈ ([.id, .ctrl, .cmd] : List WindowReg) ∧
    (.unmapped : WindowReg) ∈ ([.srcAddr, .srcLen, .dstAddr, .dstCap, .unmapped] : List WindowReg) := by decide +kernel

/-- The first and the last offset of each unmapped stretch. -/
theorem witness_WindowMap : windowReg 0x048 = .unmapped ∧ windowReg 0x3FC = .unmapped ∧ windowReg 0x1400 = .unmapped ∧
    windowReg 0x1FFC = .unmapped ∧ windowReg 0x3FF0 = .unmapped ∧ windowReg 0x3FFC = .unmapped ∧
    windowReg 0x7FC = .freq 0xFF ∧ windowReg 0x3FEC = .nchild 510 := by decide

/-- The last word of the window, a half word and a misaligned one, and the first word past the window. -/
theorem witness_RegisterAccessForm : (0x3FFC % 4 = 0 ∧ 0x3FFC < 0x4000) ∧ (2 ≠ 4 ∨ 0x008 % 4 ≠ 0) ∧
    (4 ≠ 4 ∨ 0x00A % 4 ≠ 0) ∧ 0x4000 % 4 = 0 ∧ 0x4000 ≤ 0x4000 ∧
    hostStep golden (.readReg 0x4000 4) [] = .refused .outsideWindow ∧
    hostStep golden (.readReg 0x00A 4) [] = .refused .registerAccessForm :=
  ⟨by decide, by decide, by decide, by decide, by decide, rfl, rfl⟩

/-- The last byte of host memory, bytes beside the ranges of a running PACK, and the first address past memory. -/
theorem witness_HostMemoryBytes : (Mem.wf golden.mem = true ∧ 0xFFFFFFFF < 2 ^ 32 ∧
      golden.guards 0xFFFFFFFF .write = false ∧ golden.guards 0xFFFFFFFF .read = false) ∧
    (Mem.wf packing.mem = true ∧ packing.guards 0x0FFF .write = false ∧ packing.guards 0x0FFF .read = false ∧
      packing.guards 0x1000 .write = false) ∧
    2 ^ 32 ≤ 0x100000000 ∧ hostStep golden (.readMem 0x100000000) [] = .fault (.noSuchAddress 0x100000000) :=
  ⟨by decide +kernel, by decide +kernel, by decide, rfl⟩

/-- The ends of both ranges of a running PACK, and the bytes beside them; an acceptance of it, of NOP and of no command. -/
theorem witness_HostDutyRefused :
    (packing.guards 0x1000 .read = true ∧ packing.guards 0x1009 .read = true ∧ packing.guards 0x2000 .write = true ∧
      packing.guards 0x200F .write = true) ∧
    (packing.guards 0x0FFF .read = false ∧ packing.guards 0x100A .read = false ∧ packing.guards 0x1FFF .write = false ∧
      packing.guards 0x2010 .write = false) ∧
    (golden.busy = false ∧ decode 5 = .ok .pack ∧ decode 0 = .ok .nop ∧ decode 9 = .error .reservedOpcode) ∧
    DutyLegal packing ∧ packing.busy = true ∧ decode packing.cmd = .ok .pack ∧ packing.inSrc 0x1009 = true ∧
    packing.inDst 0x200F = true :=
  ⟨by decide +kernel, by decide +kernel, by decide +kernel, witness_StepKeepsStatusLegal.2.1, by decide +kernel⟩

theorem witness_InterruptLevel :
    (let s := { golden with done := true }
     s.done = true ∧ (1 : Word).getLsbD 0 = true ∧ (2 : Word).getLsbD 0 = false ∧ (2 : Word).getLsbD 1 = true ∧
      s.busy = false) ∧
    exec .nop golden = .next (ran .nop golden) := ⟨by decide, exec_ran _ _⟩

theorem witness_WaitTerminates : let s := { packing with holds := 2, hostOps := [.waitIdle] }
    s.busy = true ∧ s.hostOps = .waitIdle :: [] := ⟨rfl, rfl⟩

end Sys2Proof.Machine.Tests
end

section
/-! A command's result depends on no byte outside its source range (00_scope.md R17, 20_memory.md R62): from states that
differ only in such bytes, each command's two answers differ only in memory, and there only in bytes neither has changed. -/

namespace Sys2Proof.Machine

/-- `t`, reached from memory `m`, and `v`, reached from memory `n`, agree but for memory, and each byte of memory is
unchanged in both or the same in both. -/
structure AlikeEnds (m n : List Host.Cell) (t v : State) : Prop where
  rest : v = { t with mem := v.mem }
  bytes : ∀ a, (Mem.read t.mem a = Mem.read m a ∧ Mem.read v.mem a = Mem.read n a) ∨
    Mem.read v.mem a = Mem.read t.mem a

/-- Both outcomes are a next state, and the two end alike. -/
def AlikeOutcomes (m n : List Host.Cell) (x y : Host.Outcome State Fault Refusal) : Prop :=
  ∃ t v, x = .next t ∧ y = .next v ∧ AlikeEnds m n t v

/-- Two commands that make the same check are alike when they are on both of its sides. -/
theorem AlikeOutcomes.ite {m n : List Host.Cell} {x x' y y' : Host.Outcome State Fault Refusal} {c : Prop} [Decidable c]
    (hx : c → AlikeOutcomes m n x x') (hy : ¬c → AlikeOutcomes m n y y') :
    AlikeOutcomes m n (if c then x else y) (if c then x' else y') := by
  split
  · next hc => exact hx hc
  · next hc => exact hy hc

/-- Two steps that leave memory alone and agree on all else. -/
theorem AlikeOutcomes.of_mem_kept {m n : List Host.Cell} {t v : State} (ht : t.mem = m) (hv : v.mem = n)
    (hrest : v = { t with mem := v.mem }) : AlikeOutcomes m n (.next t) (.next v) :=
  ⟨t, v, rfl, rfl, hrest, fun a => Or.inl ⟨by rw [ht], by rw [hv]⟩⟩

theorem SameSource.alike_fail {s u : State} (h : SameSource s u) (hs : Mem.wf s.mem = true) (hu : Mem.wf u.mem = true)
    (r : Raise) : AlikeOutcomes s.mem u.mem (.next (s.fail r)) (.next (u.fail r)) :=
  ⟨_, _, rfl, rfl, (h.fail hs hu r).1, (h.fail hs hu r).2⟩

/-- Two steps that write the same bytes to the destination, which has room for them, and agree on all else. -/
theorem SameSource.alike_written {s u t v : State} (h : SameSource s u) (hs : Mem.wf s.mem = true)
    (hu : Mem.wf u.mem = true) {l : List Byte} (hr : s.rangesOk = true)
    (hl : (s.sinkOf l).out ≤ s.dstCap.toNat)
    (ht : t.mem = (s.sinkOf l).mem) (hv : v.mem = (u.sinkOf l).mem) (hrest : v = { t with mem := v.mem }) :
    AlikeOutcomes s.mem u.mem (.next t) (.next v) := by
  have hfit := State.dstFits_iff.1 (State.rangesOk_iff.1 hr).2.1
  have hroom : s.dstAddr.toNat + l.length ≤ Config.memSize := by
    rw [State.sinkOf_out] at hl
    omega
  refine ⟨t, v, rfl, rfl, hrest, fun a => ?_⟩
  rw [ht, hv]
  exact h.written hs hu hroom a

/-! ### Each command -/

section
variable {s : State} {m : List Host.Cell} (h : SameSource s { s with mem := m }) (hs : Mem.wf s.mem = true)
  (hm : Mem.wf m = true)
include h hs hm

theorem SameSource.execCountFreq :
    AlikeOutcomes s.mem m (Machine.execCountFreq s) (Machine.execCountFreq { s with mem := m }) := by
  have hloop := h.countLoop (n := s.srcLen.toNat) (j := 0) (by omega) s.freq
  refine .ite (fun _ => ?_) fun _ => h.alike_fail hs hm _
  simp only [hloop]
  cases Machine.countLoop s s.srcLen.toNat 0 s.freq with
  | mk f e =>
    cases e with
    | none => exact .of_mem_kept rfl rfl rfl
    | some r =>
      have hf : SameSource { s with freq := f } { s with freq := f, mem := m } := ⟨rfl, h.bytes⟩
      exact hf.alike_fail hs hm r

theorem SameSource.execBuildTree :
    AlikeOutcomes s.mem m (Machine.execBuildTree s) (Machine.execBuildTree { s with mem := m }) := by
  have hd : SameSource (dropTree s) (dropTree { s with mem := m }) := ⟨rfl, h.bytes⟩
  exact .ite (fun _ => hd.alike_fail hs hm _) fun _ => .of_mem_kept rfl rfl rfl

theorem SameSource.execAssignCodes :
    AlikeOutcomes s.mem m (Machine.execAssignCodes s) (Machine.execAssignCodes { s with mem := m }) := by
  have ha : ({ s with mem := m } : State).assigned = s.assigned := rfl
  refine .ite (fun _ => ?_) fun _ => h.alike_fail hs hm _
  rw [ha]
  cases tooLong s.assigned with
  | nil => exact .of_mem_kept rfl rfl rfl
  | cons b bs => exact h.alike_fail hs hm _

theorem SameSource.execPack :
    AlikeOutcomes s.mem m (Machine.execPack s) (Machine.execPack { s with mem := m }) := by
  refine .ite (fun _ => .ite (fun hr => ?_) fun _ => h.alike_fail hs hm _) fun _ => h.alike_fail hs hm _
  rcases h.packRun with ⟨r, hx, hy⟩ | ⟨l, p, hx, hy⟩
  · rw [hx, hy]; exact h.alike_fail hs hm r
  · obtain ⟨l', hk, hl⟩ := packRun_ok hx
    rw [hx, hy]
    exact h.alike_written hs hm hr (hk ▸ hl) rfl rfl rfl

theorem SameSource.execUnpack :
    AlikeOutcomes s.mem m (Machine.execUnpack s) (Machine.execUnpack { s with mem := m }) := by
  refine .ite (fun _ => .ite (fun hr => ?_) fun _ => h.alike_fail hs hm _) fun _ => h.alike_fail hs hm _
  rcases h.unpackRun with ⟨r, hx, hy⟩ | ⟨l, hx, hy⟩
  · rw [hx, hy]; exact h.alike_fail hs hm r
  · obtain ⟨l', hk, hl⟩ := unpackRun_ok hx
    rw [hx, hy]
    exact h.alike_written hs hm hr (hk ▸ hl) rfl rfl rfl

theorem SameSource.execSerialize :
    AlikeOutcomes s.mem m (Machine.execSerialize s) (Machine.execSerialize { s with mem := m }) := by
  refine .ite (fun _ => .ite (fun hr => ?_) fun _ => h.alike_fail hs hm _) fun _ => h.alike_fail hs hm _
  rcases h.serializeRun with ⟨r, hx, hy⟩ | ⟨l, hx, hy⟩
  · rw [hx, hy]; exact h.alike_fail hs hm r
  · obtain ⟨hk, hl⟩ := serializeRun_ok hx
    rw [hx, hy]
    exact h.alike_written hs hm hr (hk ▸ hl) rfl rfl rfl

theorem SameSource.execDeserialize :
    AlikeOutcomes s.mem m (Machine.execDeserialize s) (Machine.execDeserialize { s with mem := m }) := by
  have hd : SameSource (dropCodes s) (dropCodes { s with mem := m }) := ⟨rfl, h.bytes⟩
  unfold Machine.execDeserialize
  rw [h.parseContainer]
  cases Machine.parseContainer s with
  | error r => exact hd.alike_fail hs hm r
  | ok a => exact .of_mem_kept rfl rfl rfl

/-- 00_scope.md R17: whatever the command, its two runs end alike. -/
theorem SameSource.exec (i : Instr) :
    AlikeOutcomes s.mem m (Machine.exec i s) (Machine.exec i { s with mem := m }) := by
  cases i with
  | nop => exact .of_mem_kept rfl rfl rfl
  | clear => exact .of_mem_kept rfl rfl rfl
  | countFreq => exact h.execCountFreq hs hm
  | buildTree => exact h.execBuildTree hs hm
  | assignCodes => exact h.execAssignCodes hs hm
  | pack => exact h.execPack hs hm
  | unpack => exact h.execUnpack hs hm
  | serialize => exact h.execSerialize hs hm
  | deserialize => exact h.execDeserialize hs hm

end

/-- Memories that agree on the source range make states with the same source. -/
theorem SameSource.of_inSrc {s : State} {m : List Host.Cell}
    (h : ∀ a, s.inSrc a = true → Mem.read m a = Mem.read s.mem a) : SameSource s { s with mem := m } :=
  ⟨rfl, fun j hj => h _ (by simp [State.inSrc, hj])⟩

/-- Settles O42, by the agreement of the two runs of each command (`SameSource.exec`). -/
theorem resultsIndependentOfOtherMemory : Obligations.ResultsIndependentOfOtherMemory := by
  unfold Obligations.ResultsIndependentOfOtherMemory
  intro i s t m hs hm hsrc ht
  obtain ⟨t', v, hx, hy, hrest, hbytes⟩ := (SameSource.of_inSrc hsrc).exec hs hm i
  obtain rfl : t' = t := by
    rw [ht] at hx
    cases hx
    rfl
  exact ⟨v.mem, by rw [hy, ← hrest], hbytes⟩

end Sys2Proof.Machine
end

section
/-! What one step can do to the arena, the code tables and the registers that describe them (10_state.md R34 to R37, R40, R42):
one closed list, `TableEnds`. Each invariant of the tables is a case analysis over it. -/

namespace Sys2Proof.Machine

/-- The arena, the code tables and the registers that describe them are the same in both states. -/
structure SameTables (s t : State) : Prop where
  node : t.node = s.node
  codeLen : t.codeLen = s.codeLen
  codeBits : t.codeBits = s.codeBits
  treeValid : t.treeValid = s.treeValid
  codesValid : t.codesValid = s.codesValid
  root : t.root = s.root
  nodeCount : t.nodeCount = s.nodeCount
  symCount : t.symCount = s.symCount
  maxLen : t.maxLen = s.maxLen

theorem SameTables.refl (s : State) : SameTables s s := by constructor <;> rfl

theorem SameTables.complete (s : State) : SameTables s s.complete := by constructor <;> rfl

theorem SameTables.fail (s : State) (r : Raise) : SameTables s (s.fail r) := by constructor <;> simp

theorem SameTables.readWindow (s : State) (r : WindowReg) : SameTables s (readWindow s r) := by
  obtain ⟨v, d, u, g, h⟩ := readWindow_keeps s r
  rw [h]
  constructor <;> rfl

theorem SameTables.writeWindow (s : State) (r : WindowReg) (v : Word) : SameTables s (writeWindow s r v) := by
  obtain ⟨-, -, hnode, hlen, hbits, htree, hcodes, hroot, hcount, hsym, hmax, -⟩ := writeWindow_keeps s r v
  exact ⟨hnode, hlen, hbits, htree, hcodes, hroot, hcount, hsym, hmax⟩

theorem SameTables.waitStep (s : State) (rest : List HostOp) : SameTables s (waitStep s rest) := by
  obtain ⟨v, q, n, u, g, h⟩ := waitStep_keeps s rest
  rw [h]
  constructor <;> rfl

theorem SameTables.readHostMem (s : State) (a : Nat) : SameTables s (readHostMem s a) := by
  rw [readHostMem_eq]
  constructor <;> rfl

theorem SameTables.popHost {s t : State} {rest : List HostOp} (h : SameTables (s.popHost rest) t) : SameTables s t :=
  ⟨h.node, h.codeLen, h.codeBits, h.treeValid, h.codesValid, h.root, h.nodeCount, h.symCount, h.maxLen⟩

/-- The tables after one step from `s` are those of `u`: kept, after reset, or written by one of the commands that write
them (30_encoding.md R85). -/
inductive TableEnds (s : State) : State → Prop
  | kept : TableEnds s s
  | reset : TableEnds s State.reset
  | cleared : TableEnds s (clearTables s)
  | noTree : TableEnds s (dropTree s)
  | tree (t : Vector Node 511) (n : Nat) (h0 : 1 ≤ n) (hn : n ≤ 256) (hs : TreeShape t (2 * n - 1)) :
      TableEnds s (setTree s t [2 * n - 2] (2 * n - 1))
  | codes (hv : s.treeValid = true) (h : tooLong s.assigned = []) : TableEnds s (setCodes s s.assigned)
  | loaded (syms : List Byte) (vals : List Nat) (pad : Byte) (payload : List Byte)
      (h : ContainerLegal syms vals pad payload) :
      TableEnds s (setContainer s syms.length (syms ++ vals.flatMap (bytesBE 8) ++ [pad]))
  | noCodes : TableEnds s (dropCodes s)

/-- What a command leaves in the tables. -/
theorem Ends.tables {i : Instr} {s t : State} (he : Ends s i t) : ∃ u, TableEnds s u ∧ SameTables u t := by
  cases he with
  | nop => exact ⟨s, .kept, .complete s⟩
  | clear => exact ⟨_, .cleared, .complete _⟩
  | counted f => exact ⟨s, .kept, by constructor <;> rfl⟩
  | countError f r hr => exact ⟨s, .kept, by constructor <;> simp⟩
  | noTree h => exact ⟨_, .noTree, .fail _ _⟩
  | tree a h hm hs => exact ⟨_, .tree a _ (Nat.one_le_iff_ne_zero.2 h) s.symbolsPresent_le hs, .complete _⟩
  | codes hv h => exact ⟨_, .codes hv h, .complete _⟩
  | packed l p hf hl => exact ⟨s, .kept, by constructor <;> rfl⟩
  | unpacked l hf hl => exact ⟨s, .kept, by constructor <;> rfl⟩
  | serialized hf hl => exact ⟨s, .kept, by constructor <;> rfl⟩
  | codesError r | packError r | unpackError r | serializeError r => exact ⟨s, .kept, .fail s r⟩
  | loaded syms vals pad payload h hs => exact ⟨_, .loaded syms vals pad payload h, .complete _⟩
  | loadError r hr => exact ⟨_, .noCodes, .fail _ r⟩

/-- What a step leaves in the tables. -/
theorem tables_of_step {s t : State} (h : step s = .next t) : ∃ u, TableEnds s u ∧ SameTables u t := by
  cases stepEnds_of_step h with
  | command i _ hb he => exact he.tables
  | illegal hb => exact ⟨s, .kept, .fail s _⟩
  | idle => exact ⟨s, .kept, .refl s⟩
  | readReg rest r => exact ⟨s, .kept, (SameTables.readWindow _ r).popHost⟩
  | writeReg rest r v => exact ⟨s, .kept, (SameTables.writeWindow _ r v).popHost⟩
  | wait rest => exact ⟨s, .kept, .waitStep s rest⟩
  | readMem rest a => exact ⟨s, .kept, (SameTables.readHostMem _ a).popHost⟩
  | writeMem rest a v ha => exact ⟨s, .kept, by constructor <;> rfl⟩
  | reset rest => exact ⟨State.reset, .reset, by constructor <;> rfl⟩

/-! ### The three invariants look at these fields only -/

theorem SameTables.treeLegal {s t : State} (h : SameTables s t) (hs : TreeLegal s) : TreeLegal t := by
  unfold TreeLegal at hs ⊢
  rwa [h.treeValid, h.root, h.nodeCount, h.node]

theorem SameTables.codesLegal {s t : State} (h : SameTables s t) (hs : CodesLegal s) : CodesLegal t :=
  codesLegal_congr h.codeLen h.codeBits h.codesValid h.symCount h.maxLen hs

theorem SameTables.tableRegsLegal {s t : State} (h : SameTables s t) (hs : TableRegsLegal s) : TableRegsLegal t := by
  unfold TableRegsLegal at hs ⊢
  rwa [h.treeValid, h.root, h.nodeCount, h.codesValid, h.symCount, h.maxLen]

theorem treeLegal_of_no_tree {s : State} (h : s.treeValid = false) : TreeLegal s := fun hv => by
  rw [h] at hv
  cases hv

/-- Without a code table only the size of the stored codes is asked for (10_state.md R42). -/
theorem codesLegal_of_no_codes {s : State} (h : s.codesValid = false)
    (hbits : ∀ b, (tabGet s.codeBits b).toNat < 2 ^ (tabGet s.codeLen b).toNat) : CodesLegal s :=
  ⟨hbits, fun hv => by rw [h] at hv; cases hv⟩

/-- BUILD_TREE's `2 n - 1` nodes fit in NODE_COUNT, and the index of the last in ROOT (40_table_build.md R113). -/
theorem treeLegal_setTree {s : State} {t : Vector Node 511} {n : Nat} (h0 : 1 ≤ n) (hn : n ≤ 256)
    (hs : TreeShape t (2 * n - 1)) : TreeLegal (setTree s t [2 * n - 2] (2 * n - 1)) := by
  intro _
  have hcount : (BitVec.ofNat 10 (2 * n - 1)).toNat = 2 * n - 1 := Nat.mod_eq_of_lt (by omega)
  have hroot : (BitVec.ofNat 9 (2 * n - 2)).toNat = 2 * n - 2 := Nat.mod_eq_of_lt (by omega)
  simp only [setTree_root, setTree_nodeCount, setTree_node, List.headD_cons, hcount, hroot]
  exact ⟨by omega, hs⟩

/-! ### After reset -/

theorem treeLegal_reset : TreeLegal State.reset := treeLegal_of_no_tree rfl

theorem codesLegal_reset : CodesLegal State.reset :=
  codesLegal_of_no_codes rfl fun b => by simp [State.reset]

theorem tableRegsLegal_reset : TableRegsLegal State.reset := ⟨fun _ => ⟨rfl, rfl⟩, fun _ => ⟨rfl, rfl⟩⟩

/-! ### Each way a step can leave the tables -/

theorem TableEnds.treeLegal {s u : State} (h : TableEnds s u) (hs : TreeLegal s) : TreeLegal u := by
  cases h with
  | kept => exact hs
  | reset => exact treeLegal_reset
  | cleared | noTree | codes => exact treeLegal_of_no_tree rfl
  | tree t n h0 hn hshape => exact treeLegal_setTree h0 hn hshape
  | loaded | noCodes => exact hs

theorem TableEnds.codesLegal {s u : State} (h : TableEnds s u) (ht : TreeLegal s) (hs : CodesLegal s) : CodesLegal u := by
  cases h with
  | kept | noTree | tree => exact hs
  | reset => exact codesLegal_reset
  | cleared | noCodes => exact codesLegal_of_no_codes rfl hs.1
  | codes hv hlen => exact setCodes_codesLegal ht hv hlen
  | loaded syms vals pad payload hbox => exact hbox.codesLegal

theorem TableEnds.tableRegsLegal {s u : State} (h : TableEnds s u) (hs : TableRegsLegal s) : TableRegsLegal u := by
  obtain ⟨htree, hcodes⟩ := hs
  cases h with
  | kept => exact ⟨htree, hcodes⟩
  | reset => exact tableRegsLegal_reset
  | cleared => exact ⟨fun _ => ⟨rfl, rfl⟩, fun _ => ⟨rfl, rfl⟩⟩
  | noTree => exact ⟨fun _ => ⟨rfl, rfl⟩, hcodes⟩
  | tree => exact ⟨nofun, hcodes⟩
  | codes => exact ⟨fun _ => ⟨rfl, rfl⟩, nofun⟩
  | loaded => exact ⟨htree, nofun⟩
  | noCodes => exact ⟨htree, fun _ => ⟨rfl, rfl⟩⟩

/-! ### The obligations -/

/-- Settles O46: BUILD_TREE alone makes a tree, and its tree has the shape (`treeLegal_setTree`); no other step touches the
arena while TREE_VALID is 1. -/
theorem stepKeepsTreeLegal : Obligations.StepKeepsTreeLegal := by
  unfold Obligations.StepKeepsTreeLegal
  intro s t hs h
  obtain ⟨u, hu, hut⟩ := tables_of_step h
  exact hut.treeLegal (hu.treeLegal hs)

/-- Settles O47: ASSIGN_CODES and DESERIALIZE alone make a code table, from a tree (`setCodes_codesLegal`) and from a legal
container (`ContainerLegal.codesLegal`). -/
theorem stepKeepsCodesLegal : Obligations.StepKeepsCodesLegal := by
  unfold Obligations.StepKeepsCodesLegal
  intro s t ht hs h
  obtain ⟨u, hu, hut⟩ := tables_of_step h
  exact hut.codesLegal (hu.codesLegal ht hs)

/-- Settles O45: every step that clears a valid bit clears its registers too. -/
theorem stepKeepsTableRegs : Obligations.StepKeepsTableRegs := by
  unfold Obligations.StepKeepsTableRegs
  intro s t hs h
  obtain ⟨u, hu, hut⟩ := tables_of_step h
  exact hut.tableRegsLegal (hu.tableRegsLegal hs)

end Sys2Proof.Machine
end

section
/-! The state after reset (10_state.md R51) and whose turn a step is (R20, 60_exceptions.md R215). -/

namespace Sys2Proof.Machine

/-- Reset, and the reset event alike: only the fields that are not the block's registers or tables vary. -/
theorem reset_fields {t : State}
    (h : t = State.reset ∨ ∃ (s : State) (rest : List HostOp), hostStep s .resetBlock rest = .next t) :
    t = { State.reset with
          mem := t.mem, draws := t.draws, denied := t.denied, hostOps := t.hostOps, schedule := t.schedule,
          hostRead := t.hostRead } := by
  rcases h with rfl | ⟨s, rest, h⟩
  · rfl
  · cases h
    rfl

/-- The reset event leaves memory alone while no command runs (70_reset_and_hazards.md R230). -/
theorem resetEvent_mem_idle {s : State} (h : s.busy = false) : (resetEvent s).mem = s.mem := by
  have hd : s.dstInUse = false := by simp [State.dstInUse, h]
  show (afterAbandon s).mem = s.mem
  rw [afterAbandon, hd]
  rfl

theorem statusWord_reset : State.reset.statusWord = 0 := by decide

/-- Settles O4: the values are those of `State.reset`, which the reset event takes over (`reset_fields`). -/
theorem resetValues : Obligations.ResetValues := by
  unfold Obligations.ResetValues
  refine ⟨fun t ht => ?_, fun s t rest hb ht => ?_⟩
  · rw [reset_fields ht]
    exact ⟨rfl, rfl, rfl, statusWord_reset, rfl, rfl, rfl, rfl, rfl, rfl, rfl, rfl, rfl, rfl, rfl, rfl, rfl, rfl, rfl, rfl,
      rfl, rfl, rfl,
      tabGet_replicate 0, rfl, fun _ => ⟨rfl, rfl, rfl, rfl⟩, fun _ => ⟨rfl, rfl, rfl⟩⟩
  · cases ht
    exact resetEvent_mem_idle (s := s.popHost rest) hb

theorem statusLegal_reset : StatusLegal State.reset := by unfold StatusLegal; decide

theorem dutyLegal_reset : DutyLegal State.reset := ⟨nofun, fun _ => rfl⟩

/-- Settles O5: each invariant holds of the state after reset. -/
theorem resetIsSafe : Obligations.ResetIsSafe :=
  ⟨rfl, statusLegal_reset, dutyLegal_reset, tableRegsLegal_reset, treeLegal_reset, codesLegal_reset⟩

/-! ### Whose turn it is -/

theorem step_command {s : State} {i : Instr} (hb : s.blockTurn = true) (hd : decode s.cmd = .ok i) :
    step s = exec i s := by
  unfold step
  rw [if_pos hb, hd]

theorem step_host {s : State} (hb : s.blockTurn = false) : step s = hostTurn s := by
  unfold step
  rw [if_neg (by simp [hb])]

theorem hostTurn_cons {s : State} {op : HostOp} {rest : List HostOp} (h : s.hostOps = op :: rest) :
    hostTurn s = hostStep s op rest := by
  unfold hostTurn
  rw [h]

theorem hostTurn_nil {s : State} (h : s.hostOps = []) : hostTurn s = .next s := by
  unfold hostTurn
  rw [h]

theorem blockTurn_of_idle {s : State} (h : s.busy = false) : s.blockTurn = false := by simp [State.blockTurn, h]

theorem withFetchWord_blockTurn (s : State) (nbits w : Nat) : (s.withFetchWord nbits w).blockTurn = true := rfl

theorem withFetchWord_cmd (s : State) (nbits w : Nat) : (s.withFetchWord nbits w).cmd = tableWord nbits w := rfl

/-- What the opcode table's numbering reads is what the decoder reads from the word. -/
theorem decode_tableWord {nbits w : Nat} {i : Instr} (h : decodeTableWord nbits w = some i) :
    decode (tableWord nbits w) = .ok i := by
  unfold decodeTableWord at h
  split at h
  · split at h
    · next j hj =>
      cases h
      exact hj
    · cases h
  · cases h

/-- Settles O7, by the equations of `step` on the block's turn and on the host's. -/
theorem stepRunsDecodedCommand : Obligations.StepRunsDecodedCommand := by
  unfold Obligations.StepRunsDecodedCommand
  refine ⟨fun s i hb hd => step_command hb hd, fun s op rest hb hq => ?_, fun s hb hq => ?_, fun s nbits w i h => ?_⟩
  · rw [step_host hb, hostTurn_cons hq]
  · rw [step_host (blockTurn_of_idle hb), hostTurn_nil hq]
  · exact step_command (withFetchWord_blockTurn s nbits w) (by rw [withFetchWord_cmd, decode_tableWord h])

end Sys2Proof.Machine
end

section
/-! The register window: host writes (10_state.md R23 to R47), what each place reads (R22 to R45), host reads (R48), the map
(R52) and the form of an access (R46). -/

namespace Sys2Proof.Machine

/-! ### Host writes -/

theorem writeWindow_of_busy {s : State} (h : s.busy = true) (r : WindowReg) (v : Word) :
    writeWindow s r v = writeBusy s r v := by
  unfold writeWindow
  rw [if_pos h]

theorem writeWindow_of_idle {s : State} (h : s.busy = false) (r : WindowReg) (v : Word) :
    writeWindow s r v = writeIdle s r v := by
  unfold writeWindow
  rw [if_neg (by simp [h])]

/-- CTRL is written at any time (10_state.md R23, R47). -/
theorem writeWindow_ctrl (s : State) (v : Word) : writeWindow s .ctrl v = { s with ie := v.getLsbD 0 } := by
  unfold writeWindow
  split <;> rfl

/-- STATUS is written at any time (R25, R47). -/
theorem writeWindow_status (s : State) (v : Word) :
    writeWindow s .status v = { s with done := s.done && !v.getLsbD 1, dropped := s.dropped && !v.getLsbD 3 } := by
  unfold writeWindow
  split <;> rfl

/-- Every place no rule lets the host write ignores a write at any time (R45, R47). -/
theorem writeWindow_readOnly {s : State} {r : WindowReg} {v : Word}
    (hr : r ∉ ([.ctrl, .status, .cmd, .srcAddr, .srcLen, .dstAddr, .dstCap, .pad] : List WindowReg))
    (hf : ∀ b, r ≠ .freq b) : writeWindow s r v = s := by
  unfold writeWindow
  cases r with
  | ctrl | status | cmd | srcAddr | srcLen | dstAddr | dstCap | pad => simp at hr
  | freq b => exact absurd rfl (hf b)
  | _ => split <;> rfl

/-- Settles O49, place by place. -/
theorem busyWritesDropped : Obligations.BusyWritesDropped := by
  unfold Obligations.BusyWritesDropped
  refine fun s r v => ⟨fun hb hr => ?_, fun _ => ⟨writeWindow_ctrl s v, writeWindow_status s v⟩,
    fun hr hf => writeWindow_readOnly hr hf⟩
  rw [writeWindow_of_busy hb]
  rcases hr with hr | ⟨b, rfl⟩
  · simp only [List.mem_cons, List.not_mem_nil, or_false] at hr
    rcases hr with rfl | rfl | rfl | rfl | rfl | rfl <;> rfl
  · rfl

/-- Settles O50, place by place. -/
theorem hostWrites : Obligations.HostWrites := by
  unfold Obligations.HostWrites
  refine fun s v => ⟨writeWindow_ctrl s v, writeWindow_status s v, fun hb => ?_⟩
  have hidle := fun r => writeWindow_of_idle hb r v
  refine ⟨hidle .srcAddr, hidle .srcLen, hidle .dstAddr, hidle .dstCap, ?_, fun b => ⟨fun c => ?_, ?_⟩,
    fun r hr hf => writeWindow_readOnly hr hf⟩
  · rw [hidle .pad, ← BitVec.setWidth_eq_extractLsb' (by omega)]
    rfl
  · rw [hidle (.freq b)]
    exact tabGet_tabSet s.freq b c v
  · rw [hidle (.freq b)]
    rfl

/-! ### What each place reads -/

/-- Settles O51, by the bits of the word STATUS reads (`State.statusWord_getLsbD`). -/
theorem statusWordBits : Obligations.StatusWordBits := by
  unfold Obligations.StatusWordBits
  intro s
  simp only [State.regValue, State.statusWord_getLsbD]
  refine ⟨by simp, by simp, by simp [State.err, bne, Bool.beq_eq_decide_eq], by simp, by simp, by simp, fun i hi => ?_⟩
  have hne : ∀ k < 6, i ≠ k := fun k hk => by omega
  simp [hne]

/-- Settles O52, register by register. -/
theorem registerReads : Obligations.RegisterReads := by
  unfold Obligations.RegisterReads
  intro s
  have narrow : ∀ {n : Nat} (x : BitVec n), n ≤ 32 → (x.setWidth 32).toNat = x.toNat :=
    fun _ => BitVec.toNat_setWidth_of_le
  refine ⟨rfl, ?_, rfl, narrow _ (by omega), rfl, rfl, rfl, rfl, rfl, rfl, narrow _ (by omega), narrow _ (by omega),
    narrow _ (by omega), narrow _ (by omega), narrow _ (by omega), rfl, rfl, fun _ => rfl, rfl⟩
  show (flagBit s.ie 0).toNat = s.ie.toNat
  cases s.ie <;> rfl

/-- A wide value shown in two words is whole: the low word and the rest above it. -/
theorem low_add_high_word {n k : Nat} (hn : n ≤ 32 + k) (hk : k ≤ 32) (x : BitVec n) :
    (x.extractLsb' 0 32).toNat + 2 ^ 32 * ((x.extractLsb' 32 k).setWidth 32).toNat = x.toNat := by
  have hx : x.toNat < 2 ^ (32 + k) := lt_of_lt_of_le x.isLt (Nat.pow_le_pow_right (by omega) hn)
  have hhigh : x.toNat / 2 ^ 32 < 2 ^ k := Nat.div_lt_of_lt_mul (by rwa [← pow_add])
  rw [BitVec.toNat_setWidth_of_le hk, BitVec.extractLsb'_toNat, BitVec.extractLsb'_toNat, Nat.shiftRight_eq_div_pow,
    Nat.shiftRight_eq_div_pow, Nat.mod_eq_of_lt hhigh, pow_zero, Nat.div_one, Nat.mod_add_div]

theorem ninfoWord_leaf (b : Byte) (f : BitVec 40) : (ninfoWord (.leaf b f)).toNat = b.toNat :=
  BitVec.toNat_setWidth_of_le (by omega)

/-- The two children of NCHILD stand side by side (10_state.md R43). -/
theorem nchildWord_internal (f : BitVec 40) (l r : BitVec 9) :
    (nchildWord (.internal f l r)).toNat = l.toNat + 2 ^ 16 * r.toNat := by
  have hl := l.isLt
  have hr := r.isLt
  have hshift : (r.setWidth 32 <<< 16 : Word).toNat = 2 ^ 16 * r.toNat := by
    rw [BitVec.toNat_shiftLeft, BitVec.toNat_setWidth_of_le (by omega), Nat.shiftLeft_eq, Nat.mod_eq_of_lt (by omega),
      mul_comm]
  show (l.setWidth 32 ||| r.setWidth 32 <<< 16 : Word).toNat = _
  rw [BitVec.toNat_or, hshift, BitVec.toNat_setWidth_of_le (by omega), Nat.lor_comm,
    ← Nat.two_pow_add_eq_or_of_lt (by omega), Nat.add_comm]

/-- Settles O53: a window shows its entry exactly while the entry is valid. -/
theorem tableWindows : Obligations.TableWindows := by
  unfold Obligations.TableWindows
  refine fun s => ⟨fun b => ⟨fun hv => ?_, fun hv => ?_⟩, fun i => ⟨fun hv => ?_, fun hv hi => ?_⟩⟩
  · simp [State.regValue, hv]
  · simp only [State.regValue, hv, if_true]
    exact ⟨BitVec.toNat_setWidth_of_le (by omega), low_add_high_word (by omega) (by omega) _⟩
  · have hshown : s.nodeShown i = false := by
      rcases hv with hv | hi
      · simp [State.nodeShown, hv]
      · simp [State.nodeShown, hi]
    simp [State.regValue, hshown]
  · have hshown : s.nodeShown i = true := by simp [State.nodeShown, hv, hi]
    simp only [State.regValue, hshown, if_true]
    refine ⟨low_add_high_word (by omega) (by omega) _, fun b f hn => ?_, fun f l r hn => ?_⟩
    · rw [hn]
      exact ⟨ninfoWord_leaf b f, rfl⟩
    · rw [hn]
      exact ⟨rfl, nchildWord_internal f l r⟩

/-! ### Host reads -/

/-- An exact read of any place but STATUS. -/
theorem readWindow_exact {s : State} {r : WindowReg} (he : s.readsExactly r = true) (hr : r ≠ .status) :
    readWindow s r = { s with hostRead := s.regValue r } := by
  unfold readWindow readExact
  rw [if_pos he]
  split
  · exact absurd rfl hr
  · rfl

/-- While a command runs a read of STATUS gives the word and changes nothing else. -/
theorem readWindow_status_busy {s : State} (hb : s.busy = true) :
    readWindow s .status = { s with hostRead := s.statusWord } := by
  show s.seeStatus.hostGets s.statusWord = _
  rw [State.seeStatus_busy_eq hb]
  rfl

/-- A read of STATUS that shows BUSY = 0 also makes results defined and ends the guarding of ranges. -/
theorem readWindow_status_idle {s : State} (hb : s.busy = false) :
    readWindow s .status = { s with hostRead := s.statusWord, unread := false, guarded := [] } := by
  show s.seeStatus.hostGets s.statusWord = _
  rw [State.seeStatus_idle_eq hb]
  rfl

/-- No register shows what the host got last, or which results and ranges are open. -/
theorem regValue_settled (s : State) (v : Word) (r : WindowReg) :
    State.regValue { s with hostRead := v, unread := false, guarded := [] } r = s.regValue r := by
  cases r <;> rfl

/-- Once the host has read BUSY = 0, every read is exact (10_state.md R48). -/
theorem readsExactly_read {s : State} (hb : s.busy = false) (hu : s.unread = false) (r : WindowReg) :
    s.readsExactly r = true := by simp [State.readsExactly, hb, hu]

theorem readWindow_hostRead {s : State} (hb : s.busy = false) (hu : s.unread = false) (r : WindowReg) :
    (readWindow s r).hostRead = s.regValue r := by
  by_cases hr : r = .status
  · subst hr
    rfl
  · rw [readWindow_exact (readsExactly_read hb hu r) hr]

/-- While no command runs, a read of a place that holds no result is exact (log 22). -/
theorem readsExactly_idle {s : State} {r : WindowReg} (hb : s.busy = false) (hr : r.holdsResult = false) :
    s.readsExactly r = true := by simp [State.readsExactly, hb, hr]

/-- Settles O54: a read is exact or draws a free value, and a read of STATUS that shows BUSY = 0 makes all exact. -/
theorem hostReads : Obligations.HostReads := by
  unfold Obligations.HostReads
  refine fun s r => ⟨fun hr => ?_, fun hb => ?_, fun hb => ⟨?_, fun hr => ?_, ?_⟩, fun hr => ?_⟩
  · simp only [List.mem_cons, List.not_mem_nil, or_false] at hr
    rcases hr with rfl | rfl | rfl <;> rfl
  · exact readWindow_status_busy hb
  · exact readWindow_status_idle hb
  · rcases hr with hr | ⟨hu, hne⟩
    · simp only [List.mem_cons, List.not_mem_nil, or_false] at hr
      rcases hr with rfl | rfl | rfl | rfl | rfl <;> exact readWindow_exact (readsExactly_idle hb rfl) nofun
    · exact readWindow_exact (readsExactly_read hb hu r) hne
  · rw [readWindow_status_idle hb, ← regValue_settled s s.statusWord r]
    refine readWindow_hostRead ?_ rfl r
    exact hb
  · by_cases he : s.readsExactly r = true
    · exact ⟨_, s.draws, readWindow_exact he hr⟩
    · exact ⟨_, _, by rw [readWindow, if_neg he]⟩

/-! ### The map -/

theorem entryOf_offset (base : Nat) (b : Byte) : entryOf base (base + 4 * b.toNat) = b := by
  rw [entryOf, Nat.add_sub_cancel_left, Nat.mul_div_cancel_left _ (by omega), BitVec.ofNat_toNat, BitVec.setWidth_eq]

/-- The four tables with an entry per symbol. -/
theorem windowReg_entry (b : Byte) :
    windowReg (0x400 + 4 * b.toNat) = .freq b ∧ windowReg (0x800 + 4 * b.toNat) = .codeLen b ∧
      windowReg (0xC00 + 4 * b.toNat) = .codeLo b ∧ windowReg (0x1000 + 4 * b.toNat) = .codeHi b := by
  have hb := b.isLt
  refine ⟨?_, ?_, ?_, ?_⟩ <;> rw [windowReg_high (by omega)] <;>
    simp (disch := omega) only [if_neg, if_pos, entryOf_offset]

/-- The arena's part of the window. -/
theorem windowReg_arena {off : Nat} (h : 0x2000 ≤ off) (h' : off < 0x3FF0) : windowReg off = nodeWordOf off := by
  rw [windowReg_high (by omega)]
  simp (disch := omega) only [if_neg, if_pos]

/-- The four words of an arena node. -/
theorem nodeWordOf_offset (i : Nat) :
    nodeWordOf (0x2000 + 16 * i) = .nfreqLo i ∧ nodeWordOf (0x2000 + 16 * i + 4) = .nfreqHi i ∧
      nodeWordOf (0x2000 + 16 * i + 8) = .ninfo i ∧ nodeWordOf (0x2000 + 16 * i + 12) = .nchild i := by
  have hmod : ∀ k < 16, (0x2000 + 16 * i + k) % 16 = k := fun k hk => by omega
  have hdiv : ∀ k < 16, (0x2000 + 16 * i + k - 0x2000) / 16 = i := fun k hk => by omega
  have hword : ∀ k < 16, nodeWordOf (0x2000 + 16 * i + k) =
      if k = 0 then .nfreqLo i else if k = 4 then .nfreqHi i else if k = 8 then .ninfo i else .nchild i := fun k hk => by
    rw [nodeWordOf, hmod k hk, hdiv k hk]
  exact ⟨hword 0 (by omega), hword 4 (by omega), hword 8 (by omega), hword 12 (by omega)⟩

/-- The offsets between and past the tables. -/
theorem windowReg_unmapped {off : Nat}
    (h : (0x048 ≤ off ∧ off ≤ 0x3FC) ∨ (0x1400 ≤ off ∧ off ≤ 0x1FFC) ∨ 0x3FF0 ≤ off) : windowReg off = .unmapped := by
  rw [windowReg_high (by omega)]
  rcases h with h | h | h <;> simp (disch := omega) only [if_neg, if_pos]

/-- Settles O55: the named offsets by the map's own rows, the tables and the unmapped stretches by the lemmas above. -/
theorem windowMap : Obligations.WindowMap := by
  unfold Obligations.WindowMap
  refine ⟨rfl, rfl, rfl, rfl, rfl, rfl, rfl, rfl, rfl, rfl, rfl, rfl, rfl, rfl, rfl, rfl, rfl, rfl, windowReg_entry,
    fun i hi => ?_, fun off _ h => windowReg_unmapped (by omega)⟩
  rw [windowReg_arena (by omega) (by omega), windowReg_arena (by omega) (by omega), windowReg_arena (by omega) (by omega),
    windowReg_arena (by omega) (by omega)]
  exact nodeWordOf_offset i

/-! ### The form of an access -/

theorem accessFormOk_iff {off bytes : Nat} : accessFormOk off bytes = true ↔ bytes = 4 ∧ off % 4 = 0 := by
  simp [accessFormOk]

theorem guardAccess_inside {off bytes : Nat} (hf : bytes = 4 ∧ off % 4 = 0) (hw : off < 0x4000) (t : State) :
    guardAccess off bytes t = .next t := by
  unfold guardAccess
  rw [if_pos (accessFormOk_iff.2 hf), if_pos hw]

theorem guardAccess_outside {off bytes : Nat} (hf : bytes = 4 ∧ off % 4 = 0) (hw : 0x4000 ≤ off) (t : State) :
    guardAccess off bytes t = .refused .outsideWindow := by
  unfold guardAccess
  rw [if_pos (accessFormOk_iff.2 hf), if_neg (Nat.not_lt.2 hw)]

theorem guardAccess_otherForm {off bytes : Nat} (hf : ¬(bytes = 4 ∧ off % 4 = 0)) (t : State) :
    guardAccess off bytes t = .refused .registerAccessForm := by
  unfold guardAccess
  rw [if_neg (mt accessFormOk_iff.1 hf)]

/-- Settles O56: a read and a write pass the one guard (`guardAccess`). -/
theorem registerAccessForm : Obligations.RegisterAccessForm := by
  unfold Obligations.RegisterAccessForm
  intro s off bytes v rest
  refine ⟨fun hb ho hw => ?_, fun h => ?_, fun hb ho hw => ?_⟩
  · exact ⟨guardAccess_inside ⟨hb, ho⟩ hw _, guardAccess_inside ⟨hb, ho⟩ hw _⟩
  · have hf : ¬(bytes = 4 ∧ off % 4 = 0) := by omega
    exact ⟨guardAccess_otherForm hf _, guardAccess_otherForm hf _⟩
  · exact ⟨guardAccess_outside ⟨hb, ho⟩ hw _, guardAccess_outside ⟨hb, ho⟩ hw _⟩

end Sys2Proof.Machine
end

section
/-! Host memory and the platform under a command and under a step: which bytes a command leaves alone (20_memory.md R62,
60_exceptions.md R204, 30_encoding.md R85), the canonical form of memory (log 4), the refused ranges (R61). -/

namespace Sys2Proof.Machine

/-! ### Commands -/

/-- A command without a destination leaves memory as it was. -/
theorem Ends.mem_kept {i : Instr} {s t : State} (he : Ends s i t) (hi : Instr.usesDst i = false) : t.mem = s.mem := by
  cases he with
  | nop | clear | counted | tree | codes | loaded => rfl
  | countError _ _ hr | codesError _ hr | loadError _ hr => exact State.fail_mem_unwritten hr
  | noTree => exact State.fail_mem_unwritten rfl
  | packed | packError | unpacked | unpackError | serialized | serializeError => cases hi

/-- No command changes a byte outside the destination range. -/
theorem Ends.mem_outside {i : Instr} {s t : State} (he : Ends s i t) (hm : Mem.wf s.mem = true) {a : Nat}
    (ha : s.inDst a = false) : Mem.read t.mem a = Mem.read s.mem a := by
  cases hi : Instr.usesDst i with
  | false => rw [he.mem_kept hi]
  | true =>
    cases he with
    | packed _ _ hf hl | unpacked _ hf hl | serialized hf hl => exact (State.sinkOf_mem_spec hm hf hl).2 a ha
    | packError r | unpackError r | serializeError r => exact (State.fail_mem_spec hm).2 a ha
    | _ => cases hi

theorem Instr.usesDst_eq_false {i : Instr} (hp : i ≠ .pack) (hu : i ≠ .unpack) (hs : i ≠ .serialize) :
    Instr.usesDst i = false := by
  cases i with
  | pack => exact absurd rfl hp
  | unpack => exact absurd rfl hu
  | serialize => exact absurd rfl hs
  | _ => rfl

/-- Settles O40, by the cases of `Ends`: an error draws bytes inside the destination range only, and a success writes within
DST_CAP. -/
theorem memoryKeptOutsideDestination : Obligations.MemoryKeptOutsideDestination := by
  unfold Obligations.MemoryKeptOutsideDestination
  intro i s t hm h
  have he := ends_of_exec h
  exact ⟨fun hp hu hs => he.mem_kept (Instr.usesDst_eq_false hp hu hs), fun a ha => he.mem_outside hm ha⟩

/-- No command changes what the platform refuses. -/
theorem Ends.denied {i : Instr} {s t : State} (he : Ends s i t) : t.denied = s.denied := by
  cases he with
  | countError f r | codesError r | packError r | unpackError r | serializeError r | loadError r =>
    exact State.fail_denied _ r
  | noTree => exact State.fail_denied _ _
  | _ => rfl

/-! ### The host's operations -/

@[simp] theorem readWindow_mem (s : State) (r : WindowReg) : (readWindow s r).mem = s.mem := by
  obtain ⟨v, d, u, g, h⟩ := readWindow_keeps s r
  rw [h]

@[simp] theorem readWindow_denied (s : State) (r : WindowReg) : (readWindow s r).denied = s.denied := by
  obtain ⟨v, d, u, g, h⟩ := readWindow_keeps s r
  rw [h]

@[simp] theorem writeWindow_mem (s : State) (r : WindowReg) (v : Word) : (writeWindow s r v).mem = s.mem :=
  (writeWindow_keeps s r v).1

@[simp] theorem writeWindow_denied (s : State) (r : WindowReg) (v : Word) : (writeWindow s r v).denied = s.denied :=
  (writeWindow_keeps s r v).2.1

@[simp] theorem waitStep_mem (s : State) (rest : List HostOp) : (waitStep s rest).mem = s.mem := by
  rw [waitStep_eq, State.seeStatus_mem]

@[simp] theorem waitStep_denied (s : State) (rest : List HostOp) : (waitStep s rest).denied = s.denied := by
  rw [waitStep_eq, State.seeStatus_denied]

@[simp] theorem readHostMem_mem (s : State) (a : Nat) : (readHostMem s a).mem = s.mem := by rw [readHostMem_eq]

@[simp] theorem readHostMem_denied (s : State) (a : Nat) : (readHostMem s a).denied = s.denied := by rw [readHostMem_eq]

/-! ### Steps -/

theorem StepEnds.mem_wf {s t : State} (h : StepEnds s t) (hm : Mem.wf s.mem = true) : Mem.wf t.mem = true := by
  cases h with
  | command i _ hb he => exact he.mem_wf hm
  | illegal => exact (State.fail_mem_spec hm).1
  | idle => exact hm
  | readReg rest r => rwa [readWindow_mem]
  | writeReg rest r v => rwa [writeWindow_mem]
  | wait rest => rwa [waitStep_mem]
  | readMem rest a => rwa [readHostMem_mem]
  | writeMem rest a v ha => exact Mem.wf_write hm ha
  | reset rest => exact (resetEvent_mem (s := s.popHost rest) hm).1

/-- Settles O43: the block writes only bytes that exist (`Ends.mem_wf`), the host's write past 2^32 is a fault, and an
abandoned command's destination range is drawn free below 2^32 only (`resetEvent_mem`). -/
theorem stepKeepsMemoryCanonical : Obligations.StepKeepsMemoryCanonical := by
  unfold Obligations.StepKeepsMemoryCanonical
  intro s t hm h
  exact (stepEnds_of_step h).mem_wf hm

theorem StepEnds.denied {s t : State} (h : StepEnds s t) : t.denied = s.denied := by
  cases h with
  | command i _ hb he => exact he.denied
  | illegal => exact State.fail_denied s _
  | idle => rfl
  | readReg rest r => exact readWindow_denied _ r
  | writeReg rest r v => exact writeWindow_denied _ r v
  | wait rest => exact waitStep_denied s rest
  | readMem rest a => exact readHostMem_denied _ a
  | writeMem | reset => rfl

/-- Settles O48: no command and no host operation touches the list of refused ranges, and the reset event keeps it. -/
theorem stepKeepsPlatform : Obligations.StepKeepsPlatform := by
  unfold Obligations.StepKeepsPlatform
  intro s t h
  exact (stepEnds_of_step h).denied

end Sys2Proof.Machine
end

section
/-! The host's own accesses to host memory (20_memory.md R61), outside the ranges 70_reset_and_hazards.md R233 guards. -/

namespace Sys2Proof.Machine

theorem readHostMem_unguarded {s : State} {a : Nat} (hw : s.guards a .write = false) :
    readHostMem s a = s.hostGets ((Mem.read s.mem a).setWidth 32) := if_neg (by simp [hw])

/-- A read of a byte in no guarded destination range gets the byte memory holds. -/
theorem hostStep_readMem {s : State} {a : Nat} (ha : a < 2 ^ 32) (hw : s.guards a .write = false) (rest : List HostOp) :
    hostStep s (.readMem a) rest = .next ((s.popHost rest).hostGets ((Mem.read s.mem a).setWidth 32)) :=
  (if_pos ha).trans (congrArg _ (readHostMem_unguarded (s := s.popHost rest) hw))

/-- A write to a byte in no guarded range is performed. -/
theorem hostStep_writeMem {s : State} {a : Nat} (ha : a < 2 ^ 32) (hr : s.guards a .read = false)
    (hw : s.guards a .write = false) (v : Byte) (rest : List HostOp) :
    hostStep s (.writeMem a v) rest = .next (writeHostMem (s.popHost rest) a v) :=
  (if_pos ha).trans (if_pos (by simp [State.hostMayWrite, hr, hw]))

theorem hostStep_mem_noSuchAddress {a : Nat} (ha : 2 ^ 32 ≤ a) (s : State) (v : Byte) (rest : List HostOp) :
    hostStep s (.writeMem a v) rest = .fault (.noSuchAddress a) ∧
      hostStep s (.readMem a) rest = .fault (.noSuchAddress a) := by
  have hn : ¬a < Config.memSize := Nat.not_lt.2 ha
  exact ⟨if_neg hn, if_neg hn⟩

/-- Settles O57, by what one write changes in a canonical memory (`Mem.read_write`). -/
theorem hostMemoryBytes : Obligations.HostMemoryBytes := by
  unfold Obligations.HostMemoryBytes
  refine fun s a v rest => ⟨fun ha hw => ⟨?_, fun hm hr => ?_⟩, fun ha => hostStep_mem_noSuchAddress ha s v rest⟩
  · exact ⟨_, hostStep_readMem ha hw rest, BitVec.toNat_setWidth_of_le (by decide), rfl⟩
  · have hread : Mem.read (Mem.write s.mem a v) a = v := Mem.read_write_same hm
    refine ⟨_, hostStep_writeMem ha hr hw v _, rfl, Mem.read_write hm, _,
      hostStep_readMem (s := writeHostMem (s.popHost (.readMem a :: rest)) a v) ha hw rest, ?_, rfl⟩
    exact (BitVec.toNat_setWidth_of_le (by decide)).trans (congrArg BitVec.toNat hread)

end Sys2Proof.Machine
end

section
/-! The errors a command raises before its first memory access: a range past 2^32, two ranges that share a byte
(20_memory.md R70). -/

namespace Sys2Proof.Machine

/-- An error raised before the first write leaves the error record and the completion, and changes nothing else. -/
theorem State.fail_unwritten {s : State} {r : Raise} (h : r.written = 0) :
    s.fail r =
      { s with errCode := r.name.code, errInfo := r.info, outLen := 0, busy := false, done := true } := by
  unfold State.fail
  rw [if_pos h]
  rfl

theorem State.srcFits_eq_false {s : State} (h : 2 ^ 32 < s.srcAddr.toNat + s.srcLen.toNat) : s.srcFits = false :=
  decide_eq_false (Nat.not_le.2 h)

theorem State.dstFits_eq_false {s : State} (h : 2 ^ 32 < s.dstAddr.toNat + s.dstCap.toNat) : s.dstFits = false :=
  decide_eq_false (Nat.not_le.2 h)

theorem State.inSrc_iff {s : State} {a : Nat} :
    s.inSrc a = true ↔ s.srcAddr.toNat ≤ a ∧ a < s.srcAddr.toNat + s.srcLen.toNat := by
  simp [State.inSrc]

theorem State.inDst_iff {s : State} {a : Nat} :
    s.inDst a = true ↔ s.dstAddr.toNat ≤ a ∧ a < s.dstAddr.toNat + s.dstCap.toNat := by
  simp [State.inDst]

/-- An address in both ranges makes the check of 20_memory.md R70 (c) fail. -/
theorem State.rangesOverlap_of_shared {s : State} {a : Nat} (hs : s.inSrc a = true) (hd : s.inDst a = true) :
    s.rangesOverlap = true := by
  rw [State.inSrc_iff] at hs
  rw [State.inDst_iff] at hd
  simp only [State.rangesOverlap, Bool.and_eq_true, decide_eq_true_eq]
  omega

theorem State.rangesOk_eq_false {s : State}
    (h : 2 ^ 32 < s.srcAddr.toNat + s.srcLen.toNat ∨ 2 ^ 32 < s.dstAddr.toNat + s.dstCap.toNat ∨
      ∃ a, s.inSrc a = true ∧ s.inDst a = true) : s.rangesOk = false := by
  rw [Bool.eq_false_iff, Ne, State.rangesOk_iff]
  rintro ⟨hsrc, hdst, hapart⟩
  rcases h with h | h | ⟨a, hs, hd⟩
  · rw [State.srcFits_eq_false h] at hsrc
    cases hsrc
  · rw [State.dstFits_eq_false h] at hdst
    cases hdst
  · rw [State.rangesOverlap_of_shared hs hd] at hapart
    cases hapart

theorem exec_countFreq_range {s : State} (h : s.srcFits = false) :
    exec .countFreq s = .next (s.fail ⟨.range, 0, 0⟩) := by
  show execCountFreq s = _
  unfold execCountFreq
  rw [if_neg (by simp [h])]

theorem exec_deserialize_error {s : State} {r : Raise} (h : parseContainer s = .error r) :
    exec .deserialize s = .next ((dropCodes s).fail r) := by
  show execDeserialize s = _
  unfold execDeserialize
  rw [h]

theorem parseContainer_range {s : State} (h : s.srcFits = false) : parseContainer s = .error ⟨.range, 0, 0⟩ := by
  unfold parseContainer
  rw [if_neg (by simp [h])]

/-- The three commands with a destination check the ranges alike. -/
theorem exec_range {i : Instr} {s : State} (hi : i = .pack ∨ i = .unpack ∨ i = .serialize) (hv : s.codesValid = true)
    (hr : s.rangesOk = false) : exec i s = .next (s.fail ⟨.range, 0, 0⟩) := by
  have hr' : ¬s.rangesOk = true := by simp [hr]
  rcases hi with rfl | rfl | rfl <;> exact (if_pos hv).trans (if_neg hr')

/-- Settles O23: each condition makes the range check fail (`State.rangesOk_eq_false`), which comes before any access. -/
theorem rangeErrors : Obligations.RangeErrors := by
  unfold Obligations.RangeErrors
  refine ⟨fun s h => ?_, fun i s hi hv h => ?_⟩
  · have hf := State.srcFits_eq_false h
    constructor
    · rw [exec_countFreq_range hf, State.fail_unwritten rfl]
      rfl
    · rw [exec_deserialize_error (parseContainer_range hf), State.fail_unwritten rfl]
      rfl
  · rw [exec_range hi hv (State.rangesOk_eq_false h), State.fail_unwritten rfl]
    rfl

end Sys2Proof.Machine
end

section
/-! An access the platform refuses ends its command with BUS_ERROR at the address (20_memory.md R62, R71; 60_exceptions.md
R204): the reads of the five commands with a source, the writes of the three with a destination. -/

namespace Sys2Proof.Machine

/-! ### A run that ends with an error -/

theorem exec_pack_raised {s : State} {r : Raise} (hv : s.codesValid = true) (hr : s.rangesOk = true)
    (h : packRun s = .error r) : ∃ t, exec .pack s = .next t ∧ RaisedFrom s r.name.code r.info r.written t :=
  ⟨s.fail r, (execPack_run hv hr).trans (by rw [h]), s.fail_raised r⟩

theorem exec_unpack_raised {s : State} {r : Raise} (hv : s.codesValid = true) (hr : s.rangesOk = true)
    (h : unpackRun s = .error r) : ∃ t, exec .unpack s = .next t ∧ RaisedFrom s r.name.code r.info r.written t :=
  ⟨s.fail r, (execUnpack_run hv hr).trans (by rw [h]), s.fail_raised r⟩

theorem exec_serialize_raised {s : State} {r : Raise} (hv : s.codesValid = true) (hr : s.rangesOk = true)
    (h : serializeRun s = .error r) : ∃ t, exec .serialize s = .next t ∧ RaisedFrom s r.name.code r.info r.written t :=
  ⟨s.fail r, (execSerialize_run hv hr).trans (by rw [h]), s.fail_raised r⟩

/-- A legal code table has as many entries as SYM_COUNT says, so the header has its full length (42_container.md R170). -/
theorem State.header_length_legal {s : State} (hc : CodesLegal s) (hv : s.codesValid = true) :
    s.header.length = 5 + 9 * s.symCount.toNat := by
  obtain ⟨-, hcount, -⟩ := hc.2 hv
  rw [State.header_length, State.entries_eq hc hv, hcount]

/-! ### Refused reads -/

/-- COUNT_FREQ keeps the counts of the bytes before the one whose read is refused (40_table_build.md R102). -/
theorem exec_countFreq_read_refused {s : State} {j : Nat} (hfit : s.srcFits = true) (hj : j < s.srcLen.toNat)
    (hr : s.readsAdmitted j) (hf : s.admits (s.srcAddr.toNat + j) .read = false)
    (hc : ∀ b, (tabGet s.freq b).toNat + (s.sourcePart j).count b ≤ 2 ^ 32 - 1) :
    exec .countFreq s =
      .next ({ s with freq := addCounts s.freq (s.sourcePart j) }.fail
        ⟨.busError, BitVec.ofNat 32 (s.srcAddr.toNat + j), 0⟩) := by
  have hloop : countLoop s s.srcLen.toNat 0 s.freq =
      (addCounts s.freq (s.sourcePart j), some ⟨.busError, BitVec.ofNat 32 (s.srcAddr.toNat + j), 0⟩) := by
    rw [show s.srcLen.toNat = j + ((s.srcLen.toNat - j - 1) + 1) by omega,
      countLoop_prefix (fun i hi => by rw [Nat.zero_add]; exact hr i hi) (by rwa [State.sourceFrom_zero_eq]),
      State.sourceFrom_zero_eq, Nat.zero_add]
    simp only [countLoop, readSrc_refused hf]
  show execCountFreq s = _
  unfold execCountFreq
  rw [if_pos hfit, hloop]

/-- `parseContainer_refused`, with the entry count written as the statement writes it: that of the first four source bytes. -/
theorem parseContainer_read_refused {s : State} {j : Nat} (hfit : s.srcFits = true) (h4 : 4 ≤ s.srcLen.toNat)
    (hr : s.readsAdmitted j) (hf : s.admits (s.srcAddr.toNat + j) .read = false)
    (hj : j < 4 ∨ (1 ≤ valBE (s.sourcePart 4) ∧ valBE (s.sourcePart 4) ≤ 256 ∧
      5 + 9 * valBE (s.sourcePart 4) ≤ s.srcLen.toNat ∧ j < 5 + 9 * valBE (s.sourcePart 4))) :
    parseContainer s = .error ⟨.busError, BitVec.ofNat 32 (s.srcAddr.toNat + j), 0⟩ := by
  rw [← State.sourceFrom_zero_eq] at hj
  exact parseContainer_refused hfit h4 hr hf hj

theorem exec_serialize_read_refused {s : State} {j : Nat} (hc : CodesLegal s) (hv : s.codesValid = true)
    (hok : s.rangesOk = true) (hcap : 5 + 9 * s.symCount.toNat + s.srcLen.toNat ≤ s.dstCap.toNat)
    (hj : j < s.srcLen.toNat) (hr : s.readsAdmitted j) (hf : s.admits (s.srcAddr.toNat + j) .read = false)
    (hw : s.writesAdmitted (5 + 9 * s.symCount.toNat + j)) :
    ∃ t, exec .serialize s = .next t ∧
      RaisedFrom s 0x15 (BitVec.ofNat 32 (s.srcAddr.toNat + j)) (5 + 9 * s.symCount.toNat + j) t := by
  rw [← State.header_length_legal hc hv] at hw ⊢
  exact exec_serialize_raised hv hok (serializeRun_read_refused hcap hj hr hf hw)

/-! ### Refused writes -/

theorem exec_pack_write_refused {s : State} {o : Nat} (h : PackReaches s o) (ho : o < s.dstCap.toNat)
    (hw : s.writesAdmitted o) (hf : s.admits (s.dstAddr.toNat + o) .write = false) :
    ∃ t, exec .pack s = .next t ∧ RaisedFrom s 0x15 (BitVec.ofNat 32 (s.dstAddr.toNat + o)) o t := by
  obtain ⟨hv, hok, j, hj, hr, hcoded, hreach⟩ := h
  exact exec_pack_raised hv hok (packRun_stop hj hr hcoded (State.stopsAt_refused ho hw hf) hreach)

theorem exec_unpack_write_refused {s : State} {o : Nat} (h : UnpackReaches s o) (ho : o < s.dstCap.toNat)
    (hw : s.writesAdmitted o) (hf : s.admits (s.dstAddr.toNat + o) .write = false) :
    ∃ t, exec .unpack s = .next t ∧ RaisedFrom s 0x15 (BitVec.ofNat 32 (s.dstAddr.toNat + o)) o t := by
  obtain ⟨hc, hv, hok, hpad, m, hcoded, hm, hdata, hr⟩ := h
  exact exec_unpack_raised hv hok (unpackRun_stop hc hv (State.stopsAt_refused ho hw hf) hcoded hm hdata hpad hr)

theorem exec_serialize_write_refused {s : State} {o : Nat} (h : SerializeReaches s o) (hw : s.writesAdmitted o)
    (hf : s.admits (s.dstAddr.toNat + o) .write = false) :
    ∃ t, exec .serialize s = .next t ∧ RaisedFrom s 0x15 (BitVec.ofNat 32 (s.dstAddr.toNat + o)) o t := by
  obtain ⟨hc, hv, hok, hcap, ho, hr⟩ := h
  rw [← State.header_length_legal hc hv] at ho hr
  exact exec_serialize_raised hv hok (serializeRun_refused hcap ho hw hf hr)

/-- Settles O15, command by command: the run ends at the refused access, and `raise` leaves what R204 says
(`State.fail_raised`; for COUNT_FREQ and DESERIALIZE, which write nothing, `State.fail_unwritten`). -/
theorem countFreqStopsAtRefusal : Obligations.CountFreqStopsAtRefusal := by
  unfold Obligations.CountFreqStopsAtRefusal
  refine ⟨?countFreq, ?pack, ?unpack, ?serialize, ?deserialize, ?writes⟩
  case countFreq =>
    intro s j hfit hj hr hf hc
    refine ⟨addCounts s.freq (s.sourcePart j), ?_, addCounts_spec hc⟩
    rw [exec_countFreq_read_refused hfit hj hr hf hc, State.fail_unwritten rfl]
    rfl
  case pack =>
    intro s j hv hok hj hr hf hcoded hcap hw
    exact exec_pack_raised hv hok (packRun_read_refused hj hr hf hcoded hcap hw)
  case unpack =>
    intro s j m q hc hv hok hpad hj hr hf hcoded hno hq hd hcap hw
    exact exec_unpack_raised hv hok (unpackRun_read_refused hc hv hcoded hno hq hd hj hpad hr hf hcap hw)
  case serialize =>
    intro s j hc hv hok hcap hj hr hf hw
    exact exec_serialize_read_refused hc hv hok hcap hj hr hf hw
  case deserialize =>
    intro s j hfit h4 hr hf hj
    rw [exec_deserialize_error (parseContainer_read_refused hfit h4 hr hf hj), State.fail_unwritten rfl]
    rfl
  case writes =>
    intro i s o hi ho hw hf
    rcases hi with ⟨rfl, h⟩ | ⟨rfl, h⟩ | ⟨rfl, h⟩
    · exact exec_pack_write_refused h ho hw hf
    · exact exec_unpack_write_refused h ho hw hf
    · exact exec_serialize_write_refused h hw hf

end Sys2Proof.Machine
end

section
/-! Decoding and encoding (30_encoding.md R80 to R84): which words select a command, and by which name each other word is
rejected. -/

namespace Sys2Proof

open Laws

theorem encoding_of (i : Instr) : Encoding.Statement i := by
  cases i with
  | nop => exact Encoding.nop
  | clear => exact Encoding.clear
  | countFreq => exact Encoding.countFreq
  | buildTree => exact Encoding.buildTree
  | assignCodes => exact Encoding.assignCodes
  | pack => exact Encoding.pack
  | unpack => exact Encoding.unpack
  | serialize => exact Encoding.serialize
  | deserialize => exact Encoding.deserialize

/-! ### The opcode map (R81) -/

theorem ofOpcode_eq_none_iff {n : Nat} : ofOpcode n = none ↔ 0x09 ≤ n := by
  constructor
  · intro h
    by_contra hn
    have hlt : n < 0x09 := Nat.not_le.1 hn
    interval_cases n <;> cases h
  · intro hn
    obtain ⟨k, rfl⟩ := Nat.exists_eq_add_of_le' hn
    rfl

theorem ofOpcode_eq_some_iff {n : Nat} {i : Instr} : ofOpcode n = some i ↔ n = (opcode i).toNat := by
  constructor
  · intro h
    have hn : n < 0x09 := Nat.not_le.1 fun hn => by
      rw [ofOpcode_eq_none_iff.2 hn] at h
      cases h
    interval_cases n <;> cases h <;> rfl
  · rintro rfl
    cases i <;> rfl

/-! ### The fields of a word (R80) -/

/-- A word is its bits [31:8] and its opcode. -/
theorem word_eq_iff_fields {w v : Word} :
    w = v ↔ w.extractLsb' 8 24 = v.extractLsb' 8 24 ∧ w.extractLsb' 0 8 = v.extractLsb' 0 8 := by
  refine ⟨fun h => h ▸ ⟨rfl, rfl⟩, fun ⟨hhi, hlo⟩ => ?_⟩
  have hw (x : Word) : x.extractLsb' 8 24 ++ x.extractLsb' 0 8 = x := by
    rw [BitVec.extractLsb'_append_extractLsb'_eq_extractLsb' (by omega)]
    simp
  rw [← hw w, ← hw v, hhi, hlo]

theorem word_eq_encode_iff {w : Word} {i : Instr} :
    w = encode i ↔ w.extractLsb' 8 24 = 0 ∧ w.extractLsb' 0 8 = opcode i := by
  obtain ⟨-, -, hop, hres, -⟩ := encoding_of i
  rw [word_eq_iff_fields, hop, hres]

theorem wordReservedClear_iff {w : Word} : wordReservedClear w = true ↔ w.extractLsb' 8 24 = 0 := beq_iff_eq

/-! ### The three answers of the decoder -/

theorem decode_eq_reservedBits_iff {w : Word} :
    decode w = .error .reservedBits ↔ w.extractLsb' 8 24 ≠ 0 := by
  rw [Ne, ← wordReservedClear_iff]
  unfold decode
  split
  · split <;> simp_all
  · simp_all

theorem decode_eq_reservedOpcode_iff {w : Word} :
    decode w = .error .reservedOpcode ↔ w.extractLsb' 8 24 = 0 ∧ 0x09 ≤ (w.extractLsb' 0 8).toNat := by
  rw [← wordReservedClear_iff, ← ofOpcode_eq_none_iff]
  unfold decode opcodeOf
  split
  · split <;> simp_all
  · simp_all

/-- A word selects a command exactly when it is the command's word (R81, R84). -/
theorem decode_eq_ok_iff {w : Word} {i : Instr} : decode w = .ok i ↔ w = encode i := by
  rw [word_eq_encode_iff, ← BitVec.toNat_inj (y := opcode i), ← ofOpcode_eq_some_iff, ← wordReservedClear_iff]
  unfold decode opcodeOf
  split
  · split <;> simp_all
  · simp_all

theorem decode_encode (i : Instr) : decode (encode i) = .ok i := decode_eq_ok_iff.2 rfl

/-! ### The opcode table (R81) -/

theorem opcodeTable_row : ∀ r ∈ opcodeTable, r.mask = BitVec.allOnes 32 ∧ r.pattern = encode r.instr := by decide

theorem mem_opcodeTable (i : Instr) : ⟨encode i, 0xFFFFFFFF, i⟩ ∈ opcodeTable := by
  obtain ⟨-, -, -, -, hrow, -⟩ := encoding_of i
  exact List.mem_of_mem_filter (hrow ▸ List.mem_singleton_self _)

/-- The one row of a command matches its word only. -/
theorem matches_row_iff {w : Word} {i : Instr} :
    (∃ r ∈ opcodeTable, r.instr = i ∧ w &&& r.mask = r.pattern) ↔ w = encode i := by
  constructor
  · rintro ⟨r, hr, rfl, h⟩
    obtain ⟨hmask, hpat⟩ := opcodeTable_row r hr
    rwa [hmask, hpat, BitVec.and_allOnes] at h
  · rintro rfl
    exact ⟨_, mem_opcodeTable i, rfl, BitVec.and_allOnes⟩

/-! ### The obligations -/

/-- Settles O2: decoding to `i` and matching `i`'s row both say that the word is `encode i`. -/
theorem decodeEncodeAgree : Obligations.DecodeEncodeAgree := by
  unfold Obligations.DecodeEncodeAgree
  exact fun i _ => ⟨decode_encode i, fun w => decode_eq_ok_iff.1, fun w => decode_eq_ok_iff.trans matches_row_iff.symm⟩

/-- Settles O1: the nine are the words of the commands, the others fail one of the two checks. -/
theorem commandWordsDecode : Obligations.CommandWordsDecode := by
  unfold Obligations.CommandWordsDecode
  exact ⟨decode_encode .nop, decode_encode .clear, decode_encode .countFreq, decode_encode .buildTree,
    decode_encode .assignCodes, decode_encode .pack, decode_encode .unpack, decode_encode .serialize,
    decode_encode .deserialize, decode_eq_reservedOpcode_iff.2 (by decide), decode_eq_reservedOpcode_iff.2 (by decide),
    decode_eq_reservedBits_iff.2 (by decide), decode_eq_reservedBits_iff.2 (by decide)⟩

/-- Settles O3, by the two rejecting answers of the decoder. -/
theorem illegalWordsRejected : Obligations.IllegalWordsRejected := by
  unfold Obligations.IllegalWordsRejected
  exact fun w => ⟨decode_eq_reservedBits_iff, decode_eq_reservedOpcode_iff⟩

end Sys2Proof
end

section
/-! What every command keeps and how every command ends (30_encoding.md R85, 60_exceptions.md R204, R206): the operand registers,
the host's fields, and, column by column of the operand table, the tables and result registers a command does not write. -/

namespace Sys2Proof.Machine

/-! ### What no command writes -/

/-- What no command writes is the same in both states: CTRL, the operand registers, CMD, DROPPED, the platform's parameter and
the host's fields (30_encoding.md R85). -/
structure OperandsKept (s t : State) : Prop where
  ie : t.ie = s.ie
  srcAddr : t.srcAddr = s.srcAddr
  srcLen : t.srcLen = s.srcLen
  dstAddr : t.dstAddr = s.dstAddr
  dstCap : t.dstCap = s.dstCap
  cmd : t.cmd = s.cmd
  dropped : t.dropped = s.dropped
  denied : t.denied = s.denied
  hostOps : t.hostOps = s.hostOps
  schedule : t.schedule = s.schedule
  holds : t.holds = s.holds
  hostRead : t.hostRead = s.hostRead
  unread : t.unread = s.unread
  guarded : t.guarded = s.guarded

theorem Ends.operandsKept {i : Instr} {s t : State} (he : Ends s i t) : OperandsKept s t := by
  cases he with
  | countError | noTree | codesError | packError | unpackError | serializeError | loadError => constructor <;> simp
  | _ => constructor <;> rfl

/-- Settles O38, by the states a command can end in (`Ends.operandsKept`). -/
theorem commandsKeepOperands : Obligations.CommandsKeepOperands := by
  unfold Obligations.CommandsKeepOperands
  intro i s t h
  have k := (ends_of_exec h).operandsKept
  exact ⟨k.ie, k.srcAddr, k.srcLen, k.dstAddr, k.dstCap, k.cmd, k.dropped, k.denied, k.hostOps, k.schedule, k.holds,
    k.hostRead, k.unread, k.guarded⟩

/-! ### The end of a command -/

theorem Ends.completed {i : Instr} {s t : State} (he : Ends s i t) : t.busy = false ∧ t.done = true := by
  cases he with
  | countError f r | codesError r | packError r | unpackError r | serializeError r | loadError r =>
    exact ⟨State.fail_busy _ r, State.fail_done _ r⟩
  | noTree => exact ⟨State.fail_busy _ _, State.fail_done _ _⟩
  | _ => exact ⟨rfl, rfl⟩

/-- The state holds the record of a raised error (60_exceptions.md R204 (1)). -/
def Raised (t : State) (r : Raise) : Prop := t.errCode = r.name.code ∧ t.errInfo = r.info ∧ t.outLen = 0

theorem Raised.fail (s : State) (r : Raise) : Raised (s.fail r) r :=
  ⟨s.fail_errCode r, s.fail_errInfo r, s.fail_outLen r⟩

/-- A command keeps the error record, or ends with a raised error. -/
theorem Ends.error_cases {i : Instr} {s t : State} (he : Ends s i t) :
    (t.errCode = s.errCode ∧ t.errInfo = s.errInfo) ∨ ∃ r, Raised t r := by
  cases he with
  | countError f r | codesError r | packError r | unpackError r | serializeError r | loadError r =>
    exact .inr ⟨r, .fail _ r⟩
  | noTree => exact .inr ⟨_, .fail _ _⟩
  | _ => exact .inl ⟨rfl, rfl⟩

/-! ### The columns of the operand table -/

section
variable {i : Instr} {s t : State} (he : Ends s i t)
include he

theorem Ends.pad_kept (hcl : i ≠ .clear) (hpk : i ≠ .pack) (hde : i ≠ .deserialize) : t.pad = s.pad := by
  cases he with
  | clear | packed | packError | loaded | loadError => contradiction
  | countError f r | codesError r | unpackError r | serializeError r => exact State.fail_pad _ r
  | noTree => exact State.fail_pad _ _
  | _ => rfl

theorem Ends.freq_kept (hcl : i ≠ .clear) (hco : i ≠ .countFreq) : t.freq = s.freq := by
  cases he with
  | clear | counted | countError => contradiction
  | codesError r | packError r | unpackError r | serializeError r | loadError r => exact State.fail_freq _ r
  | noTree => exact State.fail_freq _ _
  | _ => rfl

theorem Ends.node_kept (hbu : i ≠ .buildTree) : t.node = s.node := by
  cases he with
  | noTree | tree => contradiction
  | countError f r | codesError r | packError r | unpackError r | serializeError r | loadError r =>
    exact State.fail_node _ r
  | _ => rfl

theorem Ends.treeRegs_kept (hcl : i ≠ .clear) (hbu : i ≠ .buildTree) (has : i ≠ .assignCodes) :
    t.treeValid = s.treeValid ∧ t.root = s.root ∧ t.nodeCount = s.nodeCount := by
  cases he with
  | clear | noTree | tree | codes | codesError => contradiction
  | countError f r | packError r | unpackError r | serializeError r | loadError r =>
    exact ⟨State.fail_treeValid _ r, State.fail_root _ r, State.fail_nodeCount _ r⟩
  | _ => exact ⟨rfl, rfl, rfl⟩

theorem Ends.codes_kept (has : i ≠ .assignCodes) (hde : i ≠ .deserialize) :
    t.codeLen = s.codeLen ∧ t.codeBits = s.codeBits := by
  cases he with
  | codes | codesError | loaded | loadError => contradiction
  | countError f r | packError r | unpackError r | serializeError r =>
    exact ⟨State.fail_codeLen _ r, State.fail_codeBits _ r⟩
  | noTree => exact ⟨State.fail_codeLen _ _, State.fail_codeBits _ _⟩
  | _ => exact ⟨rfl, rfl⟩

theorem Ends.codeRegs_kept (hcl : i ≠ .clear) (has : i ≠ .assignCodes) (hde : i ≠ .deserialize) :
    t.codesValid = s.codesValid ∧ t.symCount = s.symCount ∧ t.maxLen = s.maxLen := by
  cases he with
  | clear | codes | codesError | loaded | loadError => contradiction
  | countError f r | packError r | unpackError r | serializeError r =>
    exact ⟨State.fail_codesValid _ r, State.fail_symCount _ r, State.fail_maxLen _ r⟩
  | noTree => exact ⟨State.fail_codesValid _ _, State.fail_symCount _ _, State.fail_maxLen _ _⟩
  | _ => exact ⟨rfl, rfl, rfl⟩

theorem Ends.payload_kept (hcl : i ≠ .clear) (hde : i ≠ .deserialize) :
    t.payloadAddr = s.payloadAddr ∧ t.payloadLen = s.payloadLen := by
  cases he with
  | clear | loaded | loadError => contradiction
  | countError f r | codesError r | packError r | unpackError r | serializeError r =>
    exact ⟨State.fail_payloadAddr _ r, State.fail_payloadLen _ r⟩
  | noTree => exact ⟨State.fail_payloadAddr _ _, State.fail_payloadLen _ _⟩
  | _ => exact ⟨rfl, rfl⟩

/-- A command without output of its own writes OUT_LEN when it raises an error only (10_state.md R32). -/
theorem Ends.outLen_kept_or_zero (hcl : i ≠ .clear) (hdst : Instr.usesDst i = false) :
    t.outLen = s.outLen ∨ t.outLen = 0 := by
  cases he with
  | clear => contradiction
  | countError f r | codesError r | loadError r => exact .inr (State.fail_outLen _ r)
  | noTree => exact .inr (State.fail_outLen _ _)
  | packed | packError | unpacked | unpackError | serialized | serializeError => cases hdst
  | _ => exact .inl rfl

end

theorem Ends.nop_eq {s t : State} (he : Ends s .nop t) : t = s.complete := by
  cases he
  rfl

/-- Settles O39, one lemma for each column of the operand table. -/
theorem commandsWriteOnlyTheirTables : Obligations.CommandsWriteOnlyTheirTables := by
  unfold Obligations.CommandsWriteOnlyTheirTables
  intro i s t h
  have he := ends_of_exec h
  refine ⟨he.pad_kept, he.freq_kept, he.node_kept, he.treeRegs_kept, he.codes_kept, he.codeRegs_kept, ?nop, ?outLen,
    he.payload_kept⟩
  case nop =>
    rintro rfl
    rw [he.nop_eq, State.complete_outLen]
  case outLen =>
    rintro (rfl | rfl | rfl | rfl) <;> exact he.outLen_kept_or_zero nofun rfl

end Sys2Proof.Machine
end

section
/-! Acceptance and completion as steps: a write to CMD (30_encoding.md R80), a word that selects no command (R82, R83), and a host
that waits (R87). -/

namespace Sys2Proof.Machine

/-- Settles O9: the write passes the guard on register accesses, and an idle block accepts the word. -/
theorem commandWriteAccepted : Obligations.CommandWriteAccepted := by
  unfold Obligations.CommandWriteAccepted
  intro s w rest hb
  have hidle : (s.popHost rest).busy = false := hb
  show guardAccess 0x008 4 (writeWindow (s.popHost rest) .cmd w) = _
  rw [guardAccess_inside ⟨rfl, rfl⟩ (by decide), writeWindow_of_idle hidle]
  rfl

theorem step_illegal {s : State} {e : DecodeError} (hb : s.blockTurn = true) (hd : decode s.cmd = .error e) :
    step s = .next (illegalCommand s) := by
  unfold step
  rw [if_pos hb, hd]

/-- Settles O8: the decoder rejects the word by one of the two names, and ILLEGAL_COMMAND is raised before any write. -/
theorem illegalCommandCompletes : Obligations.IllegalCommandCompletes := by
  unfold Obligations.IllegalCommandCompletes
  intro s hb hw
  have hrejected : ∃ e, decode s.cmd = .error e := by
    by_cases hres : s.cmd.extractLsb' 8 24 = 0
    · exact ⟨_, decode_eq_reservedOpcode_iff.2 ⟨hres, hw.resolve_left fun h => h hres⟩⟩
    · exact ⟨_, decode_eq_reservedBits_iff.2 hres⟩
  obtain ⟨e, he⟩ := hrejected
  rw [step_illegal hb he, illegalCommand, State.fail_unwritten rfl]
  rfl

/-- The block's turn completes the running command, whatever its word, and leaves the host's queue alone. -/
theorem step_blockTurn_completes {s : State} (hb : s.blockTurn = true) :
    ∃ t, step s = .next t ∧ t.busy = false ∧ t.done = true ∧ t.hostOps = s.hostOps := by
  cases hd : decode s.cmd with
  | ok i =>
    obtain ⟨t, ht, he⟩ := exec_ends i s
    obtain ⟨hbusy, hdone⟩ := he.completed
    exact ⟨t, (step_command hb hd).trans ht, hbusy, hdone, he.operandsKept.hostOps⟩
  | error e =>
    exact ⟨_, step_illegal hb hd, State.fail_busy _ _, State.fail_done _ _, State.fail_hostOps _ _⟩

/-- While the host has steps left before the completion, a round of `wait` uses up one of them. -/
theorem step_wait_held {s : State} {rest : List HostOp} (hb : s.busy = true) (hq : s.hostOps = .waitIdle :: rest)
    (hh : s.holds ≠ 0) : step s = .next { s with hostRead := s.statusWord, holds := s.holds - 1 } := by
  have hturn : s.blockTurn = false := by simp [State.blockTurn, hq, hh]
  rw [step_host hturn, hostTurn_cons hq]
  show Host.Outcome.next (waitStep s rest) = _
  rw [waitStep, if_pos hb]

theorem runSteps_succ {s t : State} (h : step s = .next t) (k : Nat) : runSteps (k + 1) s = runSteps k t := by
  rw [runSteps, h]

/-- Settles O60, by induction on the host's steps left before the completion. -/
theorem waitTerminates : Obligations.WaitTerminates := by
  unfold Obligations.WaitTerminates
  intro s rest hb hq
  induction hn : s.holds generalizing s with
  | zero =>
    obtain ⟨t, ht, hbusy, hdone, hops⟩ := step_blockTurn_completes (s := s) (by simp [State.blockTurn, hb, hn])
    exact ⟨1, Nat.le_refl 1, t, runSteps_succ ht 0, hbusy, hdone, hops.trans hq⟩
  | succ n ih =>
    have hstep := step_wait_held hb hq (by omega)
    obtain ⟨k, hk, t, hrun, hend⟩ := ih { s with hostRead := s.statusWord, holds := s.holds - 1 } hb hq (by simp [hn])
    exact ⟨k + 1, by omega, t, (runSteps_succ hstep k).trans hrun, hend⟩

end Sys2Proof.Machine
end

section
/-! What every step keeps of the status registers (10_state.md R25 to R27, R32, 30_encoding.md R80) and of the host's duties while a
command runs (20_memory.md R72, 70_reset_and_hazards.md R233, R236). -/

namespace Sys2Proof.Machine

/-! ### The status registers -/

/-- The registers `StatusLegal` looks at are the same in both states, but that DONE may have been cleared. -/
structure StatusKept (s t : State) : Prop where
  busy : t.busy = s.busy
  done : t.done = true → s.done = true
  errCode : t.errCode = s.errCode
  errInfo : t.errInfo = s.errInfo
  outLen : t.outLen = s.outLen

theorem StatusKept.statusLegal {s t : State} (h : StatusKept s t) (hs : StatusLegal s) : StatusLegal t := by
  obtain ⟨hrun, hrest⟩ := hs
  unfold StatusLegal
  rw [h.busy, h.errCode, h.errInfo, h.outLen]
  refine ⟨fun hb => ?_, hrest⟩
  obtain ⟨hdone, herr⟩ := hrun hb
  refine ⟨Bool.eq_false_iff.2 fun hd => ?_, herr⟩
  rw [h.done hd] at hdone
  cases hdone

theorem StatusKept.readWindow (s : State) (r : WindowReg) : StatusKept s (readWindow s r) := by
  obtain ⟨v, d, u, g, h⟩ := readWindow_keeps s r
  rw [h]
  exact ⟨rfl, id, rfl, rfl, rfl⟩

theorem StatusKept.waitStep (s : State) (rest : List HostOp) : StatusKept s (waitStep s rest) := by
  obtain ⟨v, q, n, u, g, h⟩ := waitStep_keeps s rest
  rw [h]
  exact ⟨rfl, id, rfl, rfl, rfl⟩

theorem StatusKept.readHostMem (s : State) (a : Nat) : StatusKept s (readHostMem s a) := by
  rw [readHostMem_eq]
  exact ⟨rfl, id, rfl, rfl, rfl⟩

theorem StatusKept.clearStatus (s : State) (v : Word) : StatusKept s (s.clearStatus v) :=
  ⟨rfl, fun h => (Bool.and_eq_true_iff.1 h).1, rfl, rfl, rfl⟩

theorem statusLegal_of_raised {t : State} {r : Raise} (hb : t.busy = false) (h : Raised t r) : StatusLegal t := by
  obtain ⟨hcode, -, hlen⟩ := h
  obtain ⟨hlegal, hne⟩ := r.name.code_legal
  unfold StatusLegal
  rw [hb, hcode, hlen]
  exact ⟨nofun, hlegal, fun h0 => absurd h0 hne, fun _ => rfl⟩

/-- The record of an accepted command is clear. -/
theorem statusLegal_accept (s : State) (w : Word) : StatusLegal (s.accept w) := by
  unfold StatusLegal
  simp [legalErrCodes]

/-- A running command's record is clear, so a command that keeps it ends without an error. -/
theorem Ends.statusLegal {i : Instr} {s t : State} (he : Ends s i t) (hb : s.busy = true) (hs : StatusLegal s) :
    StatusLegal t := by
  obtain ⟨hbusy, -⟩ := he.completed
  rcases he.error_cases with ⟨hcode, hinfo⟩ | ⟨r, hr⟩
  · obtain ⟨hrun, hlegal, hclear, -⟩ := hs
    obtain ⟨-, hzero⟩ := hrun hb
    unfold StatusLegal
    rw [hbusy, hcode, hinfo]
    exact ⟨nofun, hlegal, hclear, fun hne => absurd hzero hne⟩
  · exact statusLegal_of_raised hbusy hr

/-! ### The host's duties -/

/-- What `DutyLegal` looks at is the same in both states; the command and its ranges need be only while it runs. -/
structure DutyKept (s t : State) : Prop where
  busy : t.busy = s.busy
  unread : t.unread = s.unread
  guarded : t.guarded = s.guarded
  ranges : s.busy = true → t.rangesOfWord t.cmd = s.rangesOfWord s.cmd

theorem DutyKept.dutyLegal {s t : State} (h : DutyKept s t) (hs : DutyLegal s) : DutyLegal t := by
  obtain ⟨hrun, hend⟩ := hs
  unfold DutyLegal
  rw [h.busy, h.unread, h.guarded]
  refine ⟨fun hb => ?_, hend⟩
  rw [h.ranges hb]
  exact hrun hb

theorem dutyLegal_of_idle {t : State} (hb : t.busy = false) (hend : t.unread = false → t.guarded = []) : DutyLegal t :=
  ⟨fun h => absurd (hb.symm.trans h) Bool.false_ne_true, hend⟩

/-- Acceptance makes the results unread and guards the ranges of the word. -/
theorem dutyLegal_accept (s : State) (w : Word) : DutyLegal (s.accept w) :=
  ⟨fun _ => ⟨rfl, fun _ => List.mem_append_left _⟩, nofun⟩

/-- A read of STATUS ends the duties only when no command runs. -/
theorem State.seeStatus_dutyLegal {s : State} (hs : DutyLegal s) : DutyLegal s.seeStatus := by
  cases hb : s.busy with
  | false =>
    rw [State.seeStatus_idle_eq hb]
    exact dutyLegal_of_idle hb fun _ => rfl
  | true => rwa [State.seeStatus_busy_eq hb]

theorem readWindow_dutyLegal {s : State} (r : WindowReg) (hs : DutyLegal s) : DutyLegal (readWindow s r) := by
  rcases readWindow_eq s r with ⟨v, d, h⟩ | ⟨v, h⟩
  · rw [h]
    exact hs
  · rw [h]
    exact State.seeStatus_dutyLegal hs

theorem waitStep_dutyLegal {s : State} (rest : List HostOp) (hs : DutyLegal s) : DutyLegal (waitStep s rest) := by
  rw [waitStep_eq]
  exact State.seeStatus_dutyLegal hs

theorem DutyKept.readHostMem (s : State) (a : Nat) : DutyKept s (readHostMem s a) := by
  rw [readHostMem_eq]
  exact ⟨rfl, rfl, rfl, fun _ => rfl⟩

/-- The end of a command alone ends no duty of the host. -/
theorem dutyLegal_of_completed {s t : State} (hb : t.busy = false) (hu : t.unread = s.unread) (hg : t.guarded = s.guarded)
    (hs : DutyLegal s) : DutyLegal t := by
  obtain ⟨-, hend⟩ := hs
  refine dutyLegal_of_idle hb ?_
  rwa [hu, hg]

/-! ### Host writes -/

theorem writeBusy_kept (s : State) (r : WindowReg) (v : Word) :
    StatusKept s (writeBusy s r v) ∧ DutyKept s (writeBusy s r v) := by
  cases r with
  | status => exact ⟨.clearStatus s v, rfl, rfl, rfl, fun _ => rfl⟩
  | _ => exact ⟨⟨rfl, id, rfl, rfl, rfl⟩, rfl, rfl, rfl, fun _ => rfl⟩

/-- With no command running a write to an operand register changes no range that matters. -/
theorem writeIdle_kept {s : State} (hb : s.busy = false) {r : WindowReg} (hr : r ≠ .cmd) (v : Word) :
    StatusKept s (writeIdle s r v) ∧ DutyKept s (writeIdle s r v) := by
  have hranges {p : Prop} (h : s.busy = true) : p := absurd (hb.symm.trans h) Bool.false_ne_true
  cases r with
  | cmd => contradiction
  | status => exact ⟨.clearStatus s v, rfl, rfl, rfl, hranges⟩
  | _ => exact ⟨⟨rfl, id, rfl, rfl, rfl⟩, rfl, rfl, rfl, hranges⟩

/-- A host write to a register is the acceptance of a command, or leaves what both invariants look at. -/
theorem writeWindow_accepts_or_keeps (s : State) (r : WindowReg) (v : Word) :
    writeWindow s r v = s.accept v ∨ (StatusKept s (writeWindow s r v) ∧ DutyKept s (writeWindow s r v)) := by
  cases hb : s.busy with
  | true =>
    rw [writeWindow_of_busy hb]
    exact .inr (writeBusy_kept s r v)
  | false =>
    rw [writeWindow_of_idle hb]
    by_cases hr : r = .cmd
    · exact .inl (by rw [hr]; rfl)
    · exact .inr (writeIdle_kept hb hr v)

/-! ### Steps -/

theorem StepEnds.statusLegal {s t : State} (h : StepEnds s t) (hs : StatusLegal s) : StatusLegal t := by
  cases h with
  | command i _ hb he => exact he.statusLegal hb hs
  | illegal => exact statusLegal_of_raised (State.fail_busy _ _) (.fail s _)
  | idle => exact hs
  | readReg rest r => exact (StatusKept.readWindow (s.popHost rest) r).statusLegal hs
  | writeReg rest r v =>
    rcases writeWindow_accepts_or_keeps (s.popHost rest) r v with h | ⟨h, -⟩
    · rw [h]
      exact statusLegal_accept _ v
    · exact h.statusLegal hs
  | wait rest => exact (StatusKept.waitStep s rest).statusLegal hs
  | readMem rest a => exact (StatusKept.readHostMem (s.popHost rest) a).statusLegal hs
  | writeMem => exact hs
  | reset => exact statusLegal_reset

theorem StepEnds.dutyLegal {s t : State} (h : StepEnds s t) (hs : DutyLegal s) : DutyLegal t := by
  cases h with
  | command i _ hb he =>
    obtain ⟨hbusy, -⟩ := he.completed
    have hkept := he.operandsKept
    exact dutyLegal_of_completed hbusy hkept.unread hkept.guarded hs
  | illegal => exact dutyLegal_of_completed (State.fail_busy _ _) (State.fail_unread _ _) (State.fail_guarded _ _) hs
  | idle => exact hs
  | readReg rest r => exact readWindow_dutyLegal (s := s.popHost rest) r hs
  | writeReg rest r v =>
    rcases writeWindow_accepts_or_keeps (s.popHost rest) r v with h | ⟨-, h⟩
    · rw [h]
      exact dutyLegal_accept _ v
    · exact h.dutyLegal hs
  | wait rest => exact waitStep_dutyLegal rest hs
  | readMem rest a => exact (DutyKept.readHostMem (s.popHost rest) a).dutyLegal hs
  | writeMem => exact hs
  | reset => exact dutyLegal_of_idle rfl fun _ => rfl

/-- Settles O44, by the states a step can end in: only an acceptance and the end of a command change the record, and only an
acceptance and a read of BUSY = 0 the duties. -/
theorem stepKeepsStatusLegal : Obligations.StepKeepsStatusLegal := by
  unfold Obligations.StepKeepsStatusLegal
  intro s t h
  have hends := stepEnds_of_step h
  exact ⟨hends.statusLegal, hends.dutyLegal⟩

end Sys2Proof.Machine
end

section
/-! NOP, CLEAR and COUNT_FREQ (40_table_build.md R100 to R102). -/

namespace Sys2Proof.Machine

/-- Settles O11: the answer is `State.complete`, written out. -/
theorem nopCompletes : Obligations.NopCompletes := by
  unfold Obligations.NopCompletes
  intro s
  rfl

/-- Settles O12: the answer is `clearTables`, completed and written out, with a table of zeros. -/
theorem clearCompletes : Obligations.ClearCompletes := by
  unfold Obligations.ClearCompletes
  intro s
  exact ⟨Vector.replicate 256 0, tabGet_replicate 0, rfl⟩

/-! ### COUNT_FREQ -/

theorem exec_countFreq_counted {s : State} {f : Vector Word 256} (hfit : s.srcFits = true)
    (hloop : countLoop s s.srcLen.toNat 0 s.freq = (f, none)) :
    exec .countFreq s = .next { s with freq := f }.complete := by
  show execCountFreq s = _
  unfold execCountFreq
  rw [if_pos hfit, hloop]

theorem exec_countFreq_raised {s : State} {f : Vector Word 256} {r : Raise} (hfit : s.srcFits = true)
    (hloop : countLoop s s.srcLen.toNat 0 s.freq = (f, some r)) :
    exec .countFreq s = .next ({ s with freq := f }.fail r) := by
  show execCountFreq s = _
  unfold execCountFreq
  rw [if_pos hfit, hloop]

/-- The loop of COUNT_FREQ past its first `j` bytes, all admitted and none overflowing its count. -/
theorem countLoop_after {s : State} {j : Nat} (n : Nat) (hr : s.readsAdmitted j)
    (hc : ∀ b, (tabGet s.freq b).toNat + (s.sourcePart j).count b ≤ 2 ^ 32 - 1) :
    countLoop s (j + n) 0 s.freq = countLoop s n j (addCounts s.freq (s.sourcePart j)) := by
  rw [← State.sourceFrom_zero_eq] at hc ⊢
  rw [countLoop_prefix (fun i hi => by rw [Nat.zero_add]; exact hr i hi) hc, Nat.zero_add]

/-- The loop of COUNT_FREQ at an admitted byte whose count is at its largest. -/
theorem countLoop_overflow {s : State} {j : Nat} {f : Vector Word 256} (n : Nat)
    (hr : s.admits (s.srcAddr.toNat + j) .read = true) (hf : tabGet f (s.sourceByte j) = BitVec.allOnes 32) :
    countLoop s (n + 1) j f = (f, some ⟨.capacity, BitVec.ofNat 32 j, 0⟩) := by
  simp only [countLoop, readSrc_admitted hr, if_pos hf]

/-- Settles O13: the loop goes through the whole source (`countLoop_after`), and the table it leaves holds the sums. -/
theorem countFreqAddsCounts : Obligations.CountFreqAddsCounts := by
  unfold Obligations.CountFreqAddsCounts
  intro s hfit hr hc
  have hloop : countLoop s s.srcLen.toNat 0 s.freq = (addCounts s.freq s.sourceBytes, none) := countLoop_after 0 hr hc
  exact ⟨addCounts s.freq s.sourceBytes, exec_countFreq_counted hfit hloop, addCounts_spec hc⟩

/-- Settles O14: the loop goes through the bytes before offset `j` and stops there, the count of byte `j` being at its
largest. -/
theorem countFreqStopsAtOverflow : Obligations.CountFreqStopsAtOverflow := by
  unfold Obligations.CountFreqStopsAtOverflow
  intro s j hfit hj hr hc hfull
  have hmax : tabGet (addCounts s.freq (s.sourcePart j)) (s.sourceByte j) = BitVec.allOnes 32 := by
    refine BitVec.eq_of_toNat_eq ?_
    rw [addCounts_spec hc, hfull, BitVec.toNat_allOnes]
  have hloop : countLoop s s.srcLen.toNat 0 s.freq =
      (addCounts s.freq (s.sourcePart j), some ⟨.capacity, BitVec.ofNat 32 j, 0⟩) := by
    rw [show s.srcLen.toNat = j + ((s.srcLen.toNat - j - 1) + 1) by omega,
      countLoop_after _ (fun i hi => hr i (by omega)) hc, countLoop_overflow _ (hr j (by omega)) hmax]
  refine ⟨addCounts s.freq (s.sourcePart j), ?_, addCounts_spec hc⟩
  rw [exec_countFreq_raised hfit hloop, State.fail_unwritten rfl]
  rfl

end Sys2Proof.Machine
end

section
/-! BUILD_TREE: its answer, the leaves in symbol order, the merges, and how deep a leaf can lie (40_table_build.md R110 to R114,
R123). -/

namespace Sys2Proof.Machine

/-! ### The symbols present -/

theorem allSymbols_ascending : allSymbols.Pairwise fun b c => b.toNat < c.toNat := by
  refine List.pairwise_iff_getElem.2 fun i j hi hj hij => ?_
  rw [allSymbols_length] at hi hj
  simp only [allSymbols_getElem, BitVec.toNat_ofNat]
  omega

theorem State.presentSymbols_ascending (s : State) : s.presentSymbols.Pairwise fun b c => b.toNat < c.toNat :=
  allSymbols_ascending.filter _

theorem State.mem_presentSymbols {s : State} {b : Byte} : b ∈ s.presentSymbols ↔ tabGet s.freq b ≠ 0 := by
  simp [State.presentSymbols]

theorem State.presentSymbols_length (s : State) : s.presentSymbols.length = s.symbolsPresent :=
  List.countP_eq_length_filter.symm

theorem State.symbolsPresent_eq_zero {s : State} (h : ∀ b, tabGet s.freq b = 0) : s.symbolsPresent = 0 :=
  List.countP_eq_zero.2 fun b _ => by simp [h b]

/-- Entries that are 0 can be left out of a sum. -/
theorem sum_map_filter_of_zero {α : Type} {p : α → Bool} {f : α → Nat} {l : List α}
    (h : ∀ a ∈ l, p a = false → f a = 0) : ((l.filter p).map f).sum = (l.map f).sum := by
  induction l with
  | nil => rfl
  | cons a l ih =>
    have ih := ih fun c hc => h c (List.mem_cons_of_mem a hc)
    cases hp : p a with
    | true => rw [List.filter_cons_of_pos hp, List.map_cons, List.map_cons, List.sum_cons, List.sum_cons, ih]
    | false =>
      rw [List.filter_cons_of_neg (by simp [hp]), List.map_cons, List.sum_cons, ih, h a (by simp) hp, Nat.zero_add]

/-! ### The leaves -/

/-- A count of the table is not changed by its widening to 40 bits. -/
theorem toNat_setWidth_count (w : Word) : (w.setWidth 40).toNat = w.toNat :=
  BitVec.toNat_setWidth_of_le (by omega)

/-- The counts of the leaves sum to those of the whole table: the symbols left out have none. -/
theorem State.leaves_sum (s : State) :
    (s.leaves.map fun x => x.freq.toNat).sum = (allSymbols.map fun b => (tabGet s.freq b).toNat).sum := by
  have hmap : (s.leaves.map fun x => x.freq.toNat) = s.presentSymbols.map fun b => (tabGet s.freq b).toNat := by
    rw [State.leaves, List.map_map]
    exact List.map_congr_left fun b _ => toNat_setWidth_count _
  rw [hmap]
  exact sum_map_filter_of_zero fun b _ hb => by rw [bne_eq_false_iff_eq.1 hb]; rfl

/-- Each leaf has a count of 1 or more. -/
theorem State.leaves_counted (s : State) : ∀ x ∈ s.leaves, 1 ≤ x.freq.toNat ∧ ∃ b f, x = .leaf b f := by
  intro x hx
  obtain ⟨b, hb, rfl⟩ := List.mem_map.1 hx
  refine ⟨?_, b, _, rfl⟩
  have hne : (tabGet s.freq b).toNat ≠ 0 := fun h => State.mem_presentSymbols.1 hb (BitVec.eq_of_toNat_eq h)
  show 1 ≤ ((tabGet s.freq b).setWidth 40).toNat
  rw [toNat_setWidth_count]
  omega

/-! ### The merges -/

/-- A merge is an internal node over two earlier nodes, the less frequent on the left (40_table_build.md R112, R114). -/
theorem mergeLegal.internal {t : Vector Node 511} {n k : Nat} (h : mergeLegal t n k) (hk : k < 512) :
    ∃ f l r, nodeAt t k = .internal f l r ∧ l.toNat < k ∧ r.toNat < k ∧
      (nodeAt t l.toNat).freq.toNat ≤ (nodeAt t r.toNat).freq.toNat := by
  obtain ⟨a, ha, b, hb, hab, hnode, hleast, -⟩ := h
  have hak := (mem_activeBefore.1 ha).1
  have hbk := (mem_activeBefore.1 hb).1
  have ha9 : (BitVec.ofNat 9 a).toNat = a := Nat.mod_eq_of_lt (by omega)
  have hb9 : (BitVec.ofNat 9 b).toNat = b := Nat.mod_eq_of_lt (by omega)
  have hle := keyLess_iff.1 (hleast b hb hab.symm)
  refine ⟨_, _, _, hnode, ?_⟩
  rw [ha9, hb9]
  omega

/-! ### The answer -/

/-- BUILD_TREE over a table that is not empty, by its answer. -/
theorem tree_of_exec_buildTree {s t : State} (h0 : s.symbolsPresent ≠ 0) (h : exec .buildTree s = .next t) :
    Merging s.leaves t.node [2 * s.symbolsPresent - 2] (2 * s.symbolsPresent - 1) ∧
      t.root.toNat = 2 * s.symbolsPresent - 2 := by
  have hle := s.symbolsPresent_le
  cases ends_of_exec h with
  | noTree h => contradiction
  | tree u _ hm _ => exact ⟨hm, Nat.mod_eq_of_lt (show 2 * s.symbolsPresent - 2 < 2 ^ 9 by omega)⟩

/-- Settles O18: no symbol is present (`execBuildTree_empty`). -/
theorem buildTreeEmptyInput : Obligations.BuildTreeEmptyInput := by
  unfold Obligations.BuildTreeEmptyInput
  intro s h
  rw [show exec .buildTree s = execBuildTree s from rfl, execBuildTree_empty (State.symbolsPresent_eq_zero h),
    State.fail_unwritten rfl]
  rfl

/-- Settles O16: what the merge loop keeps (`Merging`) says where the leaves and the merges stand and what their frequencies
sum to. -/
theorem buildTreeCounts : Obligations.BuildTreeCounts := by
  unfold Obligations.BuildTreeCounts
  intro s h0
  have hle := s.symbolsPresent_le
  obtain ⟨t, hm, -, hexec⟩ := execBuildTree_tree h0
  refine ⟨t, hexec, fun i hi => ?leaf, fun k hk hk2 => ?internal, ?sum⟩
  case leaf =>
    rw [← s.leaves_length] at hi
    rw [hm.leaf i hi]
    exact s.leaves_leaf _ (List.getElem_mem hi)
  case internal =>
    rw [← s.leaves_length] at hk
    obtain ⟨f, l, r, hnode, hl, hr, -⟩ := (hm.made k hk hk2).internal (by omega)
    exact ⟨f, l, r, hnode, hl, hr⟩
  case sum =>
    rw [← s.leaves_sum, ← hm.sum]
    simp [freqSum]

/-- Settles O17: the leaves stand as they were written, and every later node is a legal merge (`Merging.made`). -/
theorem buildTreeMergesLeastKeys : Obligations.BuildTreeMergesLeastKeys := by
  unfold Obligations.BuildTreeMergesLeastKeys
  intro s t h0 h
  have hle := s.symbolsPresent_le
  obtain ⟨hm, -⟩ := tree_of_exec_buildTree h0 h
  refine ⟨fun i hi => ?leaf, s.presentSymbols_ascending, fun b => State.mem_presentSymbols, fun k hk hk2 => ?merge⟩
  case leaf =>
    rw [hm.leaf i (by rwa [State.leaves_length, ← State.presentSymbols_length])]
    simp only [State.leaves, List.getElem_map]
  case merge =>
    rw [← s.leaves_length] at hk ⊢
    have hmerge := hm.made k hk hk2
    refine ⟨hmerge, fun f l r hnode => ?_⟩
    obtain ⟨f', l', r', hnode', -, -, hfreq⟩ := hmerge.internal (by omega)
    rw [hnode'] at hnode
    cases hnode
    exact hfreq

/-- Settles O19: a root with a leaf at depth `d` has at least the frequency `fib (d + 2)` (`Merging.fib_le`), and the table's sum
is less than `2 ^ 40`, so less than `fib 60`. -/
theorem builtTreeDepthBounded : Obligations.BuiltTreeDepthBounded := by
  unfold Obligations.BuiltTreeDepthBounded
  intro s t h0 h q b f hq
  have hle := s.symbolsPresent_le
  obtain ⟨hm, hroot⟩ := tree_of_exec_buildTree h0 h
  rw [hroot] at hq
  have hfib := hm.fib_le (by omega) s.leaves_counted q (by omega) hq
  have hsum : (nodeAt t.node (2 * s.symbolsPresent - 2)).freq.toNat < 2 ^ 40 := by
    have hlt := s.leaves_sum_lt
    rw [← hm.sum] at hlt
    simpa [freqSum] using hlt
  have h60 : 2 ^ 40 < Nat.fib 60 := by norm_num
  by_contra hdeep
  have hmono : Nat.fib 60 ≤ Nat.fib (q.length + 2) := Nat.fib_mono (by omega)
  omega

end Sys2Proof.Machine
end

section
/-! ASSIGN_CODES: when it succeeds, the codes it assigns, and that they are complete (40_table_build.md R120 to R122). -/

namespace Sys2Proof.Machine

/-! ### The codes of a tree -/

/-- A legal tree's shape and its root, the last of its nodes (10_state.md R40). -/
theorem TreeLegal.shape_root {s : State} (ht : TreeLegal s) (hv : s.treeValid = true) :
    TreeShape s.node s.nodeCount.toNat ∧ s.root.toNat = s.nodeCount.toNat - 1 ∧ s.root.toNat < s.nodeCount.toNat := by
  obtain ⟨hroot, hshape⟩ := ht hv
  have hpos := hshape.1
  exact ⟨hshape, hroot, by omega⟩

/-- A symbol that a leaf has gets a code (`State.assigned_complete`). -/
theorem State.assigned_of_leaf {s : State} (ht : TreeLegal s) (hv : s.treeValid = true) {q : Bits} {b : Byte}
    {f : BitVec 40} (h : follow s.node s.root.toNat q = some (.leaf b f)) : (tabGet s.assigned b).isSome = true := by
  obtain ⟨hshape, -, hlt⟩ := ht.shape_root hv
  exact State.assigned_complete hshape.childrenEarlier hlt hshape.2.1 h

/-- Where no leaf lies deeper than 63, no code is too long (40_table_build.md R123). -/
theorem tooLong_assigned_eq_nil {s : State}
    (h : ∀ q b f, follow s.node s.root.toNat q = some (.leaf b f) → q.length ≤ 63) : tooLong s.assigned = [] := by
  refine List.filter_eq_nil_iff.2 fun b _ => ?_
  rw [decide_eq_true_eq, Nat.not_lt]
  show (codeIn s.assigned b).length ≤ 63
  cases hb : tabGet s.assigned b with
  | none => simp [codeIn, hb]
  | some q =>
    simp only [codeIn, hb, Option.getD_some]
    rcases (State.assigned_sound hb).2 with ⟨f, -, rfl⟩ | ⟨f, hq⟩
    · simp
    · exact h q b f hq

theorem exec_assignCodes_success {s : State} (hv : s.treeValid = true) (hs : tooLong s.assigned = []) :
    exec .assignCodes s = .next (setCodes s s.assigned).complete := by
  show execAssignCodes s = _
  unfold execAssignCodes
  rw [if_pos hv, hs]

/-- A symbol has a code in the table exactly when the map `P` gives it one. -/
theorem setCodes_assigned_coded {s : State} (hs : tooLong s.assigned = []) {b : Byte} :
    tabGet (setCodes s s.assigned).codeLen b ≠ 0 ↔ (tabGet s.assigned b).isSome = true :=
  setCodes_coded (fun _ _ h => (State.assigned_sound h).1) (tooLong_nil hs b)

/-- The code the table holds for a symbol to which `P` gives one. -/
theorem setCodes_codeOf_of_assigned {s : State} (hs : tooLong s.assigned = []) {b : Byte} {q : Bits}
    (h : tabGet s.assigned b = some q) : (setCodes s s.assigned).codeOf b = q := by
  rw [setCodes_codeOf _ _ _ (tooLong_nil hs b), codeIn, h, Option.getD_some]

/-- A coded symbol's code is the single bit 0 under a root that is its leaf (40_table_build.md R121), and otherwise the path
to its leaf (R120). -/
theorem setCodes_assigned_path {s : State} (hs : tooLong s.assigned = []) {b : Byte}
    (h : tabGet (setCodes s s.assigned).codeLen b ≠ 0) :
    (∃ f, nodeAt s.node s.root.toNat = .leaf b f ∧ (setCodes s s.assigned).codeOf b = [false]) ∨
      ∃ f, follow s.node s.root.toNat ((setCodes s s.assigned).codeOf b) = some (.leaf b f) := by
  obtain ⟨q, hq⟩ := Option.isSome_iff_exists.1 ((setCodes_assigned_coded hs).1 h)
  rw [setCodes_codeOf_of_assigned hs hq]
  exact (State.assigned_sound hq).2

theorem setCodes_codeBits_eq {s : State} (hs : tooLong s.assigned = []) (b : Byte) :
    (tabGet (setCodes s s.assigned).codeBits b).toNat = valOf ((setCodes s s.assigned).codeOf b) := by
  rw [setCodes_codeBits _ _ _ (tooLong_nil hs b), setCodes_codeOf _ _ _ (tooLong_nil hs b)]

/-- A legal table's code of length 0 has the bits 0 (10_state.md R42). -/
theorem CodesLegal.codeBits_eq_zero {s : State} (h : CodesLegal s) {b : Byte} (hb : tabGet s.codeLen b = 0) :
    tabGet s.codeBits b = 0 := by
  have hlt := h.1 b
  rw [hb] at hlt
  exact BitVec.eq_of_toNat_eq (by simpa using hlt)

/-- The table's entries for the code that is the single bit 0. -/
theorem codeEntries_of_codeOf_zero {s : State} (hbits : ∀ b, (tabGet s.codeBits b).toNat = valOf (s.codeOf b)) {b : Byte}
    (h : s.codeOf b = [false]) : tabGet s.codeLen b = 1 ∧ tabGet s.codeBits b = 0 := by
  have hlen := s.codeOf_length b
  have hval := hbits b
  rw [h] at hlen hval
  exact ⟨BitVec.eq_of_toNat_eq hlen.symm, BitVec.eq_of_toNat_eq hval⟩

/-- Settles O20: the codes are those of the map `P` (`State.assigned_sound`, `State.assigned_of_leaf`), and the table made of it
is legal, which gives SYM_COUNT and MAX_LEN. -/
theorem assignCodesFollowsTree : Obligations.AssignCodesFollowsTree := by
  unfold Obligations.AssignCodesFollowsTree
  intro s ht hv hdeep
  have hs := tooLong_assigned_eq_nil hdeep
  have hlegal := setCodes_codesLegal ht hv hs
  have hbits := setCodes_codeBits_eq hs
  obtain ⟨-, hcount, -, hmax⟩ := hlegal.2 rfl
  refine ⟨_, exec_assignCodes_success hv hs, rfl, fun b hb => ?path, hbits, fun b q f hq => ?coded,
    fun b hb => hlegal.codeBits_eq_zero hb, hcount, hmax⟩
  case path =>
    rcases setCodes_assigned_path hs hb with ⟨f, hroot, hcode⟩ | hpath
    · exact .inl ⟨f, hroot, codeEntries_of_codeOf_zero hbits hcode⟩
    · exact .inr hpath
  case coded => exact (setCodes_assigned_coded hs).2 (State.assigned_of_leaf ht hv hq)

/-! ### Completeness -/

/-- The root of a tree is a leaf exactly when it is the only node: with more nodes the last but one has a parent, and only
the root is later. -/
theorem TreeShape.root_leaf_iff {t : Vector Node 511} {m : Nat} (h : TreeShape t m) :
    (nodeAt t (m - 1)).rank = 0 ↔ m = 1 := by
  have hearlier := h.childrenEarlier
  obtain ⟨hpos, -, -, hparent, -⟩ := h
  constructor
  · intro hleaf
    by_contra hm
    obtain ⟨k, hk, hchild, -⟩ := hparent (m - 2) (by omega)
    obtain ⟨f, l, r, hnode, hlr⟩ := isChild_iff.1 hchild
    have hlt := hearlier k hk f l r hnode
    rw [show m - 1 = k by omega, hnode] at hleaf
    cases hleaf
  · rintro rfl
    cases hnode : nodeAt t 0 with
    | leaf b f => rfl
    | internal f l r => exact absurd (hearlier 0 hpos f l r hnode).1 (Nat.not_lt_zero _)

/-- There are as many codes as leaves. -/
theorem setCodes_codedSymbols_length {s : State} (ht : TreeLegal s) (hv : s.treeValid = true)
    (hs : tooLong s.assigned = []) : (setCodes s s.assigned).codedSymbols.length =
      (List.range s.nodeCount.toNat).countP fun i => (nodeAt s.node i).rank == 0 := by
  obtain ⟨hshape, hroot, -⟩ := ht.shape_root hv
  rw [← State.assigned_count hshape hroot, State.codedSymbols, ← List.countP_eq_length_filter]
  refine List.countP_congr fun b _ => ?_
  rw [bne_iff_ne]
  exact setCodes_assigned_coded hs

/-- The Kraft sum of the table is that of the map `P`. -/
theorem setCodes_kraft {s : State} (hs : tooLong s.assigned = []) :
    ((setCodes s s.assigned).codedSymbols.map fun b =>
      2 ^ (63 - (tabGet (setCodes s s.assigned).codeLen b).toNat)).sum = shareSum s.assigned := by
  have hcoded : ∀ b, (tabGet (setCodes s s.assigned).codeLen b != 0) = (tabGet s.assigned b).isSome := fun b =>
    Bool.eq_iff_iff.2 (by rw [bne_iff_ne]; exact setCodes_assigned_coded hs)
  have hshare : ∀ b ∈ (setCodes s s.assigned).codedSymbols,
      2 ^ (63 - (tabGet (setCodes s s.assigned).codeLen b).toNat) = codeShare (tabGet s.assigned b) := by
    intro b hb
    obtain ⟨q, hq⟩ := Option.isSome_iff_exists.1 ((hcoded b).symm.trans (List.mem_filter.1 hb).2)
    rw [← State.codeOf_length, setCodes_codeOf_of_assigned hs hq, hq]
    rfl
  rw [List.map_congr_left hshare]
  refine sum_map_filter_of_zero fun b _ hb => ?_
  rw [hcoded, Option.isSome_eq_false_iff, Option.isNone_iff_eq_none] at hb
  rw [hb]
  rfl

/-- One symbol is coded exactly when the root is a leaf: one code of length 1 or more is not complete by itself. -/
theorem setCodes_one_symbol_iff {s : State} (ht : TreeLegal s) (hv : s.treeValid = true)
    (hs : tooLong s.assigned = []) :
    (setCodes s s.assigned).codedSymbols.length = 1 ↔ (nodeAt s.node s.root.toNat).rank = 0 := by
  obtain ⟨hshape, hroot, -⟩ := ht.shape_root hv
  constructor
  · intro hone
    by_contra hinternal
    obtain ⟨b, hb⟩ := List.length_eq_one_iff.1 hone
    have hsum := setCodes_kraft hs
    rw [State.assigned_shares hshape hroot hs, if_neg hinternal, hb, List.map_singleton, List.sum_singleton] at hsum
    have hlen : tabGet (setCodes s s.assigned).codeLen b ≠ 0 := by
      have hmem : b ∈ (setCodes s s.assigned).codedSymbols := by simp [hb]
      exact bne_iff_ne.1 (List.mem_filter.1 hmem).2
    have hexp := Nat.pow_right_injective (Nat.le_refl 2) hsum
    exact hlen (BitVec.eq_of_toNat_eq (show _ = 0 by omega))
  · intro hleaf
    have hm : s.nodeCount.toNat = 1 := hshape.root_leaf_iff.1 (hroot ▸ hleaf)
    rw [setCodes_codedSymbols_length ht hv hs, hm]
    rw [hroot, hm] at hleaf
    simp [hleaf]

/-- ASSIGN_CODES that ends with a code table and without the tree succeeded. -/
theorem codes_of_exec_assignCodes {s t : State} (hv : s.treeValid = true) (h : exec .assignCodes s = .next t)
    (ht : t.treeValid = false) : tooLong s.assigned = [] ∧ t = (setCodes s s.assigned).complete := by
  cases ends_of_exec h with
  | codes _ hs => exact ⟨hs, rfl⟩
  | codesError r _ => rw [State.fail_treeValid, hv] at ht; cases ht

/-- Settles O21: the table is legal, so no code begins with another, and its Kraft sum is that of the tree
(`State.assigned_shares`). -/
theorem assignedCodesComplete : Obligations.AssignedCodesComplete := by
  unfold Obligations.AssignedCodesComplete
  intro s t ht hv h _ hconsumed
  obtain ⟨hs, rfl⟩ := codes_of_exec_assignCodes hv h hconsumed
  obtain ⟨hshape, hroot, -⟩ := ht.shape_root hv
  obtain ⟨hfree, hcount, -⟩ := (setCodes_codesLegal ht hv hs).2 rfl
  refine ⟨fun b hb => State.codeOf_ne_nil hb, hfree, fun b c hbc hb hc heq => ?different, ?count, ?kraft⟩
  case different => exact hfree b c hbc hb hc (heq ▸ List.prefix_refl _)
  case count => exact hcount.trans (setCodes_codedSymbols_length ht hv hs)
  case kraft =>
    refine (setCodes_kraft hs).trans ?_
    rw [State.assigned_shares hshape hroot hs, State.complete_symCount, hcount]
    simp only [setCodes_one_symbol_iff ht hv hs]

end Sys2Proof.Machine
end

section
/-! PACK and UNPACK (41_bit_pack.md): the bytes a completed PACK leaves, the string a completed UNPACK leaves, the errors that
end either, and the round trip of the two (R154). -/

namespace Sys2Proof.Machine

/-! ### A filled destination -/

/-- OUT_LEN holds the number of bytes written, which DST_CAP bounds. -/
theorem State.sinkOf_outLen {s : State} {l : List Byte} (hl : l.length ≤ s.dstCap.toNat) :
    (BitVec.ofNat 32 (s.sinkOf l).out).toNat = l.length := by
  rw [State.sinkOf_out, BitVec.toNat_ofNat, Nat.mod_eq_of_lt (lt_of_le_of_lt hl s.dstCap.isLt)]

section
variable {s : State} {l : List Byte} (hok : s.rangesOk = true) (hl : l.length ≤ s.dstCap.toNat)
include hok hl

theorem State.sinkOf_fits : s.dstAddr.toNat + l.length ≤ Config.memSize :=
  (Nat.add_le_add_left hl _).trans (State.dstFits_iff.1 (State.rangesOk_iff.1 hok).2.1)

variable (hm : Mem.wf s.mem = true)
include hm

theorem State.sinkOf_read_inside {i : Nat} (hi : i < l.length) :
    Mem.read (s.sinkOf l).mem (s.dstAddr.toNat + i) = l[i] :=
  Mem.read_writeAll_inside hm (State.sinkOf_fits hok hl) hi

theorem State.sinkOf_read_outside {a : Nat} (ha : ¬(s.dstAddr.toNat ≤ a ∧ a < s.dstAddr.toNat + l.length)) :
    Mem.read (s.sinkOf l).mem a = Mem.read s.mem a :=
  Mem.read_writeAll_outside hm (State.sinkOf_fits hok hl) ha

/-- A source range laid over the bytes written reads them back. -/
theorem State.sourceBytes_of_sinkOf {u : State} (hmem : u.mem = (s.sinkOf l).mem) (haddr : u.srcAddr = s.dstAddr)
    (hlen : u.srcLen.toNat = l.length) : u.sourceBytes = l := by
  refine List.ext_getElem (u.sourceBytes_length.trans hlen) fun i _ hi => ?_
  simp only [State.sourceBytes, State.sourcePart, State.sourceByte, List.getElem_map, List.getElem_range, hmem, haddr]
  exact State.sinkOf_read_inside hok hl hm hi

end

/-! ### The padded stream (R141, R142) -/

theorem State.codeStream_length (s : State) (l : List Byte) :
    (s.codeStream l).length = (l.map fun b => (tabGet s.codeLen b).toNat).sum := by
  simp [State.codeStream, List.length_flatMap, State.codeOf_length]

/-- The padding fills the last byte. -/
theorem add_padFor (t : Nat) : t + padFor t = 8 * ((t + 7) / 8) := by
  unfold padFor
  omega

theorem padFor_lt (t : Nat) : padFor t < 8 := Nat.mod_lt _ (by omega)

theorem toNat_padFor (t : Nat) : (BitVec.ofNat 3 (padFor t)).toNat = padFor t := by
  rw [BitVec.toNat_ofNat, Nat.mod_eq_of_lt (padFor_lt t)]

/-- The stream with its padding has the bits of whole bytes. -/
theorem padded_length (q : Bits) : (q ++ List.replicate (padFor q.length) false).length = 8 * ((q.length + 7) / 8) := by
  rw [List.length_append, List.length_replicate, add_padFor]

/-- Bit `k` of the packed bytes is bit `k` of the stream, and 0 past its end. -/
theorem packedBytes_getLsbD {q : Bits} {k : Nat} (hk : k / 8 < (packedBytes q).length) :
    ((packedBytes q)[k / 8]).getLsbD (7 - k % 8) = (q[k]?).getD false := by
  have hk8 : k < 8 * ((q.length + 7) / 8) := by rw [packedBytes_length] at hk; omega
  have hpad := padded_length q
  refine (groupBytes_bit hpad.ge hk8).trans ?_
  by_cases h : k < q.length
  · rw [List.getElem_append_left h, List.getElem?_eq_getElem h, Option.getD_some]
  · rw [List.getElem_append_right (by omega), List.getElem_replicate, List.getElem?_eq_none (by omega), Option.getD_none]

/-- The bits of the packed bytes, less the padding, are the stream. -/
theorem packedBytes_bits (q : Bits) : ((packedBytes q).flatMap fun b => bitsOf 8 b.toNat).take q.length = q := by
  rw [packedBytes, groupBytes_bits (padded_length q), List.take_left]

/-! ### PACK -/

theorem exec_pack_of_run {s : State} {l : List Byte} {p : Nat} (hv : s.codesValid = true) (hok : s.rangesOk = true)
    (h : packRun s = .ok (s.sinkOf l, p)) : exec .pack s = .next (setPacked s (s.sinkOf l) p).complete :=
  (execPack_run hv hok).trans (by rw [h])

/-- PACK that ends without an error has passed its checks, met only coded bytes, and written the padded stream, for which
there was room. -/
theorem exec_pack_success {s t : State} (h : exec .pack s = .next t) (ht : t.errCode = 0) :
    s.codesValid = true ∧ s.rangesOk = true ∧ (∀ b ∈ s.sourceBytes, tabGet s.codeLen b ≠ 0) ∧
      (packedBytes (s.codeStream s.sourceBytes)).length ≤ s.dstCap.toNat ∧
      t = (setPacked s (s.sinkOf (packedBytes (s.codeStream s.sourceBytes)))
        (padFor (s.codeStream s.sourceBytes).length)).complete := by
  have hfail : ∀ r, (Host.Outcome.next t : Host.Outcome State Fault Refusal) ≠ .next (s.fail r) := by
    intro r hr
    cases hr
    exact (ErrorName.code_legal r.name).2 ((s.fail_errCode r).symm.trans ht)
  replace h : execPack s = .next t := h
  unfold execPack at h
  split at h
  · next hv =>
    split at h
    · next hok =>
      split at h
      · exact absurd h.symm (hfail _)
      · next k p hrun =>
        obtain ⟨hcoded, rfl, rfl, hroom⟩ := packRun_inv hrun
        refine ⟨hv, hok, fun b hb => ?_, hroom, ?_⟩
        · obtain ⟨j, hj, rfl⟩ := List.mem_map.1 hb
          exact hcoded j (List.mem_range.1 hj)
        · cases h
          rfl
    · exact absurd h.symm (hfail _)
  · exact absurd h.symm (hfail _)

/-- Settles O24: the run writes the padded stream (`packRun_room`), whose bits are those of the stream and 0 past its end. -/
theorem packWritesStream : Obligations.PackWritesStream := by
  unfold Obligations.PackWritesStream
  intro s hm ⟨hv, hok, hr, hcoded, hroom, hw⟩
  refine ⟨_, exec_pack_of_run hv hok (packRun_room ⟨hr, hcoded⟩ hroom hw), rfl, s.codeStream_length _, ?_⟩
  generalize s.codeStream s.sourceBytes = q at hroom
  have hl : (packedBytes q).length ≤ s.dstCap.toNat := by rwa [packedBytes_length]
  have hout := (State.sinkOf_outLen hl).trans (packedBytes_length q)
  have hbit : ∀ k, k < 8 * ((q.length + 7) / 8) →
      (Mem.read (s.sinkOf (packedBytes q)).mem (s.dstAddr.toNat + k / 8)).getLsbD (7 - k % 8) = (q[k]?).getD false := by
    intro k hk
    have hk8 : k / 8 < (packedBytes q).length := by rw [packedBytes_length]; omega
    rw [State.sinkOf_read_inside hok hl hm hk8, packedBytes_getLsbD hk8]
  refine ⟨hout, toNat_padFor _, fun k hk => ?stream, fun k hk hlt => ?padding, fun a ha => ?outside⟩
  case stream => exact (hbit k (by omega)).trans (by rw [List.getElem?_eq_getElem hk, Option.getD_some])
  case padding =>
    exact (hbit k (hlt.trans_eq (congrArg (8 * ·) hout))).trans (by rw [List.getElem?_eq_none hk, Option.getD_none])
  case outside => exact State.sinkOf_read_outside hok hl hm (by rw [packedBytes_length, ← hout]; exact ha)

/-- Settles O25: the run stops where its destination is full (`State.stopsAt_full`). -/
theorem packCapacity : Obligations.PackCapacity := by
  unfold Obligations.PackCapacity
  intro i s hi hw
  rcases hi with ⟨rfl, hv, hok, j, hj, hr, hcoded, hreach⟩ | ⟨rfl, hc, hv, hok, hpad, m, hcoded, hm, hdata, hr⟩
  · exact exec_pack_raised hv hok (packRun_stop hj hr hcoded (State.stopsAt_full hw) hreach)
  · exact exec_unpack_raised hv hok (unpackRun_stop hc hv (State.stopsAt_full hw) hcoded hm hdata hpad hr)

/-- Settles O26: the run ends at the byte without a code, after the whole bytes of the codes before it
(`packRun_uncoded`). -/
theorem packUncodedSymbol : Obligations.PackUncodedSymbol := by
  unfold Obligations.PackUncodedSymbol
  intro s j hm hv hok hj hr hcoded h0 hroom hw
  obtain ⟨t, hexec, hrest, houtside, hunwritten⟩ :=
    exec_pack_raised hv hok (packRun_uncoded hj hr hcoded h0 hroom hw)
  exact ⟨t, hexec, hrest, houtside hm, fun hlt => (hunwritten (Nat.div_eq_of_lt hlt)).1⟩

/-! ### UNPACK -/

/-- Settles O27: the loop decodes the codes one by one (`unpackRun_codes`). -/
theorem unpackDecodesCodes : Obligations.UnpackDecodesCodes := by
  unfold Obligations.UnpackDecodesCodes
  intro s m hm hc hv hok hpad hr hcoded hdata hl hw
  have hrun := unpackRun_codes hc hv hcoded hdata hpad hr hl hw
  refine ⟨(setUnpacked s (s.sinkOf m)).complete, (execUnpack_run hv hok).trans (by rw [hrun]), rfl,
    State.sinkOf_outLen hl, fun j hj => ?inside, fun a ha => ?outside⟩
  case inside => exact State.sinkOf_read_inside hok hl hm hj
  case outside => exact State.sinkOf_read_outside hok hl hm ha

section
variable {s : State} {m : List Byte} {q : Bits} (hc : CodesLegal s) (hv : s.codesValid = true)
  (hpad : s.pad.toNat ≤ 8 * s.srcLen.toNat) (hr : s.readsAdmitted s.srcLen.toNat)
  (hcoded : ∀ b ∈ m, tabGet s.codeLen b ≠ 0) (hl : m.length ≤ s.dstCap.toNat) (hw : s.writesAdmitted m.length)
include hc hv hr hcoded hl hw

/-- The loop over data that begin with the codes of `m` and then the bits `q` has written `m` when it comes to `q`. -/
theorem unpackLoop_after_codes (hdata : s.codeStream m ++ q <+: s.dataStream) {n : Nat}
    (hn : s.dataBits = (s.codeStream m).length + (q.length + n)) :
    s.bitsAt (s.codeStream m).length q ∧ ∃ y, s.byteAtHand (s.codeStream m).length y ∧
      unpackLoop s s.dataBits 0 0 [] s.sink =
        unpackLoop s (q.length + n) (s.codeStream m).length y [] (s.sinkOf m) := by
  obtain ⟨rest, hrest⟩ := hdata
  obtain ⟨hcodes, hq⟩ := State.bitsAt_append (State.bitsAt_append (hrest ▸ s.bitsAt_dataStream)).1
  obtain ⟨y, hy, hloop⟩ := unpackLoop_codes (n := q.length + n) (x := 0) (l := []) hc hv hcoded hcodes
    (fun h => absurd rfl h) hr (by unfold State.dataBits at hn; omega) (by simpa using hl) (by simpa using hw)
  rw [Nat.zero_add] at hq hy hloop
  exact ⟨hq, y, hy, by rw [hn]; exact hloop⟩

variable (hno : ∀ b, tabGet s.codeLen b ≠ 0 → ¬s.codeOf b <+: q) (hq : q ≠ [])
include hpad hno hq

/-- MAX_LEN bits that begin with no code end the run at the last of them (R152 (a)). -/
theorem unpackRun_corrupt (hdata : s.codeStream m ++ q <+: s.dataStream) (hlen : q.length = s.maxLen.toNat) :
    unpackRun s =
      .error ⟨.corruptData, BitVec.ofNat 32 ((s.codeStream m).length + q.length - 1), m.length⟩ := by
  have hle := hdata.length_le
  rw [State.dataStream_length, List.length_append] at hle
  obtain ⟨hbits, y, hy, hloop⟩ := unpackLoop_after_codes hc hv hr hcoded hl hw hdata
    (n := s.dataBits - (s.codeStream m).length - q.length) (by omega)
  unfold unpackRun
  rw [if_neg (by omega), hloop,
    unpackLoop_corrupt hno hlen hq hbits hy hr (by unfold State.dataBits at hle; omega), State.sinkOf_out]

/-- Fewer such bits at the end of the data leave a code unfinished (R152 (b)). -/
theorem unpackRun_partial (hdata : s.dataStream = s.codeStream m ++ q) (hlen : q.length < s.maxLen.toNat) :
    unpackRun s = .error ⟨.corruptData, BitVec.ofNat 32 s.dataBits, m.length⟩ := by
  have hn : s.dataBits = (s.codeStream m).length + q.length := by
    rw [← State.dataStream_length, hdata, List.length_append]
  obtain ⟨hbits, y, hy, hloop⟩ := unpackLoop_after_codes hc hv hr hcoded hl hw (hdata ▸ List.prefix_refl _) (n := 0) hn
  obtain ⟨_, -, hrest⟩ := unpackLoop_unmatched (q := []) (n := 0) (k := s.sinkOf m) hno hlen hbits hy hr
    (by unfold State.dataBits at hn; omega)
  unfold unpackRun
  rw [if_neg (by omega), hloop, hrest]
  simp only [unpackLoop, List.nil_append, if_neg hq, State.sinkOf_out]

end

/-- PAD past the number of source bits ends the run before any read (R152 (c)). -/
theorem unpackRun_pad_excess {s : State} (h : 8 * s.srcLen.toNat < s.pad.toNat) :
    unpackRun s = .error ⟨.corruptData, BitVec.ofNat 32 s.pad.toNat, 0⟩ := by
  unfold unpackRun
  rw [if_pos h, BitVec.ofNat_toNat]

/-- Settles O28, case by case: (a) `unpackRun_corrupt`, (b) `unpackRun_partial`, (c) `unpackRun_pad_excess`. -/
theorem unpackCorruptData : Obligations.UnpackCorruptData := by
  unfold Obligations.UnpackCorruptData
  refine ⟨fun s m q hc hv hok hpad hr hcoded hno hq hl hw =>
    ⟨fun hdata hlen => ?unmatched, fun hdata hlen => ?partialCode⟩, fun s hv hok hpad => ?padExcess⟩
  case unmatched => exact exec_unpack_raised hv hok (unpackRun_corrupt hc hv hpad hr hcoded hl hw hno hq hdata hlen)
  case partialCode => exact exec_unpack_raised hv hok (unpackRun_partial hc hv hpad hr hcoded hl hw hno hq hdata hlen)
  case padExcess =>
    refine (execUnpack_run hv hok).trans ?_
    rw [unpackRun_pad_excess hpad]
    exact congrArg Host.Outcome.next (State.fail_unwritten rfl)

/-! ### The round trip (R154) -/

/-- `u` stands ready to unpack what PACK wrote at `s`: its source range holds the packed bytes, PAD and the codes are those
PACK left. -/
structure HoldsPacked (s u : State) : Prop where
  bytes : u.sourceBytes = packedBytes (s.codeStream s.sourceBytes)
  pad : u.pad.toNat = padFor (s.codeStream s.sourceBytes).length
  codeOf : u.codeOf = s.codeOf

/-- The data bits of the packed bytes are the stream they were made of. -/
theorem HoldsPacked.dataStream {s u : State} (h : HoldsPacked s u) :
    u.pad.toNat ≤ 8 * u.srcLen.toNat ∧ u.dataStream = u.codeStream s.sourceBytes := by
  have hlen : u.srcLen.toNat = ((s.codeStream s.sourceBytes).length + 7) / 8 := by
    rw [← State.sourceBytes_length, h.bytes, packedBytes_length]
  have hpadded := add_padFor (s.codeStream s.sourceBytes).length
  have hbits : u.dataBits = (s.codeStream s.sourceBytes).length := by
    rw [State.dataBits, h.pad, hlen]; omega
  refine ⟨by rw [h.pad, hlen]; omega, ?_⟩
  rw [State.dataStream, h.bytes, hbits, packedBytes_bits, State.codeStream, State.codeStream, h.codeOf]

/-- Settles O29: the data bits of PACK's output are the codes of its source (`HoldsPacked.dataStream`), which UNPACK decodes
(`unpackDecodesCodes`). -/
theorem packUnpackRoundTrip : Obligations.PackUnpackRoundTrip := by
  unfold Obligations.PackUnpackRoundTrip
  intro s t u hm hc _ hexec ht hu huok hcap hr hw
  obtain ⟨hv, hok, hcoded, hroom, rfl⟩ := exec_pack_success hexec ht
  have hmem : u.mem = (s.sinkOf (packedBytes (s.codeStream s.sourceBytes))).mem := by rw [hu]; rfl
  have hholds : HoldsPacked s u := by
    refine ⟨State.sourceBytes_of_sinkOf hok hroom hm hmem (by rw [hu]) ?_, ?_, by rw [hu]; rfl⟩
    · rw [hu]; exact State.sinkOf_outLen hroom
    · rw [hu]; exact toNat_padFor _
  obtain ⟨hpad, hdata⟩ := hholds.dataStream
  have hn := s.sourceBytes_length
  obtain ⟨v, hvexec, hvrest, hvlen, hvbytes, -⟩ := unpackDecodesCodes u s.sourceBytes
    (by rw [hmem]; exact (State.sinkOf_mem_spec hm (State.rangesOk_iff.1 hok).2.1 hroom).1)
    (codesLegal_congr (by rw [hu]; rfl) (by rw [hu]; rfl) (by rw [hu]; rfl) (by rw [hu]; rfl) (by rw [hu]; rfl) hc)
    (by rw [hu]; exact hv) huok hpad hr (by rw [hu]; exact hcoded) hdata (by rwa [hn]) (by rwa [hn])
  refine ⟨v, hvexec, by rw [hvrest, hu]; exact ht, BitVec.eq_of_toNat_eq (hvlen.trans hn), fun j hj => ?_⟩
  rw [hvbytes j (by rwa [hn])]
  simp [State.sourceBytes, State.sourcePart, State.sourceByte]

end Sys2Proof.Machine
end

section
/-! SERIALIZE (42_container.md section 1): the container it writes, and the container that does not fit. -/

namespace Sys2Proof.Machine

theorem exec_serialize_of_run {s : State} {l : List Byte} (hv : s.codesValid = true) (hok : s.rangesOk = true)
    (h : serializeRun s = .ok (s.sinkOf l)) : exec .serialize s = .next (setSerialized s (s.sinkOf l)).complete :=
  (execSerialize_run hv hok).trans (by rw [h])

/-- The container of a legal code table has the size `5 + 9 n + SRC_LEN` of 42_container.md R170. -/
theorem State.container_length {s : State} (hc : CodesLegal s) (hv : s.codesValid = true) :
    (s.header ++ s.sourceBytes).length = s.containerSize := by
  rw [List.length_append, State.header_length_legal hc hv, State.sourceBytes_length, State.containerSize]

/-- OUT_LEN holds the size of a container that fits in DST_CAP. -/
theorem State.toNat_containerSize {s : State} (hcap : s.containerSize ≤ s.dstCap.toNat) :
    (BitVec.ofNat 32 s.containerSize).toNat = s.containerSize :=
  Nat.mod_eq_of_lt (lt_of_le_of_lt hcap s.dstCap.isLt)

theorem serializeRun_capacity {s : State} (h : s.dstCap.toNat < s.containerSize) :
    serializeRun s = .error ⟨.capacity, s.dstCap, 0⟩ := if_pos h

/-- Settles O31: the size is compared with DST_CAP before the first access (`serializeRun_capacity`). -/
theorem serializeCapacity : Obligations.SerializeCapacity := by
  unfold Obligations.SerializeCapacity
  intro s hv hok h
  refine (execSerialize_run hv hok).trans ?_
  rw [serializeRun_capacity h]
  exact congrArg Host.Outcome.next (State.fail_unwritten rfl)

/-- Settles O30: the run writes the header and the source bytes (`serializeRun_room`), which together are the container
(`State.header_container`). -/
theorem serializeWritesContainer : Obligations.SerializeWritesContainer := by
  unfold Obligations.SerializeWritesContainer
  intro s hm hc hv hok hcap hr hw
  have hlen := State.container_length hc hv
  have hl : (s.header ++ s.sourceBytes).length ≤ s.dstCap.toNat := hlen.trans_le hcap
  refine ⟨_, s.header ++ s.sourceBytes, exec_serialize_of_run hv hok (serializeRun_room hcap hr hw), rfl,
    State.header_container hc hv, s.codedSymbols_ascend, (State.toNat_containerSize hcap).trans hlen.symm, hlen,
    fun j hj => ?inside, fun a ha => ?outside⟩
  case inside => exact State.sinkOf_read_inside hok hl hm hj
  case outside => exact State.sinkOf_read_outside hok hl hm ha

/-- A state without an error is not what `raise` leaves. -/
theorem State.fail_not_success {s t : State} {r : Raise} (ht : t.errCode = 0)
    (h : (Host.Outcome.next (s.fail r) : Host.Outcome State Fault Refusal) = .next t) : False := by
  cases h
  exact (ErrorName.code_legal r.name).2 ((s.fail_errCode r).symm.trans ht)

/-- SERIALIZE that ends without an error has passed its checks and written a container that fits. -/
theorem exec_serialize_success {s t : State} (h : exec .serialize s = .next t) (ht : t.errCode = 0) :
    s.codesValid = true ∧ s.rangesOk = true ∧ s.containerSize ≤ s.dstCap.toNat ∧
      t = (setSerialized s (s.sinkOf (s.header ++ s.sourceBytes))).complete := by
  replace h : execSerialize s = .next t := h
  unfold execSerialize at h
  split at h
  · next hv =>
    split at h
    · next hok =>
      split at h
      · exact (State.fail_not_success ht h).elim
      · next k hrun =>
        have hcap : s.containerSize ≤ s.dstCap.toNat := by
          by_contra hn
          rw [serializeRun_capacity (Nat.lt_of_not_le hn)] at hrun
          cases hrun
        obtain ⟨rfl, -⟩ := serializeRun_ok hrun
        cases h
        exact ⟨hv, hok, hcap, rfl⟩
    · exact (State.fail_not_success ht h).elim
  · exact (State.fail_not_success ht h).elim

end Sys2Proof.Machine
end

section
/-! DESERIALIZE (42_container.md section 2): the legal containers it loads, the checks of R181 in their order, and what any
error leaves (R182). -/

namespace Sys2Proof.Machine

/-! ### The two ways DESERIALIZE ends -/

theorem exec_deserialize_ok {s : State} {n : Nat} {t : List Byte} (h : parseContainer s = .ok (n, t)) :
    exec .deserialize s = .next (setContainer s n t).complete := by
  show execDeserialize s = _
  unfold execDeserialize
  rw [h]

/-- DESERIALIZE loads what it parsed, or drops the code table and raises the error that ended the parse. -/
theorem exec_deserialize_parsed {s t : State} (h : exec .deserialize s = .next t) :
    (∃ n b, parseContainer s = .ok (n, b) ∧ t = (setContainer s n b).complete) ∨
      ∃ r, parseContainer s = .error r ∧ t = (dropCodes s).fail r := by
  cases hp : parseContainer s with
  | error r =>
    rw [exec_deserialize_error hp] at h
    cases h
    exact .inr ⟨r, rfl, rfl⟩
  | ok a =>
    rw [exec_deserialize_ok hp] at h
    cases h
    exact .inl ⟨a.1, a.2, rfl, rfl⟩

/-- An error of DESERIALIZE leaves the error record and the completion, and what R182 clears. -/
theorem dropCodes_fail {s : State} {r : Raise} (h : r.written = 0) :
    (dropCodes s).fail r =
      { s with
        errCode := r.name.code, errInfo := r.info, outLen := 0, codesValid := false, symCount := 0, maxLen := 0,
        payloadAddr := 0, payloadLen := 0, busy := false, done := true } := by
  rw [State.fail_unwritten h]
  rfl

theorem exec_deserialize_malformed {s : State} {e : Nat} (h : parseContainer s = .error (malformed e)) :
    exec .deserialize s =
      .next { s with
              errCode := 0x04, errInfo := BitVec.ofNat 32 e, outLen := 0, codesValid := false, symCount := 0, maxLen := 0,
              payloadAddr := 0, payloadLen := 0, busy := false, done := true } := by
  rw [exec_deserialize_error h, dropCodes_fail rfl]
  rfl

/-- Settles O33: a code table stays only where the parse succeeded, which it does on legal containers only
(`parseContainer_sound`). -/
theorem deserializeAcceptsOnlyLegal : Obligations.DeserializeAcceptsOnlyLegal := by
  unfold Obligations.DeserializeAcceptsOnlyLegal
  intro s t h hv
  rcases exec_deserialize_parsed h with ⟨n, b, hp, -⟩ | ⟨r, -, rfl⟩
  · obtain ⟨syms, vals, pad, payload, hlegal, hbytes, -, -⟩ := parseContainer_sound hp
    exact ⟨(parseContainer_ok hp).1, syms, vals, pad, payload, hlegal, hbytes⟩
  · rw [State.fail_codesValid, dropCodes_codesValid] at hv
    cases hv

/-! ### Every error of the parse -/

theorem readSpan_error_name {s : State} {n o : Nat} {r : Raise} (h : readSpan s n o = .error r) : r.name = .busError := by
  induction n generalizing o with
  | zero => cases h
  | succ n ih =>
    simp only [readSpan] at h
    split at h
    · next hb =>
      unfold readSrc at hb
      split at hb <;> cases hb
      cases h
      rfl
    · split at h
      · next hbs => cases h; exact ih hbs
      · cases h

theorem parseTable_error_name {s : State} {n : Nat} {r : Raise} (h : parseTable s n = .error r) :
    r.name = .busError ∨ r.name = .malformedContainer := by
  unfold parseTable at h
  split at h
  · cases h; exact .inr rfl
  · split at h
    · cases h; exact .inr rfl
    · split at h
      · cases h; exact .inr rfl
      · split at h
        · next hspan => cases h; exact .inl (readSpan_error_name hspan)
        · split at h
          · cases h; exact .inr rfl
          · cases h

theorem parseContainer_error_name {s : State} {r : Raise} (h : parseContainer s = .error r) :
    r.name = .range ∨ r.name = .busError ∨ r.name = .malformedContainer := by
  unfold parseContainer at h
  split at h
  · split at h
    · cases h; exact .inr (.inr rfl)
    · split at h
      · next hspan => cases h; exact .inr (.inl (readSpan_error_name hspan))
      · exact .inr (parseTable_error_name h)
  · cases h; exact .inl rfl

/-- Settles O36: an error comes before any write (`parseContainer_error`), by one of three names
(`parseContainer_error_name`). -/
theorem deserializeErrorClears : Obligations.DeserializeErrorClears := by
  unfold Obligations.DeserializeErrorClears
  intro s t h0 h ht
  rcases exec_deserialize_parsed h with ⟨n, b, -, rfl⟩ | ⟨r, hp, rfl⟩
  · exact absurd h0 ht
  · refine ⟨?_, ?_⟩
    · rw [State.fail_errCode, State.fail_errInfo]
      exact dropCodes_fail (parseContainer_error hp)
    · rw [State.fail_errCode]
      rcases parseContainer_error_name hp with hn | hn | hn <;> rw [hn] <;> decide

/-! ### Checks 1 to 4 -/

theorem parseContainer_no_count {s : State} (hfit : s.srcFits = true) (h : s.srcLen.toNat < 4) :
    parseContainer s = .error (malformed 0) := (if_pos hfit).trans (if_pos h)

/-- The entry count is that of the first four source bytes. -/
theorem parseContainer_count {s : State} (hfit : s.srcFits = true) (h4 : 4 ≤ s.srcLen.toNat) (hr : s.readsAdmitted 4) :
    parseContainer s = parseTable s (valBE (s.sourcePart 4)) := by
  unfold parseContainer
  rw [if_pos hfit, if_neg (by omega), readSpan_admitted fun i hi => hr _ (by omega), State.sourceFrom_zero_eq]

theorem parseTable_zero {s : State} {n : Nat} (h : n = 0) : parseTable s n = .error (malformed 0) := if_pos h

theorem parseTable_many {s : State} {n : Nat} (h : 256 < n) : parseTable s n = .error (malformed 0) :=
  (if_neg (by omega)).trans (if_pos h)

theorem parseTable_cut {s : State} {n : Nat} (h1 : 1 ≤ n) (h2 : n ≤ 256) (h : s.srcLen.toNat < 5 + 9 * n) :
    parseTable s n = .error (malformed s.srcLen.toNat) :=
  (if_neg (by omega)).trans ((if_neg (Nat.not_lt.2 h2)).trans (if_pos h))

/-- Settles O34: the parse stops at the first of the four checks that fails, before it reads the table. -/
theorem deserializeHeaderChecks : Obligations.DeserializeHeaderChecks := by
  unfold Obligations.DeserializeHeaderChecks
  intro s e hfit h
  refine exec_deserialize_malformed ?_
  rcases h with ⟨hshort, rfl⟩ | ⟨h4, hr, hcount⟩
  · exact parseContainer_no_count hfit hshort
  · rw [parseContainer_count hfit h4 hr]
    rcases hcount with ⟨hzero, rfl⟩ | ⟨hmany, rfl⟩ | ⟨h1, h2, hcut, rfl⟩
    · exact parseTable_zero hzero
    · exact parseTable_many hmany
    · exact parseTable_cut h1 h2 hcut

/-! ### Checks 5 to 9 -/

section
variable {len n k : Nat} {t : List Byte}

theorem tableFault_repeat (h : firstRepeat [] 0 (containerSymbols n t) = some k) :
    tableFault len n t = some (4 + k) := by
  unfold tableFault
  rw [h]

variable (hsyms : (containerSymbols n t).Nodup)
include hsyms

theorem tableFault_short (h : firstShort 0 (containerValues n t) = some k) :
    tableFault len n t = some (4 + n + 8 * k) := by
  unfold tableFault
  rw [firstRepeat_none.2 ⟨hsyms, by simp⟩, h]

variable (hvals : ∀ v ∈ containerValues n t, 2 ≤ v)
include hvals

theorem tableFault_clash (h : firstClash [] 0 ((containerValues n t).map sentinelCode) = some k) :
    tableFault len n t = some (4 + n + 8 * k) := by
  unfold tableFault
  rw [firstRepeat_none.2 ⟨hsyms, by simp⟩, firstShort_none.2 hvals, h]

theorem tableFault_pad
    (hcodes : ((containerValues n t).map sentinelCode).Pairwise fun c d => clashes c d = false)
    (h : 7 < (containerPad n t).toNat ∨ (len = 5 + 9 * n ∧ containerPad n t ≠ 0)) :
    tableFault len n t = some (4 + 9 * n) := by
  unfold tableFault
  rw [firstRepeat_none.2 ⟨hsyms, by simp⟩, firstShort_none.2 hvals, firstClash_none.2 ⟨hcodes, by simp⟩]
  by_cases h7 : 7 < (containerPad n t).toNat
  · exact if_pos h7
  · exact (if_neg h7).trans (if_pos (h.resolve_left h7))

end

/-- The size of a source with the layout of a container (20_memory.md R66). -/
theorem State.srcLen_of_container {s : State} {syms : List Byte} {vals : List Nat} {pad : Byte} {payload : List Byte}
    (hl : vals.length = syms.length) (hs : s.sourceBytes = containerOf syms vals pad payload) :
    s.srcLen.toNat = 5 + 9 * syms.length + payload.length := by
  rw [← s.sourceBytes_length, hs, containerOf_length _ _ _ _ hl]

/-- Settles O35: the table is read whole (`parseContainer_table`), and `tableFault` names the first check that fails. -/
theorem deserializeTableChecks : Obligations.DeserializeTableChecks := by
  unfold Obligations.DeserializeTableChecks
  intro s syms vals pad payload k e hl h1 h2 hlt hs hfit hr hfault
  have hlen := State.srcLen_of_container hl hs
  have hparse := parseContainer_table hl h1 h2 hs hfit hr
  obtain ⟨esyms, evals, epad⟩ := containerParts (pad := pad) hl hlt
  generalize syms ++ vals.flatMap (bytesBE 8) ++ [pad] = b at hparse esyms evals epad
  suffices hb : tableFault s.srcLen.toNat syms.length b = some e by
    rw [hb] at hparse
    exact exec_deserialize_malformed hparse
  rcases hfault with ⟨c, hc, hrep, hbefore, rfl⟩ | ⟨hnd, ⟨v, hv, hshort, hbefore, rfl⟩ |
    ⟨hge, ⟨v, hv, ⟨w, hw, hclash⟩, hbefore, rfl⟩ | ⟨hcodes, hpad, rfl⟩⟩⟩
  · refine tableFault_repeat ?_
    rw [esyms, firstRepeat_some hc (.inr hrep) hbefore (by simp), Nat.zero_add]
  · refine tableFault_short (by rwa [esyms]) ?_
    rw [evals, firstShort_some hv hshort hbefore, Nat.zero_add]
  · refine tableFault_clash (by rwa [esyms]) (by rwa [evals]) ?_
    have hearlier : sentinelCode w ∈ (vals.take k).map sentinelCode := List.mem_map_of_mem hw
    rw [List.map_take] at hbefore hearlier
    rw [evals, firstClash_some (by rw [List.getElem?_map, hv]; rfl) ⟨_, .inr hearlier, hclash⟩ hbefore (by simp),
      Nat.zero_add]
  · refine tableFault_pad (by rwa [esyms]) (by rwa [evals]) (by rwa [evals]) ?_
    rw [epad, hlen]
    exact hpad.imp_right fun ⟨hempty, hne⟩ => ⟨by rw [hempty, List.length_nil, Nat.add_zero], hne⟩

/-! ### A legal container loaded -/

section
variable {s : State} {syms : List Byte} {vals : List Nat} {pad : Byte} {payload : List Byte}
  (h : ContainerLegal syms vals pad payload)
include h

/-- SYM_COUNT, MAX_LEN and PAD after a legal container is loaded (42_container.md R180). -/
theorem ContainerLegal.registers :
    let u := setContainer s syms.length (syms ++ vals.flatMap (bytesBE 8) ++ [pad])
    u.symCount.toNat = syms.length ∧ u.maxLen.toNat = (vals.map Nat.log2).foldl max 0 ∧ u.pad.toNat = pad.toNat := by
  obtain ⟨hlen, -, h256, -, hvals, -, hpad, -⟩ := h
  obtain ⟨-, evals, epad⟩ := containerParts (pad := pad) hlen fun v hv => (hvals v hv).2
  have hmax : (vals.map Nat.log2).foldl max 0 ≤ 63 := by
    refine foldl_max_le.2 ⟨Nat.zero_le _, fun x hx => ?_⟩
    obtain ⟨v, hv, rfl⟩ := List.mem_map.1 hx
    exact (stored_fits (hvals v hv).1 (hvals v hv).2).2.1
  refine ⟨Nat.mod_eq_of_lt (by omega), ?_, ?_⟩
  · simp only [setContainer, evals]
    exact Nat.mod_eq_of_lt (by omega)
  · rw [setContainer_pad, epad, BitVec.toNat_setWidth]
    exact Nat.mod_eq_of_lt (by omega)

/-- PAYLOAD_LEN holds the payload's length (42_container.md R180). -/
theorem ContainerLegal.payloadLen (hs : s.sourceBytes = containerOf syms vals pad payload) :
    (BitVec.ofNat 32 (s.srcLen.toNat - 5 - 9 * syms.length)).toNat = payload.length := by
  have hlen := State.srcLen_of_container h.1 hs
  have hlt := s.srcLen.isLt
  rw [BitVec.toNat_ofNat, Nat.mod_eq_of_lt (by omega)]
  omega

end

/-- PAYLOAD_ADDR is the payload's address where 32 bits hold it (42_container.md R180). -/
theorem State.toNat_payloadAddrFor {s : State} {n : Nat} (h : s.srcAddr.toNat + 5 + 9 * n < 2 ^ 32) :
    (s.payloadAddrFor n).toNat = s.srcAddr.toNat + 5 + 9 * n := by
  rw [State.payloadAddrFor, State.payloadStart, if_pos h, BitVec.toNat_ofNat, Nat.mod_eq_of_lt h]

/-- Settles O32: a legal container parses (`parseContainer_legal`), and loads as `ContainerLegal.loaded` and the lemmas
beside it say. -/
theorem deserializeLoadsContainer : Obligations.DeserializeLoadsContainer := by
  unfold Obligations.DeserializeLoadsContainer
  intro s syms vals pad payload h hs hfit hr
  obtain ⟨hsym, hmax, hpad⟩ := h.registers (s := s)
  refine ⟨_, exec_deserialize_ok (parseContainer_legal h hs hfit hr), rfl, fun b v hb => ?loaded, fun b hb => ?unloaded,
    hsym, hmax, hpad, h.payloadLen hs, State.toNat_payloadAddrFor⟩
  case loaded =>
    obtain ⟨hlen, hbits, -⟩ := h.loaded (s := s) hb
    exact ⟨hlen, hbits⟩
  case unloaded => exact h.unloaded (s := s) hb

end Sys2Proof.Machine
end

section
/-! The round trip of SERIALIZE and DESERIALIZE (42_container.md R183). -/

namespace Sys2Proof.Machine

/-- The code lengths of a legal table fix SYM_COUNT and MAX_LEN (10_state.md R34, R35). -/
theorem CodesLegal.registers_eq {s t : State} (hs : CodesLegal s) (ht : CodesLegal t) (hsv : s.codesValid = true)
    (htv : t.codesValid = true) (hlen : t.codeLen = s.codeLen) : t.symCount = s.symCount ∧ t.maxLen = s.maxLen := by
  obtain ⟨-, hscount, -, hsmax⟩ := hs.2 hsv
  obtain ⟨-, htcount, -, htmax⟩ := ht.2 htv
  have hcoded : t.codedSymbols = s.codedSymbols := by rw [State.codedSymbols, hlen]; rfl
  refine ⟨BitVec.eq_of_toNat_eq ?_, BitVec.eq_of_toNat_eq ?_⟩
  · rw [htcount, hscount, hcoded]
  · rw [htmax, hsmax, hlen]

section
variable {s : State} (hc : CodesLegal s) (hv : s.codesValid = true)
include hc hv

/-- The payload stands behind the header in the bytes written (20_memory.md R66). -/
theorem State.payload_written (hm : Mem.wf s.mem = true) (hok : s.rangesOk = true)
    (hcap : s.containerSize ≤ s.dstCap.toNat) {j : Nat} (hj : j < s.srcLen.toNat) :
    Mem.read (s.sinkOf (s.header ++ s.sourceBytes)).mem (s.dstAddr.toNat + (5 + 9 * s.symCount.toNat + j)) =
      s.sourceByte j := by
  have hj' : s.header.length + j < (s.header ++ s.sourceBytes).length := by
    rw [List.length_append, State.sourceBytes_length]
    omega
  rw [← State.header_length_legal hc hv,
    State.sinkOf_read_inside hok ((State.container_length hc hv).trans_le hcap) hm hj',
    List.getElem_append_right (by omega)]
  simp [State.sourceBytes, State.sourcePart]

end

section
variable {s u : State} {pad : Byte} {payload : List Byte} (hc : CodesLegal s)
  (h : ContainerLegal s.codedSymbols (s.codedSymbols.map s.storedCode) pad payload)
include hc h

/-- The entry of each symbol loaded from the container of a code table is that of the table. -/
theorem ContainerLegal.loaded_entry (b : Byte) :
    let w := setContainer u s.codedSymbols.length
      (s.codedSymbols ++ (s.codedSymbols.map s.storedCode).flatMap (bytesBE 8) ++ [pad])
    tabGet w.codeLen b = tabGet s.codeLen b ∧ tabGet w.codeBits b = tabGet s.codeBits b := by
  by_cases hb : b ∈ s.codedSymbols
  · have hzip : (b, s.storedCode b) ∈ s.codedSymbols.zip (s.codedSymbols.map s.storedCode) := by
      rw [← List.map_prod_left_eq_zip]
      exact List.mem_map_of_mem hb
    obtain ⟨hlen, hbits, -⟩ := h.loaded (s := u) hzip
    have hlog : Nat.log2 (s.storedCode b) = (tabGet s.codeLen b).toNat := log2_sentinel (hc.1 b)
    rw [hlog] at hlen hbits
    exact ⟨BitVec.eq_of_toNat_eq hlen, BitVec.eq_of_toNat_eq (hbits.trans (Nat.add_sub_cancel_left ..))⟩
  · have hzero : tabGet s.codeLen b = 0 := by
      by_contra hne
      exact hb (State.mem_codedSymbols.2 hne)
    rw [hzero, hc.codeBits_eq_zero hzero]
    exact h.unloaded hb

theorem ContainerLegal.loaded_table :
    let w := setContainer u s.codedSymbols.length
      (s.codedSymbols ++ (s.codedSymbols.map s.storedCode).flatMap (bytesBE 8) ++ [pad])
    w.codeLen = s.codeLen ∧ w.codeBits = s.codeBits :=
  ⟨tab_ext fun b => (h.loaded_entry hc b).1, tab_ext fun b => (h.loaded_entry hc b).2⟩

end

/-- Settles O37: SERIALIZE's output is a legal container (`State.container_legal`), which loads as the table it was made of
(`ContainerLegal.loaded_table`). -/
theorem serializeDeserializeRoundTrip : Obligations.SerializeDeserializeRoundTrip := by
  unfold Obligations.SerializeDeserializeRoundTrip
  intro s t u hm hc _ hexec ht hp hu hr
  obtain ⟨hv, hok, hcap, rfl⟩ := exec_serialize_success hexec ht
  have hlen := State.container_length hc hv
  have hmem : u.mem = (s.sinkOf (s.header ++ s.sourceBytes)).mem := by rw [hu]; rfl
  have haddr : u.srcAddr = s.dstAddr := by rw [hu]
  have hsrcLen : u.srcLen.toNat = s.containerSize := by rw [hu]; exact State.toNat_containerSize hcap
  have hdst : s.dstAddr.toNat + s.containerSize ≤ Config.memSize := hlen ▸ State.sinkOf_fits hok (hlen.trans_le hcap)
  have hfit : u.srcFits = true := by rw [State.srcFits, haddr, hsrcLen]; exact decide_eq_true hdst
  have hbytes := (State.sourceBytes_of_sinkOf hok (hlen.trans_le hcap) hm hmem haddr (hsrcLen.trans hlen.symm)).trans
    (State.header_container hc hv)
  have hlegal : ContainerLegal s.codedSymbols (s.codedSymbols.map s.storedCode) (s.pad.setWidth 8) s.sourceBytes :=
    State.container_legal hc hv hp
  have hcount : s.symCount.toNat = s.codedSymbols.length := (hc.2 hv).2.1
  rw [hcount] at hr
  obtain ⟨hcodeLen, hcodeBits⟩ := hlegal.loaded_table (u := u) hc
  obtain ⟨hsym, hmax⟩ := hc.registers_eq hlegal.codesLegal hv rfl hcodeLen
  obtain ⟨-, -, hpad⟩ := hlegal.registers (s := u)
  refine ⟨_, exec_deserialize_ok (parseContainer_legal hlegal hbytes hfit hr), by rw [hu]; exact ht, rfl, hcodeLen,
    hcodeBits, hsym, hmax, BitVec.eq_of_toNat_eq ?pad,
    BitVec.eq_of_toNat_eq ((hlegal.payloadLen hbytes).trans s.sourceBytes_length), fun j hj => ?payload⟩
  case pad =>
    refine hpad.trans ?_
    rw [BitVec.toNat_setWidth]
    exact Nat.mod_eq_of_lt (by omega)
  case payload =>
    have htop : u.srcAddr.toNat + 5 + 9 * s.codedSymbols.length < 2 ^ 32 := by
      rw [State.containerSize, hcount] at hdst
      rw [haddr]
      exact lt_of_lt_of_le (by omega) hdst
    have haddr' : (u.payloadAddrFor s.codedSymbols.length).toNat + j =
        s.dstAddr.toNat + (5 + 9 * s.symCount.toNat + j) := by
      rw [State.toNat_payloadAddrFor htop, haddr, hcount]
      omega
    show Mem.read u.mem ((u.payloadAddrFor s.codedSymbols.length).toNat + j) = _
    rw [haddr', hmem]
    exact State.payload_written hc hv hm hok hcap hj

end Sys2Proof.Machine
end

section
/-! Errors, completions and the interrupt (60_exceptions.md): every command completes (R200, R206), the error record it leaves
(R201, R204), SEQUENCE before any access (R205) and the level of IRQ (R207, R208). -/

namespace Sys2Proof.Machine

/-! ### Completion and the error record -/

/-- STATUS.ERR is read from ERRCODE alone (10_state.md R25). -/
theorem State.status_err_bit (s : State) : (s.regValue .status).getLsbD 2 = (s.errCode != 0) := by
  show s.statusWord.getLsbD 2 = s.err
  rw [State.statusWord_getLsbD]
  simp

/-- Settles O10: every command ends in a state of the list `Ends`, each completed and with CMD kept. -/
theorem everyCommandCompletes : Obligations.EveryCommandCompletes := by
  unfold Obligations.EveryCommandCompletes
  intro i s
  obtain ⟨t, ht, he⟩ := exec_ends i s
  obtain ⟨hbusy, hdone⟩ := he.completed
  exact ⟨t, ht, hbusy, hdone, he.operandsKept.cmd, t.status_err_bit⟩

/-- Settles O41: a command keeps the clear record it starts with, or ends with that of a raised error (`Ends.error_cases`). -/
theorem errorRecord : Obligations.ErrorRecord := by
  unfold Obligations.ErrorRecord
  intro i s t hcode hinfo h
  have he := ends_of_exec h
  rcases he.error_cases with ⟨hkcode, hkinfo⟩ | ⟨r, hr⟩
  · rw [hkcode, hkinfo, hcode, hinfo]
    exact ⟨by decide, fun hne => absurd rfl hne, fun _ => rfl⟩
  · obtain ⟨hbusy, -⟩ := he.completed
    obtain ⟨-, hlegal, hclear, hlen⟩ := statusLegal_of_raised hbusy hr
    exact ⟨hlegal, hlen, hclear⟩

/-! ### SEQUENCE -/

theorem exec_assignCodes_sequence {s : State} (hv : s.treeValid = false) :
    exec .assignCodes s = .next (s.fail ⟨.sequence, 0, 0⟩) :=
  if_neg (Bool.eq_false_iff.1 hv)

/-- The three commands that use the code table look at CODES_VALID before their ranges. -/
theorem exec_codes_sequence {i : Instr} {s : State} (hi : i = .pack ∨ i = .unpack ∨ i = .serialize)
    (hv : s.codesValid = false) : exec i s = .next (s.fail ⟨.sequence, 0, 0⟩) := by
  rcases hi with rfl | rfl | rfl <;> exact if_neg (Bool.eq_false_iff.1 hv)

/-- Settles O22: the missing table is the first check of each command, so nothing has been written when it raises. -/
theorem sequenceErrors : Obligations.SequenceErrors := by
  unfold Obligations.SequenceErrors
  intro i s h
  have hraise : exec i s = .next (s.fail ⟨.sequence, 0, 0⟩) := by
    rcases h with ⟨rfl, hv⟩ | ⟨hi, hv⟩
    · exact exec_assignCodes_sequence hv
    · exact exec_codes_sequence hi hv
  rw [hraise, State.fail_unwritten rfl]
  rfl

/-! ### The interrupt level -/

theorem State.irq_iff (s : State) : s.irq = true ↔ s.ie = true ∧ s.done = true := Bool.and_eq_true_iff

theorem State.irq_of_ie_false {s : State} (h : s.ie = false) : s.irq = false := by simp [State.irq, h]

theorem State.irq_of_done_false {s : State} (h : s.done = false) : s.irq = false := by simp [State.irq, h]

/-- A completion sets DONE and keeps IE, so IRQ is at the level of IE (60_exceptions.md R206, R207). -/
theorem Ends.irq {i : Instr} {s t : State} (he : Ends s i t) : t.irq = s.ie := by
  obtain ⟨-, hdone⟩ := he.completed
  rw [State.irq, hdone, he.operandsKept.ie, Bool.and_true]

/-- Settles O59: each host write leaves IE or DONE at the value that decides the level, and a completion sets DONE. -/
theorem interruptLevel : Obligations.InterruptLevel := by
  unfold Obligations.InterruptLevel
  intro s v
  refine ⟨s.irq_iff, ?setIe, ?clearIe, ?clearDone, ?accept, fun i t h => (ends_of_exec h).irq⟩
  case setIe =>
    intro hdone hv
    rw [writeWindow_ctrl]
    exact (State.irq_iff _).2 ⟨hv, hdone⟩
  case clearIe =>
    intro hv
    rw [writeWindow_ctrl]
    exact State.irq_of_ie_false hv
  case clearDone =>
    intro hv
    rw [writeWindow_status]
    exact State.irq_of_done_false (by simp [hv])
  case accept =>
    intro hb
    rw [writeWindow_of_idle hb]
    exact State.irq_of_done_false (s.accept_done v)

end Sys2Proof.Machine
end

section
/-! The reset event (70_reset_and_hazards.md R230, R231), and the ranges the host may not write until it has seen BUSY = 0
(R233, R242). -/

namespace Sys2Proof.Machine

/-! ### The reset event -/

/-- With no destination in use there is nothing an abandoned command leaves open. -/
theorem resetEvent_mem_of_dst_unused {s : State} (h : s.dstInUse = false) : (resetEvent s).mem = s.mem := by
  show (afterAbandon s).mem = s.mem
  rw [afterAbandon, if_neg (Bool.eq_false_iff.1 h)]

/-- Settles O6: the reset event takes every field from `State.reset` but those named, and writes memory at most in the
destination range of a command with one (`resetEvent_mem`). -/
theorem resetEventRestores : Obligations.ResetEventRestores := by
  unfold Obligations.ResetEventRestores
  intro s rest hm
  obtain ⟨hwf, houtside⟩ := resetEvent_mem (s := s.popHost rest) hm
  exact ⟨_, rfl, rfl, rfl, hwf, fun h => resetEvent_mem_of_dst_unused (s := s.popHost rest) h, houtside⟩

/-! ### The ranges of a command -/

theorem Instr.usesSrc_iff_mem (i : Instr) :
    Instr.usesSrc i = true ↔ i ∈ ([.countFreq, .pack, .unpack, .serialize, .deserialize] : List Instr) := by
  cases i <;> decide

theorem Instr.usesDst_iff_mem (i : Instr) :
    Instr.usesDst i = true ↔ i ∈ ([.pack, .unpack, .serialize] : List Instr) := by
  cases i <;> decide

/-- The ranges of kind read are the source range of a command that reads one. -/
theorem State.rangesOf_any_covers_read (s : State) (i : Instr) (a : Nat) :
    ((s.rangesOf i).any fun g => g.covers a .read) = (Instr.usesSrc i && s.inSrc a) := by
  unfold State.rangesOf
  cases Instr.usesSrc i <;> cases Instr.usesDst i <;> simp [Region.covers, State.inSrc]

/-- The ranges of kind write are the destination range of a command that writes one. -/
theorem State.rangesOf_any_covers_write (s : State) (i : Instr) (a : Nat) :
    ((s.rangesOf i).any fun g => g.covers a .write) = (Instr.usesDst i && s.inDst a) := by
  unfold State.rangesOf
  cases Instr.usesSrc i <;> cases Instr.usesDst i <;> simp [Region.covers, State.inDst]

theorem State.rangesOfWord_ok {s : State} {w : Word} {i : Instr} (h : decode w = .ok i) :
    s.rangesOfWord w = s.rangesOf i := by
  rw [State.rangesOfWord, h]

theorem State.rangesOfWord_error {s : State} {w : Word} {e : DecodeError} (h : decode w = .error e) :
    s.rangesOfWord w = [] := by
  rw [State.rangesOfWord, h]

/-! ### What guards an address -/

/-- A range among the guarded ones guards what it covers. -/
theorem State.guards_of_ranges {s : State} {l : List Region} {a : Nat} {k : AccessKind} (hl : ∀ g ∈ l, g ∈ s.guarded)
    (h : (l.any fun g => g.covers a k) = true) : s.guards a k = true := by
  obtain ⟨g, hg, hcovers⟩ := List.any_eq_true.1 h
  exact List.any_eq_true.2 ⟨g, hl g hg, hcovers⟩

theorem State.accept_guards {w : Word} {i : Instr} (h : decode w = .ok i) (s : State) (a : Nat) (k : AccessKind) :
    (s.accept w).guards a k = (((s.rangesOf i).any fun g => g.covers a k) || s.guards a k) := by
  rw [State.guards, State.accept_guarded, State.rangesOfWord_ok h, List.any_append]
  rfl

theorem State.accept_guards_read_iff {w : Word} {i : Instr} (h : decode w = .ok i) (s : State) (a : Nat) :
    (s.accept w).guards a .read = true ↔ s.guards a .read = true ∨
      (i ∈ ([.countFreq, .pack, .unpack, .serialize, .deserialize] : List Instr) ∧ s.inSrc a = true) := by
  rw [State.accept_guards h, State.rangesOf_any_covers_read, Bool.or_eq_true, Bool.and_eq_true, Instr.usesSrc_iff_mem,
    or_comm]

theorem State.accept_guards_write_iff {w : Word} {i : Instr} (h : decode w = .ok i) (s : State) (a : Nat) :
    (s.accept w).guards a .write = true ↔ s.guards a .write = true ∨
      (i ∈ ([.pack, .unpack, .serialize] : List Instr) ∧ s.inDst a = true) := by
  rw [State.accept_guards h, State.rangesOf_any_covers_write, Bool.or_eq_true, Bool.and_eq_true, Instr.usesDst_iff_mem,
    or_comm]

theorem State.accept_guarded_of_error {w : Word} {e : DecodeError} (h : decode w = .error e) (s : State) :
    (s.accept w).guarded = s.guarded := by
  rw [State.accept_guarded, State.rangesOfWord_error h, List.nil_append]

/-- A running command's ranges are guarded. -/
theorem DutyLegal.guards_ranges {s : State} (hs : DutyLegal s) (hb : s.busy = true) {i : Instr}
    (hd : decode s.cmd = .ok i) {a : Nat} {k : AccessKind}
    (h : ((s.rangesOf i).any fun g => g.covers a k) = true) : s.guards a k = true := by
  obtain ⟨hrun, -⟩ := hs
  obtain ⟨-, hranges⟩ := hrun hb
  rw [State.rangesOfWord_ok hd] at hranges
  exact State.guards_of_ranges hranges h

/-! ### The host's writes and waits -/

/-- A write to a byte of a guarded range is refused. -/
theorem hostStep_writeMem_refused {s : State} {a : Nat} (ha : a < 2 ^ 32)
    (h : s.guards a .read = true ∨ s.guards a .write = true) (v : Byte) (rest : List HostOp) :
    hostStep s (.writeMem a v) rest = .refused .hostDutyBroken := by
  have hmay : ¬s.hostMayWrite a = true := by rcases h with h | h <;> simp [State.hostMayWrite, h]
  exact (if_pos ha).trans (if_neg hmay)

theorem waitStep_unread (s : State) (rest : List HostOp) : (waitStep s rest).unread = (s.busy && s.unread) := by
  rw [waitStep_eq]
  cases hb : s.busy with
  | true => rw [State.seeStatus_busy_eq hb, Bool.true_and]
  | false => rw [State.seeStatus_idle_eq hb, Bool.false_and]

theorem waitStep_guarded (s : State) (rest : List HostOp) :
    (waitStep s rest).guarded = if s.busy then s.guarded else [] := by
  rw [waitStep_eq]
  cases hb : s.busy with
  | true => rw [State.seeStatus_busy_eq hb, if_pos rfl]
  | false => rw [State.seeStatus_idle_eq hb, if_neg Bool.false_ne_true]

/-- Settles O58: an acceptance puts exactly its command's ranges before what was guarded, `DutyLegal` keeps them there while
it runs, and a wait that shows BUSY = 0 empties the list. -/
theorem hostDutyRefused : Obligations.HostDutyRefused := by
  unfold Obligations.HostDutyRefused
  refine ⟨fun s a v rest ha => ⟨?refused, ?performed⟩, fun s w a hb => ?accepted, fun s a i hs hb hd => ⟨?src, ?dst⟩,
    fun s rest => ⟨_, rfl, waitStep_unread s rest, waitStep_guarded s rest⟩⟩
  case refused => exact fun h => hostStep_writeMem_refused ha h v rest
  case performed => exact fun hr hw => hostStep_writeMem ha hr hw v rest
  case accepted =>
    rw [writeWindow_of_idle hb]
    exact ⟨fun i hi => ⟨s.accept_guards_read_iff hi a, s.accept_guards_write_iff hi a⟩,
      fun e he => s.accept_guarded_of_error he⟩
  case src =>
    intro hi ha
    refine hs.guards_ranges hb hd ?_
    rw [State.rangesOf_any_covers_read, (Instr.usesSrc_iff_mem i).2 hi, ha, Bool.and_self]
  case dst =>
    intro hi ha
    refine hs.guards_ranges hb hd ?_
    rw [State.rangesOf_any_covers_write, (Instr.usesDst_iff_mem i).2 hi, ha, Bool.and_self]

end Sys2Proof.Machine
end
